-- ==== Sys2Proof/Word.lean ====
section
/-! DEFINITION. The word types of the NDB core and the eight-lane vector (spec/00_scope.md R12, R13,
R16; spec/10_state.md R22). -/

namespace Sys2Proof

/-- The smallest addressable unit of memory (R50). -/
abbrev Byte := BitVec 8

/-- A u32: a command word, a generator lane state, SEED. -/
abbrev Word := BitVec 32

/-- A u64: a register of the window, an address, COUNT. -/
abbrev DWord := BitVec 64

/-- The bits of an IEEE-754 binary32 value (R15): the machine holds a float as its bits, so
`bitcast_f32` and `bits_u32` of R14 are the identity. -/
abbrev F32 := BitVec 32

/-- The number of a batch register, V0 to V7 (R22, `NVREG` = 8). -/
abbrev VReg := Fin 8

/-- The number of a lane, 0 to 7 (R22, `LANES` = 8). -/
abbrev Lane := Fin 8

/-- One value for each of the eight lanes; lane 0 first. -/
abbrev Lanes (α : Type) := Vector α 8

/-- The content of a batch register: eight binary32 values (R22). -/
abbrev Batch := Lanes F32

/-- The lanes whose lane `i` is `f i`: the "for i in 0..LANES-1" of R16, with each lane computed
from its own inputs only. -/
def Lanes.of {α : Type} (f : Lane → α) : Lanes α :=
  #v[f 0, f 1, f 2, f 3, f 4, f 5, f 6, f 7]

end Sys2Proof
end

