-- ==== Sys2Proof/Syntax.lean ====
section
/-! DEFINITION. The ten commands (spec/30_encoding.md R74), one constructor for each row of
spec/opcode_table.json. Operands stand in the order of the assembler text (R79): destinations
first, then sources. -/

namespace Sys2Proof

inductive Instr where
  /-- NOP (R180). -/
  | nop
  /-- RESEED (R104). -/
  | reseed
  /-- FILL (R160). -/
  | fill
  /-- DRAW vD (R102). -/
  | draw (rd : VReg)
  /-- VLOG vD, vS (R130). -/
  | vlog (rd rs1 : VReg)
  /-- VSIN vD, vS (R131). -/
  | vsin (rd rs1 : VReg)
  /-- VSINCOS vSin, vCos, vS (R132). -/
  | vsincos (rd rd2 rs1 : VReg)
  /-- COMBINE vZ0, vZ1, vU1, vU2 (R141). -/
  | combine (rd rd2 rs1 rs2 : VReg)
  /-- VLD vD (R182). -/
  | vld (rd : VReg)
  /-- VST vS (R183). -/
  | vst (rs1 : VReg)
  deriving DecidableEq, Repr

end Sys2Proof
end

