-- ==== Sys2Proof/WellFormed.lean ====
section
/-! DEFINITION. Which commands have an encoding (spec/30_encoding.md R72, R76). That a register
number is 0 to 7 (R72) is carried by its type; what is left is that the two destinations of VSINCOS
and COMBINE differ. -/

namespace Sys2Proof

/-- R76: the two destinations of VSINCOS and of COMBINE differ. -/
def Instr.wf : Instr → Bool
  | .nop => true
  | .reseed => true
  | .fill => true
  | .draw _ => true
  | .vlog _ _ => true
  | .vsin _ _ => true
  | .vsincos rd rd2 _ => rd != rd2
  | .combine rd rd2 _ _ => rd != rd2
  | .vld _ => true
  | .vst _ => true

/-- A command that some word encodes. -/
abbrev Instr.WellFormed (i : Instr) : Prop := i.wf = true

end Sys2Proof
end

