-- ==== Sys2Proof/Decode.lean ====
section
/-! DEFINITION. Decoding and encoding of command words (spec/30_encoding.md R70 to R78): total on
every 32-bit word, each illegal word rejected by the check it fails, and the assembler text of a
command (R79). -/

namespace Sys2Proof

/-- The opcodes of R74. -/
inductive Opcode where
  | nop | reseed | fill | draw | vlog | vsin | vsincos | combine | vld | vst
  deriving DecidableEq, Repr

/-- Why a word is illegal (R77). -/
inductive Illegal where
  /-- RSV is not 0. -/
  | reservedBits
  /-- OP is not in the map. -/
  | unknownOpcode
  /-- A field that the command does not use is not 0. -/
  | unusedField
  /-- A field that the command uses is 8 or more. -/
  | registerRange
  /-- RD = RD2 for VSINCOS or COMBINE (R76). -/
  | sameDestination
  deriving DecidableEq, Repr

/-- What decoding returns: a command, or ILLEGAL with the check that failed. -/
inductive Decoded where
  | instr (i : Instr)
  | illegal (why : Illegal)
  deriving DecidableEq, Repr

/-- The field of `w` of `len` bits from bit `lo` up, unsigned (R12). -/
def fieldOf (w : Word) (lo len : Nat) : Nat := w.toNat / 2 ^ lo % 2 ^ len

/-- Bits 7:0 (R70). -/
def opOf (w : Word) : Nat := fieldOf w 0 8
/-- Bits 11:8. -/
def rdOf (w : Word) : Nat := fieldOf w 8 4
/-- Bits 15:12. -/
def rs1Of (w : Word) : Nat := fieldOf w 12 4
/-- Bits 19:16. -/
def rs2Of (w : Word) : Nat := fieldOf w 16 4
/-- Bits 23:20. -/
def rd2Of (w : Word) : Nat := fieldOf w 20 4
/-- Bits 31:24. -/
def rsvOf (w : Word) : Nat := fieldOf w 24 8

/-- The OP value of an opcode (R74). -/
def Opcode.value : Opcode → Nat
  | .nop => 0x00
  | .reseed => 0x01
  | .fill => 0x02
  | .draw => 0x10
  | .vlog => 0x11
  | .vsin => 0x12
  | .vsincos => 0x13
  | .combine => 0x14
  | .vld => 0x20
  | .vst => 0x21

/-- The opcode with an OP value; every value outside the map has none (R74, R77). -/
def opcodeOf (op : Nat) : Option Opcode :=
  if op = 0x00 then some .nop
  else if op = 0x01 then some .reseed
  else if op = 0x02 then some .fill
  else if op = 0x10 then some .draw
  else if op = 0x11 then some .vlog
  else if op = 0x12 then some .vsin
  else if op = 0x13 then some .vsincos
  else if op = 0x14 then some .combine
  else if op = 0x20 then some .vld
  else if op = 0x21 then some .vst
  else none

/-- Which register fields a command uses. -/
structure UsedFields where
  rd : Bool := false
  rs1 : Bool := false
  rs2 : Bool := false
  rd2 : Bool := false
  deriving DecidableEq, Repr

/-- The `used` sets of R78. -/
def Opcode.used : Opcode → UsedFields
  | .nop => {}
  | .reseed => {}
  | .fill => {}
  | .draw => { rd := true }
  | .vlog => { rd := true, rs1 := true }
  | .vsin => { rd := true, rs1 := true }
  | .vsincos => { rd := true, rs1 := true, rd2 := true }
  | .combine => { rd := true, rs1 := true, rs2 := true, rd2 := true }
  | .vld => { rd := true }
  | .vst => { rs1 := true }

/-- Whether a command has two destinations, which must differ (R76). -/
def Opcode.twoDestinations : Opcode → Bool
  | .nop => false
  | .reseed => false
  | .fill => false
  | .draw => false
  | .vlog => false
  | .vsin => false
  | .vsincos => true
  | .combine => true
  | .vld => false
  | .vst => false

/-- The check of one register field: an unused one is 0, a used one is below 8 (R72). -/
def fieldCheck (used : Bool) (f : Nat) : Option Illegal :=
  if used then (if f < 8 then none else some .registerRange)
  else (if f = 0 then none else some .unusedField)

/-- The checks of all the register fields of `w` for opcode `o`, in the order of R78. -/
def registerChecks (o : Opcode) (w : Word) : Option Illegal :=
  (fieldCheck o.used.rd (rdOf w)).or <|
  (fieldCheck o.used.rs1 (rs1Of w)).or <|
  (fieldCheck o.used.rs2 (rs2Of w)).or <|
  (fieldCheck o.used.rd2 (rd2Of w)).or <|
  if o.twoDestinations ∧ rdOf w = rd2Of w then some .sameDestination else none

/-- The command with opcode `o` and the register numbers of `w`. -/
def buildInstr (o : Opcode) (w : Word) : Instr :=
  match o with
  | .nop => .nop
  | .reseed => .reseed
  | .fill => .fill
  | .draw => .draw (Fin.ofNat 8 (rdOf w))
  | .vlog => .vlog (Fin.ofNat 8 (rdOf w)) (Fin.ofNat 8 (rs1Of w))
  | .vsin => .vsin (Fin.ofNat 8 (rdOf w)) (Fin.ofNat 8 (rs1Of w))
  | .vsincos =>
    .vsincos (Fin.ofNat 8 (rdOf w)) (Fin.ofNat 8 (rd2Of w)) (Fin.ofNat 8 (rs1Of w))
  | .combine =>
    .combine (Fin.ofNat 8 (rdOf w)) (Fin.ofNat 8 (rd2Of w)) (Fin.ofNat 8 (rs1Of w))
      (Fin.ofNat 8 (rs2Of w))
  | .vld => .vld (Fin.ofNat 8 (rdOf w))
  | .vst => .vst (Fin.ofNat 8 (rs1Of w))

/-- R78: decode is total on every 32-bit word. -/
def decode (w : Word) : Decoded :=
  if rsvOf w ≠ 0 then .illegal .reservedBits
  else
    match opcodeOf (opOf w) with
    | none => .illegal .unknownOpcode
    | some o =>
      match registerChecks o w with
      | some why => .illegal why
      | none => .instr (buildInstr o w)

/-- A word from its fields; RSV is 0 (R70). -/
def wordOf (o : Opcode) (rd rs1 rs2 rd2 : Nat) : Word :=
  BitVec.ofNat 32 (o.value + rd * 2 ^ 8 + rs1 * 2 ^ 12 + rs2 * 2 ^ 16 + rd2 * 2 ^ 20)

/-- The opcode of a command. -/
def Instr.opcode : Instr → Opcode
  | .nop => .nop
  | .reseed => .reseed
  | .fill => .fill
  | .draw _ => .draw
  | .vlog _ _ => .vlog
  | .vsin _ _ => .vsin
  | .vsincos _ _ _ => .vsincos
  | .combine _ _ _ _ => .combine
  | .vld _ => .vld
  | .vst _ => .vst

/-- The word of a command, from the fields of R70 and the map of R74. -/
def encode : Instr → Word
  | .nop => wordOf .nop 0 0 0 0
  | .reseed => wordOf .reseed 0 0 0 0
  | .fill => wordOf .fill 0 0 0 0
  | .draw rd => wordOf .draw rd 0 0 0
  | .vlog rd rs1 => wordOf .vlog rd rs1 0 0
  | .vsin rd rs1 => wordOf .vsin rd rs1 0 0
  | .vsincos rd rd2 rs1 => wordOf .vsincos rd rs1 0 rd2
  | .combine rd rd2 rs1 rs2 => wordOf .combine rd rs1 rs2 rd2
  | .vld rd => wordOf .vld rd 0 0 0
  | .vst rs1 => wordOf .vst 0 rs1 0 0

/-- The match column of R74. -/
def Opcode.matchWord (o : Opcode) : Word := BitVec.ofNat 32 o.value

/-- The mask column of R74. -/
def Opcode.mask : Opcode → Word
  | .nop => 0xFFFFFFFF
  | .reseed => 0xFFFFFFFF
  | .fill => 0xFFFFFFFF
  | .draw => 0xFFFFF8FF
  | .vlog => 0xFFFF88FF
  | .vsin => 0xFFFF88FF
  | .vsincos => 0xFF8F88FF
  | .combine => 0xFF8888FF
  | .vld => 0xFFFFF8FF
  | .vst => 0xFFFF8FFF

/-- The command in an instruction of `nbits` bits whose bits are `w`: a command is one 32-bit word
(R71), written to CMD as a value, so its bits above `nbits` are 0. -/
def decodeTableWord (nbits w : Nat) : Option Instr :=
  match decode (BitVec.ofNat 32 (w % 2 ^ nbits)) with
  | .instr i => some i
  | .illegal _ => none

/-- The name of a batch register in assembler text, `v0` to `v7` (R79). -/
def regText (r : VReg) : String := "v" ++ toString r.val

/-- The assembler text of a command (R79). -/
def Instr.asm : Instr → String
  | .nop => "NOP"
  | .reseed => "RESEED"
  | .fill => "FILL"
  | .draw rd => "DRAW " ++ regText rd
  | .vlog rd rs1 => "VLOG " ++ regText rd ++ ", " ++ regText rs1
  | .vsin rd rs1 => "VSIN " ++ regText rd ++ ", " ++ regText rs1
  | .vsincos rd rd2 rs1 =>
    "VSINCOS " ++ regText rd ++ ", " ++ regText rd2 ++ ", " ++ regText rs1
  | .combine rd rd2 rs1 rs2 =>
    "COMBINE " ++ regText rd ++ ", " ++ regText rd2 ++ ", " ++ regText rs1 ++ ", " ++ regText rs2
  | .vld rd => "VLD " ++ regText rd
  | .vst rs1 => "VST " ++ regText rs1

end Sys2Proof
end

