-- ==== Sys2Proof/Machine/Binary32.lean ====
section
/-! DEFINITION. The IEEE-754 binary32 format and its rounding (spec/00_scope.md R15,
spec/41_kernels.md R127): the fields of a bit pattern, its exact value, and round to nearest with
ties to even, on exact integers. Every finite binary32 is a whole number of units of 2^-149, the
smallest subnormal, so exact arithmetic here is integer arithmetic. -/

namespace Sys2Proof

/-- The biased exponent field, bits 30 to 23. -/
def F32.expField (x : F32) : Nat := x.toNat / 2 ^ 23 % 256

/-- The fraction field, bits 22 to 0. -/
def F32.frac (x : F32) : Nat := x.toNat % 2 ^ 23

/-- The bits below the sign: exponent field and fraction together. They grow with the magnitude. -/
def F32.mag (x : F32) : Nat := x.toNat % 2 ^ 31

/-- The sign bit. -/
def F32.isNeg (x : F32) : Bool := decide (2 ^ 31 ≤ x.toNat)

def F32.isNaN (x : F32) : Bool := F32.expField x == 255 && F32.frac x != 0

def F32.isInf (x : F32) : Bool := F32.expField x == 255 && F32.frac x == 0

/-- Neither an infinity nor a NaN. -/
def F32.isFinite (x : F32) : Bool := F32.expField x != 255

/-- +0 or −0. -/
def F32.isZero (x : F32) : Bool := F32.mag x == 0

/-- The magnitude that the bits below the sign stand for, in units of 2^-149: subnormals have
exponent field 0 and no hidden bit. -/
def F32.unitsOfMag (m : Nat) : Nat :=
  if m / 2 ^ 23 = 0 then m else (2 ^ 23 + m % 2 ^ 23) * 2 ^ (m / 2 ^ 23 - 1)

/-- The exact value of a finite binary32, in units of 2^-149. -/
def F32.units (x : F32) : Int :=
  if F32.isNeg x then -(F32.unitsOfMag (F32.mag x) : Int) else F32.unitsOfMag (F32.mag x)

/-- The exact value of a finite binary32. -/
def F32.value (x : F32) : ℚ := (F32.units x : ℚ) / 2 ^ 149

/-- The binary32 with the given sign and the given bits below the sign. -/
def F32.pack (neg : Bool) (mag : Nat) : F32 :=
  BitVec.ofNat 32 ((if neg then 2 ^ 31 else 0) + mag)

/-- The bits below the sign of an infinity. -/
def F32.infMag : Nat := 0x7F800000

/-- `n / 2^sh` rounded to the nearest integer, ties to even. -/
def F32.roundShift (n sh : Nat) : Nat :=
  if 2 ^ sh < 2 * (n % 2 ^ sh) ∨ (2 * (n % 2 ^ sh) = 2 ^ sh ∧ n / 2 ^ sh % 2 = 1) then
    n / 2 ^ sh + 1
  else n / 2 ^ sh

/-- How many low bits of `n`, a magnitude in units of 2^-(149+k), the binary32 format drops: 24
significant bits are kept, and no bit below 2^-149. -/
def F32.dropBits (n k : Nat) : Nat := max (Nat.log2 n + 1 - 24) k

/-- The bits below the sign of the binary32 nearest to `n` units of 2^-(149+k), ties to even, with
overflow to infinity (R15, R127). A carry out of the fraction moves into the exponent field by
itself. -/
def F32.roundMag (n k : Nat) : Nat :=
  min ((F32.dropBits n k - k) * 2 ^ 23 + F32.roundShift n (F32.dropBits n k)) F32.infMag

/-- The integer square root of `n`, bit by bit: `r` is the part of the root found so far and the
next bits to try are `2^(fuel-1)`, ..., `1`. -/
def F32.sqrtBits : (fuel : Nat) → (n r : Nat) → Nat
  | 0, _, r => r
  | k + 1, n, r =>
    F32.sqrtBits k n (if (r + 2 ^ k) * (r + 2 ^ k) ≤ n then r + 2 ^ k else r)

/-- The integer square root, rounded down. -/
def F32.isqrt (n : Nat) : Nat := F32.sqrtBits (Nat.log2 n / 2 + 1) n 0

end Sys2Proof
end

