-- ==== Sys2Proof/Config/Kernels.lean ====
section
/-! DEFINITION. The transcendental kernels as configuration functions and the properties the spec
requires of them (spec/41_kernels.md R120 to R126). -/

namespace Sys2Proof

/-- The three kernel functions of a build (R120): each total on all bit patterns, its result
depending on its input bits alone (R126, purity). No relation between `sin` and the sine of
`sincos` is given (R124). -/
structure KernelFns where
  /-- LOG. -/
  log : F32 → F32
  /-- SIN. -/
  sin : F32 → F32
  /-- SINCOS: the sine first, then the cosine. -/
  sincos : F32 → F32 × F32

/-- The domain on which LOG is bounded (R121): 0 < x ≤ 1, subnormals included. -/
def F32.LogDomain (x : F32) : Prop :=
  F32.isFinite x = true ∧ 0 < F32.value x ∧ F32.value x ≤ 1

/-- The domain on which SIN and SINCOS are bounded (R123, R124): 0 ≤ x < 2π with the exact 2π; −0
is outside it (R125). -/
def F32.TrigDomain (x : F32) : Prop :=
  F32.isNeg x = false ∧ F32.isFinite x = true ∧ ((F32.value x : ℚ) : ℝ) < 2 * Real.pi

/-- `y` is finite and within `eps` of the real number `r`. -/
def F32.Within (y : F32) (r eps : ℝ) : Prop :=
  F32.isFinite y = true ∧ |((F32.value y : ℚ) : ℝ) - r| ≤ eps

/-- The accuracy properties a build's kernels must have (R121, R123, R124). Outside the domains the
results are unconstrained (R125). -/
structure KernelFns.Admissible (k : KernelFns) : Prop where
  /-- R121: LOG to 1e-6 relative on (0, 1]. -/
  log_accurate : ∀ x, F32.LogDomain x →
    F32.Within (k.log x) (Real.log (F32.value x : ℚ)) (1 / 10 ^ 6 * |Real.log (F32.value x : ℚ)|)
  /-- R123: SIN to 1e-6 absolute on [0, 2π). -/
  sin_accurate : ∀ x, F32.TrigDomain x →
    F32.Within (k.sin x) (Real.sin (F32.value x : ℚ)) (1 / 10 ^ 6)
  /-- R124: the sine of SINCOS to 1e-6 absolute on [0, 2π). -/
  sincos_sin_accurate : ∀ x, F32.TrigDomain x →
    F32.Within (k.sincos x).1 (Real.sin (F32.value x : ℚ)) (1 / 10 ^ 6)
  /-- R124: the cosine of SINCOS to 1e-6 absolute on [0, 2π). -/
  sincos_cos_accurate : ∀ x, F32.TrigDomain x →
    F32.Within (k.sincos x).2 (Real.cos (F32.value x : ℚ)) (1 / 10 ^ 6)

/-- A kernel configuration a build may have: functions with the properties. -/
abbrev AdmissibleKernels := { k : KernelFns // k.Admissible }

end Sys2Proof
end

