-- ==== Sys2Proof/Laws/Binary32.lean ====
section
/-! SUPPORT. What the binary32 operations of Machine/Binary32.lean do: packing, the exact value of a
rounded magnitude, the rounding error, the integer square root. -/

namespace Sys2Proof

theorem F32.pack_toNat {neg : Bool} {mag : Nat} (h : mag < 2 ^ 31) :
    (F32.pack neg mag).toNat = (if neg then 2 ^ 31 else 0) + mag := by
  unfold F32.pack
  rw [BitVec.toNat_ofNat, Nat.mod_eq_of_lt]
  split <;> omega

theorem F32.pack_mag {neg : Bool} {mag : Nat} (h : mag < 2 ^ 31) :
    F32.mag (F32.pack neg mag) = mag := by
  rw [F32.mag, F32.pack_toNat h]; split <;> omega

theorem F32.pack_isNeg {neg : Bool} {mag : Nat} (h : mag < 2 ^ 31) :
    F32.isNeg (F32.pack neg mag) = neg := by
  rw [F32.isNeg, F32.pack_toNat h]
  cases neg
  · rw [decide_eq_false_iff_not]; simp only [Bool.false_eq_true, if_false]; omega
  · rw [decide_eq_true_eq]; simp only [if_true]; omega

theorem F32.mag_lt (x : F32) : F32.mag x < 2 ^ 31 := Nat.mod_lt _ (by decide)

/-- A pattern is finite exactly when the bits below its sign are below infinity's. -/
theorem F32.isFinite_iff (x : F32) : F32.isFinite x = true ↔ F32.mag x < F32.infMag := by
  have := x.isLt
  simp only [F32.isFinite, F32.expField, F32.mag, F32.infMag, bne_iff_ne, ne_eq]
  omega

theorem F32.isNaN_iff (x : F32) : F32.isNaN x = true ↔ F32.infMag < F32.mag x := by
  have := x.isLt
  simp only [F32.isNaN, F32.expField, F32.frac, F32.mag, F32.infMag, bne_iff_ne, ne_eq,
    Bool.and_eq_true, beq_iff_eq]
  omega

/-- A binary32 is its sign and the bits below it. -/
theorem F32.pack_eta (x : F32) : F32.pack (F32.isNeg x) (F32.mag x) = x := by
  apply BitVec.eq_of_toNat_eq
  have := x.isLt
  rw [F32.pack_toNat (F32.mag_lt x)]
  simp only [F32.isNeg, F32.mag, decide_eq_true_eq]
  split <;> omega

theorem F32.units_pack {neg : Bool} {mag : Nat} (h : mag < 2 ^ 31) :
    F32.units (F32.pack neg mag) =
      if neg then -(F32.unitsOfMag mag : Int) else F32.unitsOfMag mag := by
  rw [F32.units, F32.pack_isNeg h, F32.pack_mag h]

theorem F32.natAbs_units (x : F32) : (F32.units x).natAbs = F32.unitsOfMag (F32.mag x) := by
  unfold F32.units; split <;> simp

/-- Rounding keeps the order: it is the nearest integer below or above. -/
theorem F32.roundShift_bounds (n sh : Nat) :
    2 * n ≤ 2 * (F32.roundShift n sh * 2 ^ sh) + 2 ^ sh ∧
      2 * (F32.roundShift n sh * 2 ^ sh) ≤ 2 * n + 2 ^ sh := by
  have hp : 0 < 2 ^ sh := Nat.two_pow_pos sh
  have hd := Nat.div_add_mod n (2 ^ sh)
  have hm := Nat.mod_lt n hp
  rw [Nat.mul_comm] at hd
  unfold F32.roundShift
  split
  · rw [Nat.add_mul]; omega
  · omega

theorem F32.roundShift_zero (n : Nat) : F32.roundShift n 0 = n := by
  simp [F32.roundShift, Nat.mod_one]

theorem F32.roundShift_lower {n sh a : Nat} (h : a * 2 ^ sh ≤ n) : a ≤ F32.roundShift n sh := by
  have : a ≤ n / 2 ^ sh := (Nat.le_div_iff_mul_le (Nat.two_pow_pos sh)).2 h
  unfold F32.roundShift; split <;> omega

theorem F32.roundShift_upper {n sh a : Nat} (h : n < a * 2 ^ sh) : F32.roundShift n sh ≤ a := by
  have : n / 2 ^ sh < a := (Nat.div_lt_iff_lt_mul (Nat.two_pow_pos sh)).2 h
  unfold F32.roundShift; split <;> omega

/-- A magnitude of `dropBits` dropped bits keeps at most 24 significant bits. -/
theorem F32.roundShift_dropBits_le (n k : Nat) :
    F32.roundShift n (F32.dropBits n k) ≤ 2 ^ 24 := by
  apply F32.roundShift_upper
  have h1 : n < 2 ^ (Nat.log2 n + 1) := Nat.lt_log2_self
  have h2 : 2 ^ (Nat.log2 n + 1) ≤ 2 ^ (24 + F32.dropBits n k) :=
    Nat.pow_le_pow_right (by decide) (by unfold F32.dropBits; omega)
  rw [← Nat.pow_add]; omega

/-- When more bits are dropped than the unit asks for, 24 significant bits stay. -/
theorem F32.roundShift_dropBits_ge {n k : Nat} (h : k < F32.dropBits n k) :
    2 ^ 23 ≤ F32.roundShift n (F32.dropBits n k) := by
  apply F32.roundShift_lower
  have hn : n ≠ 0 := by rintro rfl; simp [F32.dropBits] at h
  have h1 : 2 ^ Nat.log2 n ≤ n := Nat.log2_self_le hn
  have h2 : 23 + F32.dropBits n k = Nat.log2 n := by unfold F32.dropBits at *; omega
  rw [← Nat.pow_add, h2]; exact h1

/-- The exact magnitude of the unclamped result of `roundMag`. -/
theorem F32.unitsOfMag_round (n k : Nat) :
    F32.unitsOfMag ((F32.dropBits n k - k) * 2 ^ 23 + F32.roundShift n (F32.dropBits n k)) =
      F32.roundShift n (F32.dropBits n k) * 2 ^ (F32.dropBits n k - k) := by
  have hle := F32.roundShift_dropBits_le n k
  rcases Nat.eq_zero_or_pos (F32.dropBits n k - k) with hd | hd
  · rw [hd]
    generalize F32.roundShift n (F32.dropBits n k) = m at *
    simp only [F32.unitsOfMag, Nat.zero_mul, Nat.zero_add, Nat.pow_zero, Nat.mul_one]
    split
    · rfl
    · have : m / 2 ^ 23 = 1 ∨ m / 2 ^ 23 = 2 := by omega
      rcases this with h | h <;> rw [h] <;> omega
  · have hge := F32.roundShift_dropBits_ge (n := n) (k := k) (by omega)
    generalize F32.dropBits n k - k = d at *
    generalize F32.roundShift n (F32.dropBits n k) = m at *
    rcases Nat.lt_or_ge m (2 ^ 24) with h | h
    · have e : (d * 2 ^ 23 + m) / 2 ^ 23 = d + 1 := by omega
      have f : (d * 2 ^ 23 + m) % 2 ^ 23 = m - 2 ^ 23 := by omega
      simp only [F32.unitsOfMag, e, f, Nat.add_sub_cancel, Nat.add_one_ne_zero, if_false]
      rw [Nat.add_sub_cancel' hge]
    · have hm : m = 2 ^ 24 := by omega
      have e : (d * 2 ^ 23 + m) / 2 ^ 23 = d + 1 + 1 := by omega
      have f : (d * 2 ^ 23 + m) % 2 ^ 23 = 0 := by omega
      simp only [F32.unitsOfMag, e, f, Nat.add_sub_cancel, Nat.add_one_ne_zero, if_false]
      rw [Nat.pow_succ 2 d, Nat.mul_comm (2 ^ d), ← Nat.mul_assoc, hm,
        show (2 ^ 23 + 0) * 2 = 2 ^ 24 from rfl]

theorem F32.roundMag_le_inf (n k : Nat) : F32.roundMag n k ≤ F32.infMag := Nat.min_le_right _ _

theorem F32.roundMag_lt (n k : Nat) : F32.roundMag n k < 2 ^ 31 :=
  Nat.lt_of_le_of_lt (F32.roundMag_le_inf n k) (by decide)

/-- The exact magnitude of a rounded value that did not overflow. -/
theorem F32.unitsOfMag_roundMag {n k : Nat} (h : F32.roundMag n k < F32.infMag) :
    F32.unitsOfMag (F32.roundMag n k) =
      F32.roundShift n (F32.dropBits n k) * 2 ^ (F32.dropBits n k - k) := by
  rw [← F32.unitsOfMag_round]
  unfold F32.roundMag at *
  congr 1; omega

/-- A magnitude below 2^127 does not overflow. -/
theorem F32.roundMag_lt_inf {n k e : Nat} (he : e ≤ 276 + k) (h : n < 2 ^ e) :
    F32.roundMag n k < F32.infMag := by
  have hs : F32.dropBits n k ≤ 252 + k := by
    rcases Nat.eq_zero_or_pos n with rfl | hn
    · simp [F32.dropBits]
    · have : Nat.log2 n < 276 + k := Nat.lt_of_lt_of_le ((Nat.log2_lt (by omega)).2 h) he
      unfold F32.dropBits; omega
  have hle := F32.roundShift_dropBits_le n k
  unfold F32.roundMag
  apply Nat.lt_of_le_of_lt (Nat.min_le_left _ _)
  have : (F32.dropBits n k - k) * 2 ^ 23 ≤ 252 * 2 ^ 23 := Nat.mul_le_mul_right _ (by omega)
  simp only [F32.infMag]
  omega

/-- A magnitude of at most 24 significant bits in whole units is kept exactly. -/
theorem F32.unitsOfMag_roundMag_exact {m e : Nat} (hm : m < 2 ^ 24) (he : e ≤ 252) :
    F32.unitsOfMag (F32.roundMag (m * 2 ^ e) 0) = m * 2 ^ e := by
  have hlt : F32.roundMag (m * 2 ^ e) 0 < F32.infMag := by
    refine F32.roundMag_lt_inf (e := 24 + e) (by omega) ?_
    rw [Nat.pow_add]; exact Nat.mul_lt_mul_of_pos_right hm (Nat.two_pow_pos e)
  rw [F32.unitsOfMag_roundMag hlt, Nat.sub_zero]
  have hs : F32.dropBits (m * 2 ^ e) 0 ≤ e := by
    rcases Nat.eq_zero_or_pos m with rfl | hm0
    · simp [F32.dropBits]
    · have hp := Nat.two_pow_pos e
      have : Nat.log2 (m * 2 ^ e) < 24 + e := by
        refine (Nat.log2_lt (Nat.mul_pos hm0 hp).ne').2 ?_
        rw [Nat.pow_add]; exact Nat.mul_lt_mul_of_pos_right hm hp
      unfold F32.dropBits; omega
  generalize F32.dropBits (m * 2 ^ e) 0 = sh at hs
  obtain ⟨d, rfl⟩ := Nat.exists_eq_add_of_le hs
  have hmod : m * 2 ^ (sh + d) % 2 ^ sh = 0 := by
    rw [Nat.pow_add, Nat.mul_comm (2 ^ sh), ← Nat.mul_assoc]; exact Nat.mul_mod_left _ _
  have hdiv : m * 2 ^ (sh + d) / 2 ^ sh * 2 ^ sh = m * 2 ^ (sh + d) :=
    Nat.div_mul_cancel (Nat.dvd_of_mod_eq_zero hmod)
  unfold F32.roundShift
  rw [hmod, if_neg (by have := Nat.two_pow_pos sh; omega), hdiv]

/-- Rounding moves a magnitude by at most one part in 2^24, or not at all below 2^24 units. -/
theorem F32.roundMag_error {n e : Nat} (he : e ≤ 276) (h : n < 2 ^ e) :
    2 ^ 24 * n ≤ 2 ^ 24 * F32.unitsOfMag (F32.roundMag n 0) + n ∧
      2 ^ 24 * F32.unitsOfMag (F32.roundMag n 0) ≤ 2 ^ 24 * n + n := by
  rw [F32.unitsOfMag_roundMag (F32.roundMag_lt_inf he h), Nat.sub_zero]
  have hb := F32.roundShift_bounds n (F32.dropBits n 0)
  rcases Nat.eq_zero_or_pos (F32.dropBits n 0) with h0 | h0
  · rw [h0, F32.roundShift_zero]; omega
  · have hn : n ≠ 0 := by rintro rfl; simp [F32.dropBits] at h0
    have h1 : 2 ^ Nat.log2 n ≤ n := Nat.log2_self_le hn
    have h2 : Nat.log2 n = 23 + F32.dropBits n 0 := by unfold F32.dropBits at *; omega
    rw [h2, Nat.pow_add] at h1
    omega

theorem F32.sqrtBits_spec (fuel n r : Nat) (h1 : r * r ≤ n) (h2 : n < (r + 2 ^ fuel) * (r + 2 ^ fuel)) :
    F32.sqrtBits fuel n r * F32.sqrtBits fuel n r ≤ n ∧
      n < (F32.sqrtBits fuel n r + 1) * (F32.sqrtBits fuel n r + 1) := by
  induction fuel generalizing r with
  | zero => simpa [F32.sqrtBits] using ⟨h1, h2⟩
  | succ k ih =>
    rw [F32.sqrtBits]
    split
    · rename_i h
      refine ih _ h ?_
      rwa [show r + 2 ^ k + 2 ^ k = r + 2 ^ (k + 1) by rw [Nat.pow_succ]; omega]
    · rename_i h
      exact ih _ h1 (by omega)

/-- `isqrt` is the square root rounded down. -/
theorem F32.isqrt_spec (n : Nat) :
    F32.isqrt n * F32.isqrt n ≤ n ∧ n < (F32.isqrt n + 1) * (F32.isqrt n + 1) := by
  refine F32.sqrtBits_spec _ n 0 (Nat.zero_le _) ?_
  rw [Nat.zero_add, ← Nat.pow_add]
  exact Nat.lt_of_lt_of_le Nat.lt_log2_self (Nat.pow_le_pow_right (by decide) (by omega))

end Sys2Proof
end

