-- ==== Sys2Proof/Laws/KernelWitness.lean ====
section
/-! SUPPORT. Kernels with the accuracy properties of spec/41_kernels.md exist: the opaque kernels of
Config.lean are therefore well formed. The witness is a Taylor series on rationals, rounded to
binary32; nothing in the model depends on which kernels these are. -/

namespace Sys2Proof.KernelWitness

/-- A rational brought to binary32: cut to whole units of 2^-149, then rounded. -/
def ofRat (q : ℚ) : F32 := F32.pack (decide (q < 0)) (F32.roundMag ⌊|q| * 2 ^ 149⌋₊ 0)

theorem ofRat_error (q : ℚ) (h : |q| ≤ 2 ^ 100) :
    F32.isFinite (ofRat q) = true ∧ |F32.value (ofRat q) - q| ≤ |q| / 2 ^ 24 + 1 / 2 ^ 149 := by
  have hD : (0 : ℚ) < 2 ^ 149 := by positivity
  have h0 : 0 ≤ |q| * 2 ^ 149 := by positivity
  have hfl := Nat.floor_le h0
  have hfu := Nat.lt_floor_add_one (|q| * 2 ^ 149)
  have hn : ⌊|q| * 2 ^ 149⌋₊ < 2 ^ 250 := by
    have : (⌊|q| * 2 ^ 149⌋₊ : ℚ) < (2 ^ 250 : ℕ) := by
      refine lt_of_le_of_lt hfl ?_
      push_cast
      calc |q| * 2 ^ 149 ≤ 2 ^ 100 * 2 ^ 149 := by gcongr
        _ < 2 ^ 250 := by norm_num
    exact_mod_cast this
  unfold ofRat
  generalize ⌊|q| * 2 ^ 149⌋₊ = n at *
  have herr := F32.roundMag_error (e := 250) (by decide) hn
  have hlt := F32.roundMag_lt_inf (k := 0) (e := 250) (by decide) hn
  have hlt31 := F32.roundMag_lt n 0
  refine ⟨(F32.isFinite_iff _).2 (by rwa [F32.pack_mag hlt31]), ?_⟩
  have hval : F32.value (F32.pack (decide (q < 0)) (F32.roundMag n 0)) - q =
      (if q < 0 then -1 else 1) * ((F32.unitsOfMag (F32.roundMag n 0) : ℚ) / 2 ^ 149 - |q|) := by
    rw [F32.value, F32.units_pack hlt31]
    by_cases hq : q < 0
    · simp only [hq, decide_true, if_true, abs_of_neg hq]; push_cast; ring
    · simp only [hq, decide_false, Bool.false_eq_true, if_false, abs_of_nonneg (not_lt.1 hq)]
      push_cast; ring
  rw [hval, abs_mul, show |(if q < 0 then (-1 : ℚ) else 1)| = 1 by split <;> simp, one_mul]
  generalize F32.unitsOfMag (F32.roundMag n 0) = u at *
  have e1 : (2 : ℚ) ^ 24 * n ≤ 2 ^ 24 * u + n := by exact_mod_cast herr.1
  have e2 : (2 : ℚ) ^ 24 * u ≤ 2 ^ 24 * n + n := by exact_mod_cast herr.2
  generalize |q| = a at *
  obtain ⟨t, rfl⟩ : ∃ t, a = t / 2 ^ 149 := ⟨a * 2 ^ 149, by field_simp⟩
  rw [div_mul_cancel₀ _ hD.ne'] at *
  rw [← sub_div, abs_div, abs_of_pos hD, div_right_comm, ← add_div]
  refine (div_le_div_iff_of_pos_right hD).2 (abs_le.2 ⟨?_, ?_⟩)
  · linarith
  · linarith

/-- The real form of the rounding error. -/
theorem ofRat_within {q : ℚ} {r eps : ℝ} (h : |q| ≤ 2 ^ 100)
    (he : |(q : ℝ) - r| + (|(q : ℝ)| / 2 ^ 24 + 1 / 2 ^ 149) ≤ eps) : F32.Within (ofRat q) r eps := by
  obtain ⟨hf, hv⟩ := ofRat_error q h
  refine ⟨hf, le_trans ?_ he⟩
  have hv' : |((F32.value (ofRat q) : ℚ) : ℝ) - q| ≤ |(q : ℝ)| / 2 ^ 24 + 1 / 2 ^ 149 := by
    have := (Rat.cast_le (K := ℝ)).2 hv
    push_cast [Rat.cast_abs] at this
    exact this
  calc |((F32.value (ofRat q) : ℚ) : ℝ) - r|
      = |(((F32.value (ofRat q) : ℚ) : ℝ) - q) + (q - r)| := by ring_nf
    _ ≤ _ := abs_add_le _ _
    _ ≤ _ := by linarith

/-! ### Sine and cosine -/

/-- Term `m` of the series of exp(iq): its real and imaginary parts. -/
def expTerm (q : ℚ) : ℕ → ℚ × ℚ
  | 0 => (1, 0)
  | m + 1 => (-(expTerm q m).2 * q / (m + 1), (expTerm q m).1 * q / (m + 1))

/-- The sum of the first `n` terms. -/
def expSum (q : ℚ) : ℕ → ℚ × ℚ
  | 0 => (0, 0)
  | n + 1 => ((expSum q n).1 + (expTerm q n).1, (expSum q n).2 + (expTerm q n).2)

theorem expTerm_eq (q : ℚ) (m : ℕ) :
    (((expTerm q m).1 : ℂ) + (expTerm q m).2 * Complex.I) = ((q : ℂ) * Complex.I) ^ m / m.factorial := by
  induction m with
  | zero => simp [expTerm]
  | succ m ih =>
    have hm : ((m : ℂ) + 1) ≠ 0 := by exact_mod_cast Nat.succ_ne_zero m
    have hf : (m.factorial : ℂ) ≠ 0 := by exact_mod_cast m.factorial_ne_zero
    rw [pow_succ, Nat.factorial_succ]
    have : ((q : ℂ) * Complex.I) ^ m * (q * Complex.I) / (((m + 1) * m.factorial : ℕ) : ℂ)
        = (((q : ℂ) * Complex.I) ^ m / m.factorial) * (q * Complex.I) / (m + 1) := by
      push_cast; field_simp
    rw [this, ← ih]
    simp only [expTerm]
    push_cast
    field_simp
    linear_combination (-(q : ℂ) * (expTerm q m).2) * Complex.I_sq

theorem expSum_eq (q : ℚ) (n : ℕ) :
    (((expSum q n).1 : ℂ) + (expSum q n).2 * Complex.I) =
      ∑ m ∈ Finset.range n, ((q : ℂ) * Complex.I) ^ m / m.factorial := by
  induction n with
  | zero => simp [expSum]
  | succ n ih =>
    rw [Finset.sum_range_succ, ← ih, ← expTerm_eq]
    simp only [expSum]; push_cast; ring

theorem expSum_error {q : ℚ} (h0 : 0 ≤ q) (h7 : q ≤ 7) :
    |((expSum q 50).2 : ℝ) - Real.sin q| ≤ 1 / 10 ^ 8 ∧
      |((expSum q 50).1 : ℝ) - Real.cos q| ≤ 1 / 10 ^ 8 := by
  have hq : ‖(q : ℂ) * Complex.I‖ = q := by
    rw [norm_mul, Complex.norm_I, mul_one]
    have : ‖((q : ℝ) : ℂ)‖ = |(q : ℝ)| := Complex.norm_real _
    rw [← Complex.ofReal_ratCast, this, abs_of_nonneg (by exact_mod_cast h0)]
  have h7' : (q : ℝ) ≤ 7 := by exact_mod_cast h7
  have h0' : (0 : ℝ) ≤ q := by exact_mod_cast h0
  have hb := Complex.exp_bound' (x := (q : ℂ) * Complex.I) (n := 50)
    (by rw [hq]; push_cast; rw [div_le_iff₀ (by positivity)]; linarith)
  rw [hq, ← expSum_eq, ← Complex.ofReal_ratCast q, Complex.exp_mul_I] at hb
  have hpow : (q : ℝ) ^ 50 / (Nat.factorial 50 : ℝ) * 2 ≤ 1 / 10 ^ 8 := by
    have : (q : ℝ) ^ 50 ≤ 7 ^ 50 := pow_le_pow_left₀ h0' h7' 50
    calc (q : ℝ) ^ 50 / (Nat.factorial 50 : ℝ) * 2 ≤ 7 ^ 50 / (Nat.factorial 50 : ℝ) * 2 := by gcongr
      _ ≤ 1 / 10 ^ 8 := by norm_num [Nat.factorial]
  have hle := le_trans hb hpow
  have him := le_trans (Complex.abs_im_le_norm _) hle
  have hre := le_trans (Complex.abs_re_le_norm _) hle
  have e : ∀ a b c d : ℝ, ((a : ℂ) + b * Complex.I - (c + d * Complex.I)) =
      ((a - c : ℝ) : ℂ) + ((b - d : ℝ) : ℂ) * Complex.I := by intros; push_cast; ring
  rw [← Complex.ofReal_cos, ← Complex.ofReal_sin, ← Complex.ofReal_ratCast (expSum q 50).1,
    ← Complex.ofReal_ratCast (expSum q 50).2, e] at him hre
  simp only [Complex.add_im, Complex.ofReal_im, Complex.mul_im, Complex.ofReal_re, Complex.I_im,
    Complex.I_re, mul_one, mul_zero, add_zero, zero_add] at him
  simp only [Complex.add_re, Complex.ofReal_im, Complex.mul_re, Complex.ofReal_re, Complex.I_im,
    Complex.I_re, mul_one, mul_zero, add_zero, sub_zero] at hre
  exact ⟨by rwa [abs_sub_comm] at him, by rwa [abs_sub_comm] at hre⟩

theorem ofRat_within_unit {q : ℚ} {r : ℝ} (hr : |r| ≤ 1) (h : |(q : ℝ) - r| ≤ 1 / 10 ^ 8) :
    F32.Within (ofRat q) r (1 / 10 ^ 6) := by
  have hq : |(q : ℝ)| ≤ 2 := by
    have := abs_add_le ((q : ℝ) - r) r
    rw [sub_add_cancel] at this
    linarith [show (1 : ℝ) / 10 ^ 8 ≤ 1 by norm_num]
  refine ofRat_within ?_ ?_
  · have : |q| ≤ 2 := by exact_mod_cast hq
    exact this.trans (by norm_num)
  · have : |(q : ℝ)| / 2 ^ 24 ≤ 2 / 2 ^ 24 := by gcongr
    have c : (1 : ℝ) / 10 ^ 8 + (2 / 2 ^ 24 + 1 / 2 ^ 149) ≤ 1 / 10 ^ 6 := by norm_num
    linarith

theorem trig_range {x : F32} (h : F32.TrigDomain x) : 0 ≤ F32.value x ∧ F32.value x ≤ 7 := by
  obtain ⟨hs, -, hlt⟩ := h
  constructor
  · simp only [F32.value, F32.units, hs, Bool.false_eq_true, if_false]; positivity
  · have : ((F32.value x : ℚ) : ℝ) ≤ 7 := by linarith [Real.pi_lt_d2]
    exact_mod_cast this

/-! ### Logarithm -/

/-- The sum of t^(i+1)/(i+1) for i below n: the negated logarithm of 1 - t. -/
def logSum (t : ℚ) : ℕ → ℚ
  | 0 => 0
  | n + 1 => logSum t n + t ^ (n + 1) / (n + 1)

theorem logSum_eq (t : ℚ) (n : ℕ) :
    ((logSum t n : ℚ) : ℝ) = ∑ i ∈ Finset.range n, (t : ℝ) ^ (i + 1) / (i + 1) := by
  induction n with
  | zero => simp [logSum]
  | succ n ih => rw [Finset.sum_range_succ, ← ih]; simp [logSum]

/-- The logarithm of `u` units of 2^-149, with u = y * 2^(log2 u + 1) and y in [1/2, 1). -/
def logRat (u : ℕ) : ℚ :=
  -(logSum (1 - (u : ℚ) / 2 ^ (Nat.log2 u + 1)) 40) - (148 - Nat.log2 u : ℕ) * (287209 / 414355)

def logWitness (x : F32) : F32 :=
  if F32.unitsOfMag (F32.mag x) = 2 ^ 149 then 0 else ofRat (logRat (F32.unitsOfMag (F32.mag x)))

theorem logRat_error {u : ℕ} (h0 : 0 < u) (h1 : u < 2 ^ 149) :
    |((logRat u : ℚ) : ℝ) - Real.log ((u : ℝ) / 2 ^ 149)| ≤
        1 / 10 ^ 8 * |Real.log ((u : ℝ) / 2 ^ 149)| ∧
      |Real.log ((u : ℝ) / 2 ^ 149)| ≤ 200 := by
  have hL : Nat.log2 u ≤ 148 := by
    have := (Nat.log2_lt h0.ne').2 h1
    omega
  have hlo : 2 ^ Nat.log2 u ≤ u := Nat.log2_self_le h0.ne'
  have hhi : u < 2 ^ (Nat.log2 u + 1) := Nat.lt_log2_self
  unfold logRat
  obtain ⟨k, hk⟩ : ∃ k, k = 148 - Nat.log2 u := ⟨_, rfl⟩
  have hkL : k + (Nat.log2 u + 1) = 149 := by omega
  rw [← hk]
  have hk148 : (k : ℝ) ≤ 148 := by exact_mod_cast (by omega : k ≤ 148)
  have hp : (0 : ℝ) < 2 ^ (Nat.log2 u + 1) := by positivity
  obtain ⟨y, hy⟩ : ∃ y : ℝ, y = (u : ℝ) / 2 ^ (Nat.log2 u + 1) := ⟨_, rfl⟩
  have hy1 : 1 / 2 ≤ y := by
    rw [hy, le_div_iff₀ hp, pow_succ]
    have : ((2 ^ Nat.log2 u : ℕ) : ℝ) ≤ u := by exact_mod_cast hlo
    push_cast at this; linarith
  have hy2 : y < 1 := by
    rw [hy, div_lt_one hp]
    exact_mod_cast hhi
  have hdecomp : (u : ℝ) / 2 ^ 149 = y * (2 ^ k)⁻¹ := by
    rw [hy, ← hkL, pow_add]; field_simp
  have hlog : Real.log ((u : ℝ) / 2 ^ 149) = Real.log y - k * Real.log 2 := by
    rw [hdecomp, Real.log_mul (by linarith) (by positivity), Real.log_inv, Real.log_pow]; ring
  have ht : ((1 - (u : ℚ) / 2 ^ (Nat.log2 u + 1) : ℚ) : ℝ) = 1 - y := by rw [hy]; push_cast; ring
  have hser := Real.abs_log_sub_add_sum_range_le (x := 1 - y) (by rw [abs_of_nonneg] <;> linarith) 40
  rw [← ht, ← logSum_eq, ht, show (1 : ℝ) - (1 - y) = y by ring,
    abs_of_nonneg (by linarith : (0 : ℝ) ≤ 1 - y), show (1 : ℝ) - (1 - y) = y by ring] at hser
  have htail : (1 - y) ^ (40 + 1) / y ≤ (1 - y) / 10 ^ 10 := by
    have hpw : (1 - y) ^ 40 ≤ (1 / 2) ^ 40 := pow_le_pow_left₀ (by linarith) (by linarith) 40
    rw [div_le_div_iff₀ (by linarith) (by positivity), pow_succ]
    have h3 : (1 - y) ^ 40 * 10 ^ 10 ≤ y := by
      have : ((1 : ℝ) / 2) ^ 40 * 10 ^ 10 ≤ 1 / 2 := by norm_num
      nlinarith
    nlinarith
  have hlogy : Real.log y ≤ -(1 - y) := by linarith [Real.log_le_sub_one_of_pos (by linarith : 0 < y)]
  have hlogy1 : -1 ≤ Real.log y := by
    have := Real.one_sub_inv_le_log_of_pos (by linarith : 0 < y)
    have : y⁻¹ ≤ 2 := by rw [inv_le_comm₀ (by linarith) (by norm_num)]; linarith
    linarith
  have hln2 := Real.log_two_near_10
  have hln2lo : (0.69 : ℝ) ≤ Real.log 2 := by linarith [Real.log_two_gt_d9]
  have hln2hi : Real.log 2 ≤ 1 := by linarith [Real.log_two_lt_d9]
  have hk0 : (0 : ℝ) ≤ k := by positivity
  have hneg : Real.log ((u : ℝ) / 2 ^ 149) ≤ 0 := by rw [hlog]; nlinarith
  rw [abs_of_nonpos hneg, hlog]
  have hs := abs_le.1 (hser.trans htail)
  have h2 := abs_le.1 hln2
  push_cast
  constructor
  · rw [abs_le]
    constructor <;> nlinarith
  · nlinarith

/-- A binary32 below 1 is below it by at least 2^-24. -/
theorem unitsOfMag_lt_one {m : ℕ} (h : F32.unitsOfMag m < 2 ^ 149) :
    F32.unitsOfMag m ≤ 2 ^ 149 - 2 ^ 125 := by
  unfold F32.unitsOfMag at *
  split at h
  · rename_i h0
    rw [if_pos h0]
    have : m < 2 ^ 23 := by omega
    have : (2 : ℕ) ^ 23 ≤ 2 ^ 149 - 2 ^ 125 := by norm_num
    omega
  · rename_i h0
    rw [if_neg h0]
    generalize m / 2 ^ 23 - 1 = e at *
    have hf : m % 2 ^ 23 < 2 ^ 23 := Nat.mod_lt _ (by decide)
    have he : e < 126 := by
      by_contra hge
      have : 2 ^ 23 * 2 ^ 126 ≤ (2 ^ 23 + m % 2 ^ 23) * 2 ^ e :=
        Nat.mul_le_mul (Nat.le_add_right _ _) (Nat.pow_le_pow_right (by decide) (by omega))
      norm_num at this h ⊢; omega
    calc (2 ^ 23 + m % 2 ^ 23) * 2 ^ e ≤ (2 ^ 24 - 1) * 2 ^ 125 :=
          Nat.mul_le_mul (by omega) (Nat.pow_le_pow_right (by decide) (by omega))
      _ = 2 ^ 149 - 2 ^ 125 := by norm_num

theorem logWitness_accurate (x : F32) (h : F32.LogDomain x) :
    F32.Within (logWitness x) (Real.log (F32.value x : ℚ))
      (1 / 10 ^ 6 * |Real.log (F32.value x : ℚ)|) := by
  obtain ⟨-, hpos, hle⟩ := h
  have hs : F32.isNeg x = false := by
    by_contra hne
    rw [Bool.not_eq_false] at hne
    have : F32.value x ≤ 0 := by
      simp only [F32.value, F32.units, hne, if_true]
      have : (0 : ℚ) ≤ (F32.unitsOfMag (F32.mag x) : ℚ) / 2 ^ 149 := by positivity
      push_cast; rw [neg_div]; linarith
    linarith
  have hv : F32.value x = (F32.unitsOfMag (F32.mag x) : ℚ) / 2 ^ 149 := by
    simp [F32.value, F32.units, hs]
  have hvR : ((F32.value x : ℚ) : ℝ) = (F32.unitsOfMag (F32.mag x) : ℝ) / 2 ^ 149 := by
    rw [hv]; push_cast; ring
  rw [hvR]
  rw [hv] at hpos hle
  unfold logWitness
  have hle' := @unitsOfMag_lt_one (F32.mag x)
  generalize F32.unitsOfMag (F32.mag x) = u at *
  have hD : (0 : ℚ) < 2 ^ 149 := by positivity
  have hu0 : 0 < u := by
    have := (div_pos_iff_of_pos_right hD).1 hpos
    exact_mod_cast this
  have hu1 : u ≤ 2 ^ 149 := by
    have := (div_le_one hD).1 hle
    exact_mod_cast this
  split
  · rename_i h1
    subst h1
    have h2 : ((2 ^ 149 : ℕ) : ℝ) / 2 ^ 149 = 1 := by norm_num
    rw [h2, Real.log_one]
    refine ⟨by decide, ?_⟩
    have : F32.value 0 = 0 := by simp [F32.value, F32.units, F32.isNeg, F32.mag, F32.unitsOfMag]
    rw [this]; simp
  · rename_i h1
    have hlt : u < 2 ^ 149 := lt_of_le_of_ne hu1 h1
    obtain ⟨he, hb⟩ := logRat_error hu0 hlt
    have hgap : (1 : ℝ) / 2 ^ 24 ≤ |Real.log ((u : ℝ) / 2 ^ 149)| := by
      have hu : (u : ℝ) ≤ 2 ^ 149 - 2 ^ 125 := by
        have : ((u : ℕ) : ℝ) ≤ ((2 ^ 149 - 2 ^ 125 : ℕ) : ℝ) := by exact_mod_cast hle' hlt
        rw [Nat.cast_sub (by norm_num)] at this
        linarith [show ((2 ^ 149 : ℕ) : ℝ) = 2 ^ 149 by norm_num,
          show ((2 ^ 125 : ℕ) : ℝ) = 2 ^ 125 by norm_num]
      have hl := Real.log_le_sub_one_of_pos (x := (u : ℝ) / 2 ^ 149) (by positivity)
      have : (u : ℝ) / 2 ^ 149 ≤ 1 - 1 / 2 ^ 24 := by
        rw [div_le_iff₀ (by positivity)]; norm_num at hu ⊢; linarith
      rw [abs_of_nonpos (by linarith [show (0 : ℝ) < 1 / 2 ^ 24 by norm_num])]; linarith
    generalize Real.log ((u : ℝ) / 2 ^ 149) = r at *
    have hq : |((logRat u : ℚ) : ℝ)| ≤ 2 * |r| := by
      have := abs_add_le (((logRat u : ℚ) : ℝ) - r) r
      rw [sub_add_cancel] at this
      have := abs_nonneg r
      linarith
    refine ofRat_within ?_ ?_
    · have : |((logRat u : ℚ) : ℝ)| ≤ 400 := by linarith
      have : |logRat u| ≤ 400 := by exact_mod_cast this
      exact this.trans (by norm_num)
    · have h3 : |((logRat u : ℚ) : ℝ)| / 2 ^ 24 ≤ 2 * |r| / 2 ^ 24 := by gcongr
      have h4 : (1 : ℝ) / 2 ^ 149 ≤ |r| / 2 ^ 100 := by
        rw [le_div_iff₀ (by positivity)]
        refine le_trans ?_ hgap
        norm_num
      have : |r| / 2 ^ 100 ≤ |r| / 10 ^ 8 := by
        have := abs_nonneg r
        gcongr
        norm_num
      have := abs_nonneg r
      have c : 2 * |r| / 2 ^ 24 ≤ |r| * (2 / 10 ^ 7) := by
        rw [div_le_iff₀ (by positivity)]; norm_num; linarith
      linarith

/-! ### The witness -/

def fns : KernelFns where
  log := logWitness
  sin x := ofRat (expSum (F32.value x) 50).2
  sincos x := (ofRat (expSum (F32.value x) 50).2, ofRat (expSum (F32.value x) 50).1)

theorem fns_admissible : fns.Admissible where
  log_accurate := logWitness_accurate
  sin_accurate _ hx := ofRat_within_unit (Real.abs_sin_le_one _)
    (expSum_error (trig_range hx).1 (trig_range hx).2).1
  sincos_sin_accurate _ hx := ofRat_within_unit (Real.abs_sin_le_one _)
    (expSum_error (trig_range hx).1 (trig_range hx).2).1
  sincos_cos_accurate _ hx := ofRat_within_unit (Real.abs_cos_le_one _)
    (expSum_error (trig_range hx).1 (trig_range hx).2).2

/-- Admissible kernels exist. -/
def kernels : AdmissibleKernels := ⟨fns, fns_admissible⟩

end Sys2Proof.KernelWitness
end

