-- ==== Sys2Proof/Config.lean ====
section
/-! DEFINITION. What a build fixes (spec/00_scope.md R8, R9) and the free values: the parameters of
this hardware (REF), the kernels of the build, the NaN a fixed operation returns, and the value of a
batch register no command has written. The platform's admission predicate is a field of State, and
so is the window's address, which is BASE from reset on (log entries 8 and 9). -/

namespace Sys2Proof

/-- The parameters of rule R8. -/
structure Config where
  /-- `LANES`: lanes per batch. -/
  lanes : Nat
  /-- `HALF`: lanes per underlying vector register. -/
  half : Nat
  /-- `BLOCK`: elements FILL writes per iteration. -/
  block : Nat
  /-- `NVREG`: number of batch registers. -/
  nvreg : Nat
  /-- `ALIGN`: byte alignment of every memory access. -/
  align : Nat
  /-- `XLEN_ADDR`: width of ADDR, COUNT and memory addresses. -/
  addrBits : Nat
  /-- The revision of the command set (R2, R31). -/
  revision : Nat
  /-- `LCG_A`. -/
  lcgA : Word
  /-- `LCG_C`. -/
  lcgC : Word
  /-- `SEED0`: SEED at reset. -/
  seed0 : Word
  /-- `STRIDE`: seed distance between lanes. -/
  stride : Word
  /-- `TWO_PI_F32`. -/
  twoPi : F32
  /-- `BASE`: the platform address of the register window (R26). -/
  base : DWord
  /-- `LOG`, `SIN`, `SINCOS` (R120). -/
  kernels : KernelFns

/-- A well-formed configuration: lane seeds are distinct (R105) and the kernels are accurate (R121,
R123, R124). -/
def Config.WellFormed (c : Config) : Prop :=
  c.stride.toNat % 2 ^ 29 ≠ 0 ∧ c.kernels.Admissible

/-- FREE VALUE (log entry 1): the kernels of the build. Nothing is known of them but their
accuracy. The bracketed argument only says that such kernels exist. -/
opaque Config.freeKernels [Inhabited AdmissibleKernels] : AdmissibleKernels

/-- The fixed floating-point operations of the core (R127). -/
inductive FpOp where
  | sub
  | mul
  | sqrt
  deriving DecidableEq, Repr

/-- FREE VALUE (log entry 2): the sign and the fraction (less one) of the NaN that an operation
returns on these operands (R127, spec/93_implementation_defined.md I5; DEDUCED that nothing else
enters). -/
opaque Config.freeNaN : FpOp → F32 → F32 → Bool × Fin 8388607

/-- FREE VALUE (log entry 3): what a lane of a batch register holds after the reset with this
number, while no command has written the register (R23, I1). -/
opaque Config.unwrittenLane : (epoch : Nat) → VReg → Lane → F32

/-- This hardware: REF (R8, R19) with the kernels left free, and `BASE`, which the spec leaves open,
near the top of the address space (DESIGN CHOICE, log entry 8). -/
def Config.this : Config where
  lanes := 8
  half := 4
  block := 16
  nvreg := 8
  align := 32
  addrBits := 64
  revision := 1
  lcgA := 1664525
  lcgC := 1013904223
  seed0 := 1
  stride := 0x9E3779B9
  twoPi := 0x40C90FDB
  base := 0xFFFFFFFFFFFF0000
  kernels := (@Config.freeKernels ⟨KernelWitness.kernels⟩).val

end Sys2Proof
end

