-- ==== Sys2Proof/Machine/FloatOps.lean ====
section
/-! DEFINITION. The fixed floating-point operations `fsub`, `fmul` and `fsqrt` (spec/00_scope.md R15,
spec/41_kernels.md R127, R128): the exact result, rounded once to nearest, ties to even; subnormals
kept; no flags and no traps. A NaN result is a free value among the NaN encodings. -/

namespace Sys2Proof

def F32.posZero : F32 := 0x00000000
def F32.negZero : F32 := 0x80000000
/-- 1.0. -/
def F32.one : F32 := 0x3F800000
/-- −2.0. -/
def F32.negTwo : F32 := 0xC0000000

/-- A NaN: any of the encodings, which one being free (R127; log entry 2). -/
def F32.nanResult (op : FpOp) (a b : F32) : F32 :=
  F32.pack (Config.freeNaN op a b).1 (F32.infMag + 1 + (Config.freeNaN op a b).2.val)

/-- The sign of an exact zero difference: −0 only for (−0) − (+0), otherwise +0 (R127,
"x − x = +0"). -/
def F32.zeroDifference (a b : F32) : F32 :=
  if F32.isNeg a && !F32.isNeg b then F32.negZero else F32.posZero

/-- The difference of two finite values: exact on units of 2^-149, then rounded. -/
def F32.subFinite (a b : F32) : F32 :=
  if F32.units a = F32.units b then F32.zeroDifference a b
  else
    F32.pack (decide (F32.units a < F32.units b))
      (F32.roundMag (F32.units a - F32.units b).natAbs 0)

/-- IEEE-754 binary32 subtraction. -/
def F32.fsub (a b : F32) : F32 :=
  if F32.isNaN a || F32.isNaN b then F32.nanResult .sub a b
  else if F32.isInf a then
    if F32.isInf b && F32.isNeg a == F32.isNeg b then F32.nanResult .sub a b else a
  else if F32.isInf b then F32.pack (!F32.isNeg b) F32.infMag
  else F32.subFinite a b

/-- The product of two finite values: exact in units of 2^-298, then rounded; the sign is the XOR of
the signs, also of a zero. -/
def F32.mulFinite (a b : F32) : F32 :=
  F32.pack (F32.isNeg a != F32.isNeg b) (F32.roundMag (F32.units a * F32.units b).natAbs 149)

/-- IEEE-754 binary32 multiplication. -/
def F32.fmul (a b : F32) : F32 :=
  if F32.isNaN a || F32.isNaN b then F32.nanResult .mul a b
  else if F32.isInf a || F32.isInf b then
    if F32.isZero a || F32.isZero b then F32.nanResult .mul a b
    else F32.pack (F32.isNeg a != F32.isNeg b) F32.infMag
  else F32.mulFinite a b

/-- The radicand that turns a square root of `n` units of 2^-149 into an integer square root: with
`n * 2^149` units of 2^-298 the root is in units of 2^-149. -/
def F32.radicand (x : F32) : Nat := (F32.units x).natAbs * 2 ^ 149

/-- The root of a positive finite value: the integer root, one more bit that says whether anything
was lost, then one rounding. The root has 75 bits or more, so the extra bit stands below every
rounding position. -/
def F32.sqrtFinite (x : F32) : F32 :=
  F32.pack false
    (F32.roundMag
      (2 * F32.isqrt (F32.radicand x) +
        (if F32.isqrt (F32.radicand x) * F32.isqrt (F32.radicand x) = F32.radicand x then 0 else 1))
      1)

/-- IEEE-754 binary32 square root. -/
def F32.fsqrt (x : F32) : F32 :=
  if F32.isNaN x then F32.nanResult .sqrt x x
  else if F32.isZero x then x
  else if F32.isNeg x then F32.nanResult .sqrt x x
  else if F32.isInf x then x
  else F32.sqrtFinite x

end Sys2Proof
end

