-- ==== Sys2Proof/Machine/Lcg.lean ====
section
/-! DEFINITION. The functions of the Uniform Lane Generator (spec/40_generator.md R100, R101, R104):
pure, on lane states. -/

namespace Sys2Proof

/-- R100: the lane step, mod 2^32. -/
def lcgStep (c : Config) (s : Word) : Word := s * c.lcgA + c.lcgC

/-- R101: the top 23 bits of a lane state as a fraction in [0, 1). -/
def toUniform (s : Word) : F32 := F32.fsub (0x3F800000 ||| (s >>> 9)) F32.one

/-- R104: the lane seeds `seed + i * STRIDE`, mod 2^32. -/
def seedSequence (c : Config) (seed : Word) : Lanes Word :=
  Lanes.of fun i => seed + BitVec.ofNat 32 i.val * c.stride

/-- Every lane advanced by one step (R102). -/
def stepLanes (c : Config) (g : Lanes Word) : Lanes Word := Lanes.of fun i => lcgStep c g[i]

/-- The uniform value of every lane state (R102). -/
def uniforms (g : Lanes Word) : Batch := Lanes.of fun i => toUniform g[i]

end Sys2Proof
end

