-- ==== Sys2Proof/Machine/State.lean ====
section
/-! DEFINITION. The state of the machine as plain data: the NDB core (spec/10_state.md R38), the
Host's memory and platform (R39, spec/20_memory.md R56), the Host's pending moves
(spec/60_exceptions.md R208, R220), the outcomes of a step, and reset
(spec/70_reset_and_hazards.md R240). -/

namespace Sys2Proof.Machine

/-- The fields of STATUS (R28). The reserved bits are no field, since they always read 0. -/
structure Status where
  /-- Bit 0: a command is being executed. -/
  busy : Bool
  /-- Bit 1: the last accepted command completed without fault. -/
  done : Bool
  /-- Bit 2: a fault happened; cleared by reset only. -/
  err : Bool
  /-- Bit 3: a Host write was dropped; cleared by reset only. -/
  ovr : Bool
  /-- Bits 11:8: the fault code. -/
  code : BitVec 4
  deriving DecidableEq, Repr

/-- The faults the hardware reports in STATUS (R200). A fault is no outcome of a step but a next
state: R201 describes its entry (`raise`). -/
inductive FaultCode where
  | illegalCommand
  | nullBuffer
  | misaligned
  | badCount
  | range
  | memAccess
  deriving DecidableEq, Repr

/-- The state of the NDB core (R38). PARAMS is a constant and CMD has no storage: it reads 0 and a
write of it goes to `cur`. -/
structure Ndb where
  /-- `S[0..7]`: the generator's lane states (R24). -/
  gen : Lanes Word
  /-- `V[0..7]`: the batch registers (R22). -/
  v : Vector Batch 8
  /-- `WR[0..7]`: which batch registers a command has written since reset (R23). -/
  wr : Vector Bool 8
  /-- STATUS (R28). -/
  status : Status
  /-- ADDR (R29). -/
  addr : DWord
  /-- COUNT (R30). -/
  count : DWord
  /-- SEED, bits 31:0 (R32). -/
  seed : Word
  /-- FAULTINFO (R33). -/
  faultInfo : DWord
  /-- CUR: the command word being executed (R37). -/
  cur : Word
  /-- FILL_NB: the number of blocks of the running FILL (R37). -/
  fillNb : DWord
  /-- FILL_IDX: the number of its blocks already completed (R37). -/
  fillIdx : DWord
  deriving DecidableEq, Repr

/-- The Host's data memory: the bytes that differ from what an unlisted address reads as, at rising
addresses (R39, R50). -/
abbrev Memory := List Host.Cell

/-- A range of addresses in which the platform admits the core's accesses (R56). -/
structure Region where
  /-- The first byte address. -/
  base : Nat
  /-- The number of bytes. -/
  size : Nat
  deriving DecidableEq, Repr

/-- The registers of the window (R26). -/
inductive WinReg where
  | cmd
  | status
  | addr
  | count
  | seed
  | faultInfo
  | params
  | reserved
  deriving DecidableEq, Repr

/-- The Host's moves (R220). A window access names a whole register, so an access of another width
or alignment cannot be written down (R35). -/
inductive HostMove where
  /-- Read a register of the window. -/
  | readReg (r : WinReg)
  /-- Write a register of the window. -/
  | writeReg (r : WinReg) (w : DWord)
  /-- Read a byte of memory. -/
  | readMem (a : DWord)
  /-- Write a byte of memory. -/
  | writeMem (a : DWord) (b : Byte)
  /-- Own other memory: the ranges in which the platform admits the core from now on (R56, R243). -/
  | own (regions : List Region)
  /-- Assert reset (R241). -/
  | reset
  deriving DecidableEq, Repr

/-- Who moves next (R208: Host moves and Core steps are serialised, in any order). -/
inductive Turn where
  /-- The Core takes a step. -/
  | core
  /-- The Host waits (R79, WAIT): the Core takes steps while STATUS.BUSY = 1. -/
  | wait
  /-- The Host makes a move. -/
  | host (m : HostMove)
  deriving DecidableEq, Repr

/-- What becomes of a command that reads a batch register no command has written since reset: R204
gives an answer for a model and another for the hardware, and both are here. -/
inductive UnwrittenRule where
  /-- As on the hardware (R23): the command runs to completion on unspecified values. -/
  | runOn
  /-- As R204 asks of a model: the step stops with UNWRITTEN_READ(n). -/
  | stop
  deriving DecidableEq, Repr

/-- The whole state: the core, the Host and the platform, and what the model itself keeps. -/
structure State where
  /-- The NDB core. -/
  ndb : Ndb
  /-- The Host's data memory. -/
  mem : Memory
  /-- Where the platform put the register window (R26): from reset on, the `BASE` of the
  configuration. No step changes it. -/
  windowBase : DWord
  /-- Where the platform admits the core's accesses (R56). -/
  regions : List Region
  /-- The turns to come, the next one first; when there is none, the turn is the Core's (R208). -/
  script : List Turn
  /-- What the Host's last read returned (R220). -/
  hostData : DWord
  /-- The model's own: the number of resets so far, which selects the free values of unwritten batch
  registers (log entry 3). -/
  epoch : Nat
  /-- The model's own: UNWRITTEN_READ(n), the first read of an unwritten batch register (R204; log
  entry 4). No step depends on it. -/
  unwrittenRead : Option VReg
  /-- The model's own field (DESIGN CHOICE, log entry 4): which of R204's two answers this machine
  gives. It is the model's from reset on, and no step changes it. -/
  unwrittenRule : UnwrittenRule
  deriving DecidableEq, Repr

/-- Why a step stops with a fault. The faults of the hardware are none of these: their entry is
modelled as a next state (R201). -/
inductive Fault where
  /-- UNWRITTEN_READ(n): raised by VLOG, VSIN, VSINCOS, COMBINE and VST when a source `V[n]` is
  unwritten and the state's `unwrittenRule` is `stop`. The spec names this fault and has a model stop
  with it (R204 and R205 of spec/60_exceptions.md; the Exceptions of R130, R131, R132, R141 and R183;
  I1 of spec/93_implementation_defined.md, treatment `fault`). STATUS never shows it. Safe: the
  hardware goes on, as `runOn` does. -/
  | unwrittenRead (n : VReg)
  deriving DecidableEq, Repr

/-- Why a step is refused. Only the moves that the spec withholds from the Host are; no command
is. -/
inductive Refusal where
  /-- Raised by an arm of `exec` without a meaning. Safe; there is none. -/
  | notModelled (mnemonic : String)
  /-- Raised by a Host memory move on a byte of the running command's operand (R60, R220, R250: the
  Host has no such move). Safe. -/
  | operandInUse
  /-- Raised by a Host memory move on a byte of the register window: no whole-register access, so
  it has no meaning in the spec (R35). Safe. -/
  | windowAsMemory
  /-- Raised by a Host move that changes admission while a command runs
  (spec/93_implementation_defined.md I15: fixed for the duration of a command). Safe. -/
  | admissionWhileBusy
  deriving DecidableEq, Repr

/-- STATUS = 0 (R28). -/
def Status.reset : Status :=
  { busy := false, done := false, err := false, ovr := false, code := 0 }

/-- Eight zeros: what the model stores in a batch register at reset (DESIGN CHOICE, log entry 3). -/
def Batch.zeros : Batch := #v[0, 0, 0, 0, 0, 0, 0, 0]

/-- The core right after reset (R240): the generator is constructed from SEED0, no batch register is
written, the core is idle (R242). -/
def Ndb.reset : Ndb where
  gen := seedSequence Config.this Config.this.seed0
  v := #v[Batch.zeros, Batch.zeros, Batch.zeros, Batch.zeros,
    Batch.zeros, Batch.zeros, Batch.zeros, Batch.zeros]
  wr := #v[false, false, false, false, false, false, false, false]
  status := Status.reset
  addr := 0
  count := 0
  seed := Config.this.seed0
  faultInfo := 0
  cur := 0
  fillNb := 0
  fillIdx := 0

/-- The machine right after reset (R240). The window's address, the admitted regions and the memory
contents are the platform's (DESIGN CHOICE, log entries 7, 8, 9): the window lies at the `BASE` of
the configuration, every access outside it is admitted, and memory lists nothing. A read of an
unwritten batch register stops the model (R23, R204, R253). -/
def State.reset : State where
  ndb := Ndb.reset
  mem := []
  windowBase := Config.this.base
  regions := [{ base := 0, size := 2 ^ 64 }]
  script := []
  hostData := 0
  epoch := 0
  unwrittenRead := none
  unwrittenRule := .stop

end Sys2Proof.Machine
end

