-- ==== Sys2Proof/Machine/Flags.lean ====
section
/-! DEFINITION. STATUS (spec/10_state.md R28): its word, the fault codes (spec/60_exceptions.md
R200), and the four things that change it: an accepted command, a completion, a fault, a dropped
write. These are all the flags of the core: it has no condition codes and no floating-point flags
(spec/41_kernels.md R128). -/

namespace Sys2Proof.Machine

/-- The code a fault reports in STATUS.CODE (R200). -/
def FaultCode.code : FaultCode → BitVec 4
  | .illegalCommand => 1
  | .nullBuffer => 2
  | .misaligned => 3
  | .badCount => 4
  | .range => 5
  | .memAccess => 6

/-- The bit at position `k` of a register. -/
def bitAt (b : Bool) (k : Nat) : Nat := if b then 2 ^ k else 0

/-- STATUS as the Host reads it: bits 7:4 and 63:12 are 0 (R28). -/
def Status.word (f : Status) : DWord :=
  BitVec.ofNat 64
    (bitAt f.busy 0 + bitAt f.done 1 + bitAt f.err 2 + bitAt f.ovr 3 + f.code.toNat * 2 ^ 8)

/-- R27: an accepted CMD write sets BUSY and clears DONE. -/
def Status.accepted (f : Status) : Status := { f with busy := true, done := false }

/-- R81: completion clears BUSY and sets DONE. -/
def Status.completed (f : Status) : Status := { f with busy := false, done := true }

/-- R201: a fault sets ERR and CODE and clears BUSY and DONE. -/
def Status.faulted (f : Status) (c : FaultCode) : Status :=
  { f with busy := false, done := false, err := true, code := c.code }

/-- R36: a dropped Host write sets OVR. -/
def Status.dropped (f : Status) : Status := { f with ovr := true }

end Sys2Proof.Machine
end

