-- ==== Sys2Proof/Machine/Memory.lean ====
section
/-! DEFINITION. The Host's data memory (spec/20_memory.md R50 to R52): bytes at addresses 0 to
2^64 − 1, little-endian elements, batches with lane 0 at the lowest address; and the platform's
admission of a 32-byte access (R56). -/

namespace Sys2Proof.Machine

/-- What a byte of memory that nothing has written reads as (DESIGN CHOICE, log entry 7). -/
def Memory.unlisted : Byte := 0

/-- Listed addresses rise from `lo` on, lie in the address space, and hold something to list. -/
def Memory.wfFrom (lo : Nat) : Memory → Bool
  | [] => true
  | (k, b) :: m => decide (lo ≤ k) && decide (k < 2 ^ 64) && b != Memory.unlisted && Memory.wfFrom (k + 1) m

/-- The canonical form of memory. -/
def Memory.wf (m : Memory) : Bool := Memory.wfFrom 0 m

/-- The byte at an address. -/
def Memory.read : Memory → Nat → Byte
  | [], _ => Memory.unlisted
  | (k, b) :: m, a => if k = a then b else Memory.read m a

/-- Memory with the byte at `a` written; the canonical form is kept. -/
def Memory.write : Memory → Nat → Byte → Memory
  | [], a, b => if b = Memory.unlisted then [] else [(a, b)]
  | (k, c) :: m, a, b =>
    if a < k then (if b = Memory.unlisted then (k, c) :: m else (a, b) :: (k, c) :: m)
    else if a = k then (if b = Memory.unlisted then m else (a, b) :: m)
    else (k, c) :: Memory.write m a b

/-- Memory with consecutive bytes written from `a` on. -/
def Memory.writeBytes : Memory → Nat → List Byte → Memory
  | m, _, [] => m
  | m, a, b :: bs => Memory.writeBytes (Memory.write m a b) (a + 1) bs

/-- The bytes of a binary32 element, least significant first (R52). -/
def wordBytes (w : F32) : List Byte :=
  [w.extractLsb' 0 8, w.extractLsb' 8 8, w.extractLsb' 16 8, w.extractLsb' 24 8]

/-- The 32 bytes of a batch, lane 0 first (R52). -/
def Batch.bytes (v : Batch) : List Byte :=
  wordBytes v[0] ++ wordBytes v[1] ++ wordBytes v[2] ++ wordBytes v[3] ++
    wordBytes v[4] ++ wordBytes v[5] ++ wordBytes v[6] ++ wordBytes v[7]

/-- The element at an address (R52). -/
def Memory.readWord (m : Memory) (a : Nat) : F32 :=
  Memory.read m (a + 3) ++ Memory.read m (a + 2) ++ Memory.read m (a + 1) ++ Memory.read m a

/-- `MemRead(a, 32)` as a batch (R14, R52). -/
def Memory.readBatch (m : Memory) (a : Nat) : Batch :=
  Lanes.of fun i => Memory.readWord m (a + 4 * i.val)

/-- `MemWrite(a, 32, v)` of a batch (R14, R52). -/
def Memory.writeBatch (m : Memory) (a : Nat) (v : Batch) : Memory :=
  Memory.writeBytes m a (Batch.bytes v)

/-- Whether a byte address lies in the register window `[BASE, BASE+64)` (R26, R57). -/
def State.inWindow (s : State) (a : Nat) : Bool :=
  decide (s.windowBase.toNat ≤ a) && decide (a < s.windowBase.toNat + 64)

/-- Whether the 32 bytes from `a` overlap the register window (R56). -/
def State.overlapsWindow (s : State) (a : Nat) : Bool :=
  decide (a < s.windowBase.toNat + 64) && decide (s.windowBase.toNat < a + 32)

/-- Whether the platform admits the 32-byte access at `a` (R56): it lies in the address space and in
an admitted region, and does not touch the register window. -/
def State.admits (s : State) (a : Nat) : Bool :=
  decide (a + 32 ≤ 2 ^ 64) && !s.overlapsWindow a &&
    s.regions.any fun r => decide (r.base ≤ a) && decide (a + 32 ≤ r.base + r.size)

end Sys2Proof.Machine
end

