-- ==== Sys2Proof/Machine/Ops.lean ====
section
/-! DEFINITION. The operations that the commands share: writing registers, completing, taking a
fault, and reset, which is the only way out of a fault. -/

namespace Sys2Proof.Machine

/-- The generator's lane states replaced. -/
def setGen (s : State) (g : Lanes Word) : State := { s with ndb := { s.ndb with gen := g } }

/-- All lanes of `V[n]` written, and `WR[n]` set (R23). -/
def writeV (s : State) (n : VReg) (x : Batch) : State :=
  { s with ndb := { s.ndb with v := s.ndb.v.set n x, wr := s.ndb.wr.set n true } }

/-- Memory replaced. -/
def setMem (s : State) (m : Memory) : State := { s with mem := m }

/-- FILL's sequencing registers written (R37). -/
def setFill (s : State) (nb idx : DWord) : State :=
  { s with ndb := { s.ndb with fillNb := nb, fillIdx := idx } }

/-- STATUS replaced. -/
def setStatus (s : State) (f : Status) : State := { s with ndb := { s.ndb with status := f } }

/-- R81: the command completes. -/
def complete (s : State) : State := setStatus s s.ndb.status.completed

/-- R201: the command raises a fault. Nothing is saved elsewhere and control goes nowhere; the state
it is applied to is the one before the command, so none of the command's effects are applied. -/
def raise (s : State) (c : FaultCode) (info : DWord) : State :=
  { s with ndb := { s.ndb with status := s.ndb.status.faulted c, faultInfo := info } }

/-- R241: reset, which abandons a running command and is the only way to clear a fault (R203). The
Host's memory, the platform and the Host's pending moves are not state of the core. -/
def resetCore (s : State) : State := { s with ndb := Ndb.reset, epoch := s.epoch + 1 }

/-- The first unwritten register among the sources `rs`, taken in their order (R205: RS1, RS2). -/
def firstUnwritten (s : State) (rs : List VReg) : Option VReg := rs.find? fun n => !s.ndb.wr[n]

/-- UNWRITTEN_READ(n) is put on record when it is the first of the run (log entry 4). -/
def noteReads (s : State) (rs : List VReg) : State :=
  { s with unwrittenRead := s.unwrittenRead.or (firstUnwritten s rs) }

/-- R204, R205: a command that reads the batch registers `rs` goes on as `k` says. If one of them is
unwritten, the model stops with UNWRITTEN_READ of the first, before anything else the command does
(R23, R253; D13 of spec/92_eei_decisions.md; I1 of spec/93_implementation_defined.md): so it is in
every run from reset. In a machine whose `unwrittenRule` is `runOn` the read is put on record and the
command goes on, as the hardware does (log entry 4). -/
def withSources (rs : List VReg) (s : State) (k : State → Host.Outcome State Fault Refusal) :
    Host.Outcome State Fault Refusal :=
  match firstUnwritten s rs, s.unwrittenRule with
  | some n, .stop => .fault (.unwrittenRead n)
  | _, _ => k (noteReads s rs)

end Sys2Proof.Machine
end

