-- ==== Sys2Proof/Machine/Operands.lean ====
section
/-! DEFINITION. The operand forms: a source batch register, and the memory operand at ADDR with the
checks made before any access (spec/44_transfer_and_control.md R181, spec/43_batch_driver.md R161).
There are no immediates and no other addressing modes (spec/30_encoding.md R73). -/

namespace Sys2Proof.Machine

/-- All lanes of the source `V[n]`. While no command has written it since reset, each lane is a free
value (R23, R204: the hardware runs on whatever the register holds; log entry 3). Where the model
stops instead, `withSources` has stopped before. -/
def readV (s : State) (n : VReg) : Batch :=
  if s.ndb.wr[n] then s.ndb.v[n] else Lanes.of fun i => Config.unwrittenLane s.epoch n i

/-- The byte address in ADDR, as an integer (R73). -/
def address (s : State) : Nat := s.ndb.addr.toNat

/-- R181: the checks of VLD and VST, in order; the information of each fault is in FAULTINFO as R200
says. -/
def checkVec (s : State) : Option (FaultCode × DWord) :=
  if address s = 0 then some (.nullBuffer, s.ndb.addr)
  else if address s % Config.this.align ≠ 0 then some (.misaligned, s.ndb.addr)
  else if address s + 32 > 2 ^ 64 then some (.range, s.ndb.addr)
  else if s.admits (address s) = false then some (.memAccess, s.ndb.addr)
  else none

/-- R161: the checks of FILL, in order. -/
def checkFill (s : State) : Option (FaultCode × DWord) :=
  if address s = 0 then some (.nullBuffer, s.ndb.addr)
  else if address s % Config.this.align ≠ 0 then some (.misaligned, s.ndb.addr)
  else if s.ndb.count.toNat % Config.this.block ≠ 0 then some (.badCount, s.ndb.count)
  else if address s + 4 * s.ndb.count.toNat > 2 ^ 64 then some (.range, s.ndb.addr)
  else none

end Sys2Proof.Machine
end

