-- ==== Sys2Proof/Machine/Combiner.lean ====
section
/-! DEFINITION. The Box-Muller Combiner (spec/42_combiner.md R140, R141): the lane function, in the
order and rounding the spec fixes, and COMBINE. -/

namespace Sys2Proof.Machine

/-- R140: `radius = sqrt(-2 * LOG(1 - u1))`. -/
def combineRadius (c : Config) (u1 : F32) : F32 :=
  F32.fsqrt (F32.fmul F32.negTwo (c.kernels.log (F32.fsub F32.one u1)))

/-- R140: `theta = 2π * u2`. -/
def combineTheta (c : Config) (u2 : F32) : F32 := F32.fmul c.twoPi u2

/-- R140: the lane function, giving z0 and z1. Each step is one rounded binary32 operation; SINCOS
gives both the sine and the cosine. -/
def combineLane (c : Config) (u1 u2 : F32) : F32 × F32 :=
  (F32.fmul (combineRadius c u1) (c.kernels.sincos (combineTheta c u2)).2,
    F32.fmul (combineRadius c u1) (c.kernels.sincos (combineTheta c u2)).1)

/-- The z0 batch of two batches. -/
def combineZ0 (c : Config) (a b : Batch) : Batch := Lanes.of fun i => (combineLane c a[i] b[i]).1

/-- The z1 batch of two batches. -/
def combineZ1 (c : Config) (a b : Batch) : Batch := Lanes.of fun i => (combineLane c a[i] b[i]).2

/-- R141: COMBINE, z0 into RD and z1 into RD2, both sources read before any write. -/
def execCombine (rd rd2 rs1 rs2 : VReg) (s : State) : Host.Outcome State Fault Refusal :=
  withSources [rs1, rs2] s fun u =>
    .next
      (complete
        (writeV (writeV u rd (combineZ0 Config.this (readV u rs1) (readV u rs2)))
          rd2 (combineZ1 Config.this (readV u rs1) (readV u rs2))))

end Sys2Proof.Machine
end

