-- ==== Sys2Proof/Machine/BatchDriver.lean ====
section
/-! DEFINITION. The Batch Driver: FILL (spec/43_batch_driver.md R160 to R168). FILL runs as a step
that makes the checks and then one step per block (R166). A FILL is past its checks exactly when
FILL_IDX < FILL_NB (DEDUCED, log entry 10). -/

namespace Sys2Proof.Machine

/-- R165: the lane states after the first draw of a block, from which u1 is taken. -/
def firstDraw (s : State) : Lanes Word := stepLanes Config.this s.ndb.gen

/-- R165: the lane states after the second draw of a block, from which u2 is taken. -/
def secondDraw (s : State) : Lanes Word := stepLanes Config.this (firstDraw s)

/-- R165: the z0 batch of the next block. -/
def blockZ0 (s : State) : Batch :=
  combineZ0 Config.this (uniforms (firstDraw s)) (uniforms (secondDraw s))

/-- R165: the z1 batch of the next block. -/
def blockZ1 (s : State) : Batch :=
  combineZ1 Config.this (uniforms (firstDraw s)) (uniforms (secondDraw s))

/-- R164: the address of the next block's z0 batch, `ADDR + 64*b`. -/
def blockAddr (s : State) : Nat := address s + 64 * s.ndb.fillIdx.toNat

/-- FILL completes when no block is left (R160). -/
def finishFill (s : State) : State :=
  if s.ndb.fillIdx = s.ndb.fillNb then complete s else s

/-- R166: FILL's first step: the checks of R161, then the number of blocks (R162). -/
def fillStart (s : State) : State :=
  match checkFill s with
  | some (c, info) => raise s c info
  | none => finishFill (setFill s (s.ndb.count / BitVec.ofNat 64 Config.this.block) 0)

/-- The effect of one block (R165): z0 and then z1 stored, the generator advanced by two steps, the
block counted. -/
def storeBlock (s : State) : State :=
  setFill
    (setGen
      (setMem s
        (Memory.writeBatch (Memory.writeBatch s.mem (blockAddr s) (blockZ0 s)) (blockAddr s + 32)
          (blockZ1 s)))
      (secondDraw s))
    s.ndb.fillNb (s.ndb.fillIdx + 1)

/-- R165, R166: one block of FILL. Both admissions are decided before either write. -/
def fillBlock (s : State) : State :=
  if s.admits (blockAddr s) = false then raise s .memAccess (BitVec.ofNat 64 (blockAddr s))
  else if s.admits (blockAddr s + 32) = false then
    raise s .memAccess (BitVec.ofNat 64 (blockAddr s + 32))
  else finishFill (storeBlock s)

/-- R160: FILL, one Core step of it. -/
def execFill (s : State) : Host.Outcome State Fault Refusal :=
  if s.ndb.fillIdx < s.ndb.fillNb then .next (fillBlock s) else .next (fillStart s)

end Sys2Proof.Machine
end

