-- ==== Sys2Proof/Machine/Generator.lean ====
section
/-! DEFINITION. The commands of the Uniform Lane Generator: RESEED and DRAW
(spec/40_generator.md R102, R104). -/

namespace Sys2Proof.Machine

/-- R104: RESEED constructs the generator again from SEED. -/
def execReseed (s : State) : Host.Outcome State Fault Refusal :=
  .next (complete (setGen s (seedSequence Config.this s.ndb.seed)))

/-- R102: DRAW advances every lane by one step and returns the uniform values of the new state. -/
def execDraw (rd : VReg) (s : State) : Host.Outcome State Fault Refusal :=
  .next
    (complete
      (writeV (setGen s (stepLanes Config.this s.ndb.gen)) rd
        (uniforms (stepLanes Config.this s.ndb.gen))))

end Sys2Proof.Machine
end

