-- ==== Sys2Proof/Machine/Kernels.lean ====
section
/-! DEFINITION. The commands of the Vectorized Transcendental Kernels: VLOG, VSIN and VSINCOS
(spec/41_kernels.md R130 to R132). Every lane of the source is read before any destination is
written (spec/30_encoding.md R83). -/

namespace Sys2Proof.Machine

/-- R130: VLOG, the lane-wise natural logarithm. -/
def execVlog (rd rs1 : VReg) (s : State) : Host.Outcome State Fault Refusal :=
  withSources [rs1] s fun u =>
    .next (complete (writeV u rd (Lanes.of fun i => Config.this.kernels.log (readV u rs1)[i])))

/-- R131: VSIN, the lane-wise sine. -/
def execVsin (rd rs1 : VReg) (s : State) : Host.Outcome State Fault Refusal :=
  withSources [rs1] s fun u =>
    .next (complete (writeV u rd (Lanes.of fun i => Config.this.kernels.sin (readV u rs1)[i])))

/-- R132: VSINCOS, the lane-wise sine into RD and cosine into RD2. -/
def execVsincos (rd rd2 rs1 : VReg) (s : State) : Host.Outcome State Fault Refusal :=
  withSources [rs1] s fun u =>
    .next
      (complete
        (writeV
          (writeV u rd (Lanes.of fun i => (Config.this.kernels.sincos (readV u rs1)[i]).1))
          rd2 (Lanes.of fun i => (Config.this.kernels.sincos (readV u rs1)[i]).2)))

end Sys2Proof.Machine
end

