-- ==== Sys2Proof/Machine/Transfer.lean ====
section
/-! DEFINITION. Transfer and control commands: NOP, VLD and VST
(spec/44_transfer_and_control.md R180 to R183). -/

namespace Sys2Proof.Machine

/-- R180: NOP only completes. -/
def execNop (s : State) : Host.Outcome State Fault Refusal := .next (complete s)

/-- R182: VLD loads the batch at ADDR, every bit pattern unchanged. -/
def execVld (rd : VReg) (s : State) : Host.Outcome State Fault Refusal :=
  match checkVec s with
  | some (c, info) => .next (raise s c info)
  | none => .next (complete (writeV s rd (Memory.readBatch s.mem (address s))))

/-- R183: VST stores a batch at ADDR. The source comes before the checks (R205): the model's stop at
an unwritten source hides a check that fails, and the record of one stays when a check fails. -/
def execVst (rs1 : VReg) (s : State) : Host.Outcome State Fault Refusal :=
  withSources [rs1] s fun u =>
    match checkVec u with
    | some (c, info) => .next (raise u c info)
    | none => .next (complete (setMem u (Memory.writeBatch u.mem (address u) (readV u rs1))))

end Sys2Proof.Machine
end

