-- ==== Sys2Proof/Machine/Dispatch.lean ====
section
/-! DEFINITION. From a command to its meaning, one arm per constructor of Instr
(spec/30_encoding.md R74, R80). -/

namespace Sys2Proof.Machine

def exec (i : Instr) (s : State) : Host.Outcome State Fault Refusal :=
  match i with
  | .nop => Sys2Proof.Machine.execNop s
  | .reseed => Sys2Proof.Machine.execReseed s
  | .fill => Sys2Proof.Machine.execFill s
  | .draw rd => Sys2Proof.Machine.execDraw rd s
  | .vlog rd rs1 => Sys2Proof.Machine.execVlog rd rs1 s
  | .vsin rd rs1 => Sys2Proof.Machine.execVsin rd rs1 s
  | .vsincos rd rd2 rs1 => Sys2Proof.Machine.execVsincos rd rd2 rs1 s
  | .combine rd rd2 rs1 rs2 => Sys2Proof.Machine.execCombine rd rd2 rs1 rs2 s
  | .vld rd => Sys2Proof.Machine.execVld rd s
  | .vst rs1 => Sys2Proof.Machine.execVst rs1 s

end Sys2Proof.Machine
end

