-- ==== Sys2Proof/Machine/Engine.lean ====
section
/-! DEFINITION. A Core step (spec/30_encoding.md R80) and the Host's moves
(spec/10_state.md R26 to R36, spec/60_exceptions.md R208, R220). -/

namespace Sys2Proof.Machine

/-! ### The Core -/

/-- The command word being executed: the core fetches nothing, the word was latched by an accepted
CMD write (R21, R37). -/
def commandWord (s : State) : Word := s.ndb.cur

/-- R80: the Core decodes CUR and performs the command; an illegal word raises ILLEGAL_COMMAND with
the word in FAULTINFO (R77). -/
def runCommand (s : State) : Host.Outcome State Fault Refusal :=
  match decode (commandWord s) with
  | .instr i => exec i s
  | .illegal _ => .next (raise s .illegalCommand ((commandWord s).setWidth 64))

/-- One Core step. The core is idle, and changes nothing, whenever STATUS.BUSY = 0 (R215). -/
def coreStep (s : State) : Host.Outcome State Fault Refusal :=
  if s.ndb.status.busy then runCommand s else .next s

/-! ### The register window -/

/-- The offset of a register in the window (R26). -/
def WinReg.offset : WinReg → Nat
  | .cmd => 0x00
  | .status => 0x08
  | .addr => 0x10
  | .count => 0x18
  | .seed => 0x20
  | .faultInfo => 0x28
  | .params => 0x30
  | .reserved => 0x38

/-- PARAMS (R31): LANES, NVREG, ALIGN and the revision of the command set. -/
def paramsWord (c : Config) : DWord :=
  BitVec.ofNat 64 (c.lanes + c.nvreg * 2 ^ 8 + c.align * 2 ^ 16 + c.revision * 2 ^ 24)

/-- What a Host read of a register returns (R26): CMD and the reserved offset read 0. -/
def windowRead (s : State) : WinReg → DWord
  | .cmd => 0
  | .status => s.ndb.status.word
  | .addr => s.ndb.addr
  | .count => s.ndb.count
  | .seed => s.ndb.seed.setWidth 64
  | .faultInfo => s.ndb.faultInfo
  | .params => paramsWord Config.this
  | .reserved => 0

/-- R36: a Host write is dropped. -/
def dropWrite (s : State) : State := setStatus s s.ndb.status.dropped

/-- R27: an accepted CMD write latches the command word. -/
def acceptCommand (s : State) (w : Word) : State :=
  { s with ndb := { s.ndb with status := s.ndb.status.accepted, cur := w } }

/-- A Host write of a register (R27, R29, R30, R32, R34, R36). -/
def windowWrite (s : State) (w : DWord) : WinReg → State
  | .cmd =>
    if s.ndb.status.busy || s.ndb.status.err then dropWrite s else acceptCommand s (w.setWidth 32)
  | .addr => if s.ndb.status.busy then dropWrite s else { s with ndb := { s.ndb with addr := w } }
  | .count => if s.ndb.status.busy then dropWrite s else { s with ndb := { s.ndb with count := w } }
  | .seed =>
    if s.ndb.status.busy then dropWrite s
    else { s with ndb := { s.ndb with seed := w.setWidth 32 } }
  | .status => s
  | .faultInfo => s
  | .params => s
  | .reserved => s

/-! ### The Host -/

/-- The number of bytes of a command's memory operand, from ADDR on (R60, R250). -/
def operandSize (s : State) : Instr → Nat
  | .nop => 0
  | .reseed => 0
  | .fill => 4 * s.ndb.count.toNat
  | .draw _ => 0
  | .vlog _ _ => 0
  | .vsin _ _ => 0
  | .vsincos _ _ _ => 0
  | .combine _ _ _ _ => 0
  | .vld _ => 32
  | .vst _ => 32

/-- The number of bytes of the running command's memory operand; an illegal word has none. -/
def runningSize (s : State) : Nat :=
  match decode (commandWord s) with
  | .instr i => operandSize s i
  | .illegal _ => 0

/-- Whether a byte belongs to the memory operand of a running command (R60). -/
def operandInUse (s : State) (a : Nat) : Bool :=
  s.ndb.status.busy && decide (address s ≤ a) && decide (a < address s + runningSize s)

/-- A Host memory move: refused on the window's bytes, which are no memory, and on the operand of a
running command. -/
def hostMemory (s : State) (a : DWord) (t : State) : Host.Outcome State Fault Refusal :=
  if s.inWindow a.toNat then .refused .windowAsMemory
  else if operandInUse s a.toNat then .refused .operandInUse
  else .next t

/-- R220: the Host's moves. -/
def hostStep (m : HostMove) (s : State) : Host.Outcome State Fault Refusal :=
  match m with
  | .readReg r => .next { s with hostData := windowRead s r }
  | .writeReg r w => .next (windowWrite s w r)
  | .readMem a => hostMemory s a { s with hostData := (Memory.read s.mem a.toNat).setWidth 64 }
  | .writeMem a b => hostMemory s a (setMem s (Memory.write s.mem a.toNat b))
  | .own rs => if s.ndb.status.busy then .refused .admissionWhileBusy else .next { s with regions := rs }
  | .reset => .next (resetCore s)

/-- The next turn is taken (R208): the Core's, also when no turn is listed; the Host's wait, which
lets the Core step while BUSY = 1; or a Host move. A wait is the Host polling STATUS (R79); the turn
looks at BUSY itself, and what the polls read is not kept in `hostData` (DESIGN CHOICE, log entry
13). -/
def takeTurn (s : State) : Host.Outcome State Fault Refusal :=
  match s.script with
  | [] => coreStep s
  | .core :: rest => coreStep { s with script := rest }
  | .wait :: rest => if s.ndb.status.busy then coreStep s else .next { s with script := rest }
  | .host m :: rest => hostStep m { s with script := rest }

/-! ### Host programs -/

/-- `SET r, w` (R79). -/
def turnSet (r : WinReg) (w : DWord) : Turn := .host (.writeReg r w)

/-- A command followed by WAIT (R82). -/
def turnsCommand (i : Instr) : List Turn :=
  [turnSet .cmd ((encode i).setWidth 64), .wait]

/-- `FILLN a, n` (R82). -/
def turnsFilln (a n : DWord) : List Turn :=
  [turnSet .addr a, turnSet .count n] ++ turnsCommand .fill

/-- `LOADV vD, a` (R82). -/
def turnsLoadv (rd : VReg) (a : DWord) : List Turn := turnSet .addr a :: turnsCommand (.vld rd)

/-- `STOREV vS, a` (R82). -/
def turnsStorev (rs1 : VReg) (a : DWord) : List Turn := turnSet .addr a :: turnsCommand (.vst rs1)

/-- `SEEDGEN s` (R82). -/
def turnsSeedgen (seed : Word) : List Turn :=
  turnSet .seed (seed.setWidth 64) :: turnsCommand .reseed

/-- `NORMAL vZ0, vZ1, vT0, vT1` (R82). -/
def turnsNormal (z0 z1 t0 t1 : VReg) : List Turn :=
  turnsCommand (.draw t0) ++ turnsCommand (.draw t1) ++ turnsCommand (.combine z0 z1 t0 t1)

end Sys2Proof.Machine
end

