-- ==== Sys2Proof/Machine/Step.lean ====
section
/-! DEFINITION. One step of the machine, and how a command word comes to be the next one that runs. -/

namespace Sys2Proof.Machine

/-- One step: the next turn of the Host or the Core (spec/60_exceptions.md R208). -/
def step (s : State) : Host.Outcome State Fault Refusal := takeTurn s

/-- The turns with the Core's put first. -/
def coreFirst : List Turn → List Turn
  | [] => []
  | t :: rest => .core :: t :: rest

/-- The state in which the very next step runs the command word `w`: what an accepted CMD write
leaves (spec/10_state.md R27), with the Core's turn first and no FILL in its blocks
(log entry 11). The bits of the word above `nbits` are 0. -/
def State.withFetchWord (s : State) (nbits w : Nat) : State :=
  { s with
    script := coreFirst s.script
    ndb :=
      { s.ndb with
        status := { s.ndb.status with busy := true, done := false, err := false, code := 0 }
        cur := BitVec.ofNat 32 (w % 2 ^ nbits)
        fillIdx := s.ndb.fillNb } }

end Sys2Proof.Machine
end

