-- ==== Sys2Proof/Safety.lean ====
section
/-! DEFINITION. What claims are stated in: the end of a Host program and its success
(spec/60_exceptions.md R222), the invariant of the machine, what it means to complete, to fault and
to leave things alone, and what correct rounding is. -/

namespace Sys2Proof.Machine

/-- Whether a turn is the Host's: a move, or a wait, which is the Host polling (R79). -/
def Turn.isHost : Turn → Bool
  | .core => false
  | .wait => true
  | .host _ => true

/-- R222: a run ends when the Host has no move left and STATUS.BUSY = 0. Turns of the Core that are
left do not matter. -/
def State.ended (s : State) : Bool := !s.script.any Turn.isHost && !s.ndb.status.busy

/-- R222: a run that ended is successful if STATUS.ERR = 0 and no model fault occurred (R204): a stop
ends no run, since it leaves no state, and where the machine runs on, none was recorded. -/
def State.successful (s : State) : Bool :=
  s.ended && !s.ndb.status.err && s.unwrittenRead.isNone

/-- R28: the values STATUS takes. BUSY and DONE are never both 1; while ERR = 1 both are 0; CODE
is one of the six codes while ERR = 1 and 0 otherwise (R200). -/
def Status.legal (f : Status) : Bool :=
  !(f.busy && f.done) && !(f.err && (f.busy || f.done)) &&
    (if f.err then decide (1 ≤ f.code.toNat ∧ f.code.toNat ≤ 6) else decide (f.code.toNat = 0))

/-- FILL is the command being executed and its checks are behind it. -/
def State.inBlocks (s : State) : Bool :=
  s.ndb.status.busy && decide (decode s.ndb.cur = .instr .fill) &&
    decide (s.ndb.fillIdx < s.ndb.fillNb)

/-- The operands of a FILL whose checks passed (R161, R162). -/
def State.fillOperandsOk (s : State) : Prop :=
  checkFill s = none ∧ s.ndb.count.toNat = 16 * s.ndb.fillNb.toNat

/-- The invariant of the machine: memory is canonical; STATUS has a legal value; FILL_IDX never
passes FILL_NB (R37); unless a fault stopped a FILL between blocks, FILL_IDX < FILL_NB only inside
a running FILL, whose operands are still the ones it checked (R36: they cannot change while
BUSY = 1). -/
structure State.Inv (s : State) : Prop where
  mem_wf : Memory.wf s.mem = true
  status_legal : s.ndb.status.legal = true
  idx_le : s.ndb.fillIdx.toNat ≤ s.ndb.fillNb.toNat
  in_blocks : s.ndb.status.err = false → s.ndb.fillIdx < s.ndb.fillNb → s.inBlocks = true
  operands : s.inBlocks = true → s.fillOperandsOk

/-! ### What a command needs -/

/-- The batch registers a command reads, RS1 before RS2 (R22, R205). -/
def sourcesOf : Instr → List VReg
  | .nop => []
  | .reseed => []
  | .fill => []
  | .draw _ => []
  | .vlog _ rs1 => [rs1]
  | .vsin _ rs1 => [rs1]
  | .vsincos _ _ rs1 => [rs1]
  | .combine _ _ rs1 rs2 => [rs1, rs2]
  | .vld _ => []
  | .vst rs1 => [rs1]

/-- The machine does not stop at a read of `rs` (R204): they are written, or it runs on as the
hardware does (log entry 4). -/
def Readable (s : State) (rs : List VReg) : Prop :=
  s.unwrittenRule = .runOn ∨ ∀ n ∈ rs, s.ndb.wr[n] = true

/-! ### What a command did -/

/-- R81: the command completed: BUSY is 0 and DONE is 1, and no other flag changed. -/
def Completed (s t : State) : Prop :=
  t.ndb.status = { s.ndb.status with busy := false, done := true } ∧
    t.ndb.faultInfo = s.ndb.faultInfo

/-- The Host's side and the platform are unchanged. -/
def SameOutside (s t : State) : Prop :=
  t.windowBase = s.windowBase ∧ t.regions = s.regions ∧ t.script = s.script ∧
    t.hostData = s.hostData ∧ t.epoch = s.epoch ∧ t.unwrittenRule = s.unwrittenRule

/-- ADDR, COUNT, SEED and CUR are unchanged. -/
def SameRegisters (s t : State) : Prop :=
  t.ndb.addr = s.ndb.addr ∧ t.ndb.count = s.ndb.count ∧ t.ndb.seed = s.ndb.seed ∧
    t.ndb.cur = s.ndb.cur

/-- FILL's sequencing registers are unchanged. -/
def SameFill (s t : State) : Prop :=
  t.ndb.fillNb = s.ndb.fillNb ∧ t.ndb.fillIdx = s.ndb.fillIdx

/-- Every byte of memory reads as before. -/
def SameMemory (s t : State) : Prop := ∀ a, Memory.read t.mem a = Memory.read s.mem a

/-- Every byte of memory outside the `n` bytes from `a` reads as before. -/
def SameMemoryOutside (s t : State) (a n : Nat) : Prop :=
  ∀ x, x < a ∨ a + n ≤ x → Memory.read t.mem x = Memory.read s.mem x

/-- Every batch register but those listed keeps its lanes and its written-flag. -/
def SameBatches (s t : State) (except : List VReg) : Prop :=
  ∀ n, n ∉ except → t.ndb.v[n] = s.ndb.v[n] ∧ t.ndb.wr[n] = s.ndb.wr[n]

/-- What the record of unwritten reads becomes when `sources` are read in this order (R204, R205;
log entry 4). -/
def Recorded (s t : State) (sources : List VReg) : Prop :=
  t.unwrittenRead =
    if s.unwrittenRead.isSome then s.unwrittenRead
    else sources.find? fun n => s.ndb.wr[n] == false

/-- Everything but the batch registers `dests` and the completion flags is unchanged, the generator
too: the frame of a command that computes from `sources` into `dests`. -/
def VectorFrame (s t : State) (dests sources : List VReg) : Prop :=
  Completed s t ∧ SameBatches s t dests ∧ t.ndb.gen = s.ndb.gen ∧ SameRegisters s t ∧
    SameFill s t ∧ SameMemory s t ∧ SameOutside s t ∧ Recorded s t sources

/-- R201: a fault with this code and this information was raised, and nothing else changed. -/
def Raised (s t : State) (code : BitVec 4) (info : DWord) : Prop :=
  t.ndb = { s.ndb with
    status := { s.ndb.status with busy := false, done := false, err := true, code := code }
    faultInfo := info } ∧
  t.mem = s.mem ∧ SameOutside s t

/-- Commands performed one after the other. -/
def runCommands : List Instr → State → Host.Outcome State Fault Refusal
  | [], s => .next s
  | i :: rest, s =>
    match exec i s with
    | .next t => runCommands rest t
    | .fault r => .fault r
    | .refused r => .refused r

end Sys2Proof.Machine

namespace Sys2Proof

/-! ### Rounding -/

/-- The exact value of a finite binary32, as a real number. -/
def F32.real (x : F32) : ℝ := ((F32.value x : ℚ) : ℝ)

/-- `r` is the real number `v` rounded to binary32 by round-to-nearest, ties-to-even (R15): from
2^128 less half a unit in the last place on, an infinity; below, the nearest finite value, and an
even one where another is as near; never of the opposite sign. -/
def F32.RoundsTo (r : F32) (v : ℝ) : Prop :=
  ((2 ^ 25 - 1) * 2 ^ 103 ≤ |v| → F32.isInf r = true) ∧
  (|v| < (2 ^ 25 - 1) * 2 ^ 103 →
    F32.isFinite r = true ∧
      ∀ x, F32.isFinite x = true →
        |F32.real r - v| ≤ |F32.real x - v| ∧
          (|F32.real r - v| = |F32.real x - v| → F32.real x ≠ F32.real r → F32.mag r % 2 = 0)) ∧
  (0 < v → F32.isNeg r = false) ∧ (v < 0 → F32.isNeg r = true)

end Sys2Proof
end

