-- ==== Sys2Proof/Certificates/Slice0/Obligations.lean ====
section
/-! DEFINITION. The statements about the model, from the numbered rules of spec/. Each docstring says
which rule it formalises. -/

open Sys2Proof Sys2Proof.Machine

/-! ### Encoding -/

/-- 95_test_vectors.md V-ENC-1 and V-ENC-2: words and what they decode to. -/
def Obligations.KnownWordsDecode : Prop :=
  decode 0x00000000 = .instr .nop ∧ decode 0x00000001 = .instr .reseed ∧
  decode 0x00000002 = .instr .fill ∧ decode 0x00000710 = .instr (.draw 7) ∧
  decode 0x00000111 = .instr (.vlog 1 0) ∧ decode 0x00002312 = .instr (.vsin 3 2) ∧
  decode 0x00502413 = .instr (.vsincos 4 5 2) ∧
  decode 0x00310214 = .instr (.combine 2 3 0 1) ∧
  decode 0x00000020 = .instr (.vld 0) ∧ decode 0x00007021 = .instr (.vst 7) ∧
  decode 0x00000014 = .illegal .sameDestination ∧ decode 0x01000002 = .illegal .reservedBits

/-- Every well-formed command is read back from its word (R70, R72, R74). -/
def Obligations.DecodeOfEncode : Prop :=
  ∀ i : Instr, i.WellFormed → decode (encode i) = .instr i

/-- Every word that decodes is the word of the command it decodes to, which is well formed: each
word has one meaning (R70, R76). -/
def Obligations.EncodeOfDecode : Prop :=
  ∀ (w : Word) (i : Instr), decode w = .instr i → i.WellFormed ∧ encode i = w

/-- R74 and R76: a word decodes to a command exactly when it has the command's match bits under its
mask and, for VSINCOS and COMBINE, RD and RD2 differ. -/
def Obligations.LegalWordsMatchTheMap : Prop :=
  ∀ w : Word, ∀ row ∈ [(Opcode.nop, (0x00000000 : Word), (0xFFFFFFFF : Word)),
      (.reseed, 0x00000001, 0xFFFFFFFF), (.fill, 0x00000002, 0xFFFFFFFF),
      (.draw, 0x00000010, 0xFFFFF8FF), (.vlog, 0x00000011, 0xFFFF88FF),
      (.vsin, 0x00000012, 0xFFFF88FF), (.vsincos, 0x00000013, 0xFF8F88FF),
      (.combine, 0x00000014, 0xFF8888FF), (.vld, 0x00000020, 0xFFFFF8FF),
      (.vst, 0x00000021, 0xFFFF8FFF)],
    (∃ i : Instr, decode w = .instr i ∧ i.opcode = row.1) ↔
      w &&& row.2.2 = row.2.1 ∧
        (row.1 = .vsincos ∨ row.1 = .combine → w.toNat / 2 ^ 8 % 16 ≠ w.toNat / 2 ^ 20 % 16)

/-- R77: the conditions under which a word is illegal, on its fields; a running illegal word raises
ILLEGAL_COMMAND with the word in FAULTINFO and changes nothing else; every other word is a
command. -/
def Obligations.IllegalWordRaises : Prop :=
  ∀ w : Word, ∀ op rd rs1 rs2 rd2 : Nat,
    op = w.toNat % 256 → rd = w.toNat / 2 ^ 8 % 16 → rs1 = w.toNat / 2 ^ 12 % 16 →
    rs2 = w.toNat / 2 ^ 16 % 16 → rd2 = w.toNat / 2 ^ 20 % 16 →
    if w.toNat / 2 ^ 24 ≠ 0 ∨
        op ∉ [0x00, 0x01, 0x02, 0x10, 0x11, 0x12, 0x13, 0x14, 0x20, 0x21] ∨
        (if op ∈ [0x10, 0x11, 0x12, 0x13, 0x14, 0x20] then 8 ≤ rd else rd ≠ 0) ∨
        (if op ∈ [0x11, 0x12, 0x13, 0x14, 0x21] then 8 ≤ rs1 else rs1 ≠ 0) ∨
        (if op ∈ [0x14] then 8 ≤ rs2 else rs2 ≠ 0) ∨
        (if op ∈ [0x13, 0x14] then 8 ≤ rd2 else rd2 ≠ 0) ∨
        (op ∈ [0x13, 0x14] ∧ rd = rd2) then
      ∀ s : State, s.ndb.status.busy = true → s.script = [] → s.ndb.cur = w →
        ∃ t, step s = .next t ∧ Raised s t 1 (w.setWidth 64) ∧ t.unwrittenRead = s.unwrittenRead
    else ∃ i, decode w = .instr i

/-! ### Steps -/

/-- A step of the Core runs the command that CUR decodes to (R80), whichever turn lets the Core
step: an empty script, a Core turn, or a Host that waits. -/
def Obligations.StepRunsDecodedCommand : Prop :=
  ∀ (s : State) (i : Instr), s.ndb.status.busy = true → decode s.ndb.cur = .instr i →
    (s.script = [] → step s = exec i s) ∧
    (∀ rest, s.script = .core :: rest → step s = exec i { s with script := rest }) ∧
    (∀ rest, s.script = .wait :: rest → step s = exec i s)

/-- R215: while BUSY = 0 a Core step changes nothing, and a waiting Host goes on. -/
def Obligations.IdleCoreHoldsItsState : Prop :=
  ∀ s : State, s.ndb.status.busy = false →
    (s.script = [] → step s = .next s) ∧
    (∀ rest, s.script = .core :: rest ∨ s.script = .wait :: rest →
      step s = .next { s with script := rest })

/-! ### The generator -/

/-- R100: the lane step and its corner cases. -/
def Obligations.LaneStepIsTheLcg : Prop :=
  (∀ (c : Config) (s : Word),
    (lcgStep c s).toNat = (s.toNat * c.lcgA.toNat + c.lcgC.toNat) % 2 ^ 32) ∧
  Config.this.lcgA.toNat = 1664525 ∧ Config.this.lcgC.toNat = 1013904223 ∧
  lcgStep Config.this 0x00000000 = 0x3C6EF35F ∧ lcgStep Config.this 0x00000001 = 0x3C88596C ∧
  lcgStep Config.this 0xFFFFFFFF = 0x3C558D52 ∧ lcgStep Config.this 0x80000000 = 0xBC6EF35F

/-- R101: the uniform conversion is exact: it is (s >> 9) * 2^-23, in [0, 1 − 2^-23]; two states
have one image exactly when their top 23 bits agree; the corner cases. -/
def Obligations.UniformConversionIsExact : Prop :=
  (∀ s : Word, F32.isFinite (toUniform s) = true ∧ F32.isNeg (toUniform s) = false ∧
    F32.value (toUniform s) = (s.toNat / 2 ^ 9 : ℕ) / (2 ^ 23 : ℚ)) ∧
  (∀ s s' : Word, toUniform s = toUniform s' ↔ s.toNat / 2 ^ 9 = s'.toNat / 2 ^ 9) ∧
  (∀ k < 2 ^ 23, ∃ s : Word, F32.value (toUniform s) = (k : ℕ) / (2 ^ 23 : ℚ)) ∧
  (∀ s : Word, toUniform s = 0 ↔ s.toNat ≤ 0x1FF) ∧
  toUniform 0x000001FF = 0 ∧ toUniform 0x00000200 = 0x34000000 ∧
  toUniform 0x80000000 = 0x3F000000 ∧ toUniform 0xFFFFFFFF = 0x3F7FFFFE

/-- R102: DRAW advances every lane by one step, returns the uniform values of the new states, and
does nothing else; its encoding, and its example after reset. -/
def Obligations.DrawAdvancesAndReturns : Prop :=
  (∀ (rd : VReg) (s : State), ∃ t, exec (.draw rd) s = .next t ∧
    (∀ i : Lane,
      t.ndb.gen[i].toNat = (s.ndb.gen[i].toNat * 1664525 + 1013904223) % 2 ^ 32 ∧
      t.ndb.v[rd][i] = toUniform t.ndb.gen[i] ∧
      F32.isFinite t.ndb.v[rd][i] = true ∧
      0 ≤ F32.value t.ndb.v[rd][i] ∧ F32.value t.ndb.v[rd][i] ≤ 1 - 1 / 2 ^ 23 ∧
      (t.ndb.gen[i].toNat < 0x200 → t.ndb.v[rd][i] = 0)) ∧
    t.ndb.wr[rd] = true ∧ Completed s t ∧ SameBatches s t [rd] ∧ SameRegisters s t ∧
    SameFill s t ∧ SameMemory s t ∧ SameOutside s t ∧ t.unwrittenRead = s.unwrittenRead) ∧
  (∀ (w : Word) (rd : VReg), decode w = .instr (.draw rd) ↔ w.toNat = 0x10 + rd.val * 2 ^ 8) ∧
  (∀ t, exec (.draw 0) State.reset = .next t →
    t.ndb.gen = #v[0x3C88596C, 0x42EA3DD1, 0x494C2236, 0x4FAE069B, 0x560FEB00, 0x5C71CF65,
      0x62D3B3CA, 0x6935982F] ∧
    t.ndb.v[(0 : VReg)] = #v[0x3E722160, 0x3E85D478, 0x3E929844, 0x3E9F5C0C, 0x3EAC1FD4,
      0x3EB8E39C, 0x3EC5A764, 0x3ED26B30])

/-- R104: RESEED constructs the generator from SEED and does nothing else; its encoding and corner
cases. -/
def Obligations.ReseedConstructsTheGenerator : Prop :=
  (∀ s : State, ∃ t, exec .reseed s = .next t ∧
    (∀ i : Lane, t.ndb.gen[i].toNat = (s.ndb.seed.toNat + i.val * 0x9E3779B9) % 2 ^ 32) ∧
    Completed s t ∧ SameBatches s t [] ∧ SameRegisters s t ∧ SameFill s t ∧ SameMemory s t ∧
    SameOutside s t ∧ t.unwrittenRead = s.unwrittenRead ∧
    (s.ndb.seed = 1 → t.ndb.gen = State.reset.ndb.gen ∧
      t.ndb.gen = #v[0x00000001, 0x9E3779BA, 0x3C6EF373, 0xDAA66D2C, 0x78DDE6E5, 0x1715609E,
        0xB54CDA57, 0x53845410]) ∧
    (s.ndb.seed = 0 → t.ndb.gen[(0 : Lane)] = 0 ∧
      ∀ rd, ∃ u, exec (.draw rd) t = .next u ∧
        u.ndb.v[rd][(0 : Lane)] = toUniform 1013904223)) ∧
  (∀ w : Word, decode w = .instr .reseed ↔ w = 1) ∧
  (∀ w : Word, w.toNat % 256 = 1 → w ≠ 1 → ∃ why, decode w = .illegal why)

/-- R106: the n-step form of the lane step, the two-step map under REF, and, for an odd multiplier,
that the step is a bijection and distinct lanes stay distinct. -/
def Obligations.LaneStepIterates : Prop :=
  (∀ (c : Config) (n : ℕ) (s : Word), ((lcgStep c)^[n] s).toNat =
    (c.lcgA.toNat ^ n * s.toNat + c.lcgC.toNat * ∑ k ∈ Finset.range n, c.lcgA.toNat ^ k) % 2 ^ 32) ∧
  (∀ s : Word, (lcgStep Config.this)^[2] s = 0x17385CA9 * s + 0x47502932) ∧
  (∀ c : Config, c.lcgA.toNat % 2 = 1 →
    Function.Bijective (lcgStep c) ∧
    ∀ s s' : Word, s ≠ s' → ∀ n : ℕ, (lcgStep c)^[n] s ≠ (lcgStep c)^[n] s')

/-- R105 as the spec states it: distinct lane seeds for every seed_0 if and only if
STRIDE mod 2^29 ≠ 0. It fails: STRIDE = 2^29 gives distinct seeds too (log entry 15). -/
def Obligations.LaneSeedsDistinctAsStated : Prop :=
  ∀ c : Config,
    (∀ (seed : Word) (i j : Lane), i ≠ j → (seedSequence c seed)[i] ≠ (seedSequence c seed)[j]) ↔
      c.stride.toNat % 2 ^ 29 ≠ 0

/-- When lane seeds are distinct: for every seed_0 if and only if STRIDE mod 2^30 ≠ 0, which R105's
condition implies and REF meets (log entry 15). -/
def Obligations.LaneSeedsDistinct : Prop :=
  (∀ c : Config,
    (∀ (seed : Word) (i j : Lane), i ≠ j → (seedSequence c seed)[i] ≠ (seedSequence c seed)[j]) ↔
      c.stride.toNat % 2 ^ 30 ≠ 0) ∧
  (∀ c : Config, c.WellFormed → ∀ (seed : Word) (i j : Lane), i ≠ j →
    (seedSequence c seed)[i] ≠ (seedSequence c seed)[j]) ∧
  Config.this.WellFormed

/-- R107 for the generator's commands: two machines that agree in `S` and SEED, and in nothing else,
return the same uniform values and keep the same `S` through every sequence of RESEED and DRAW. -/
def Obligations.StreamDependsOnSeedAndStateOnly : Prop :=
  ∀ cs : List Instr, (∀ i ∈ cs, i = .reseed ∨ ∃ rd, i = .draw rd) →
    ∀ s s' : State, s.ndb.gen = s'.ndb.gen → s.ndb.seed = s'.ndb.seed →
      ∃ t t', runCommands cs s = .next t ∧ runCommands cs s' = .next t' ∧
        t.ndb.gen = t'.ndb.gen ∧ ∀ rd, .draw rd ∈ cs → t.ndb.v[rd] = t'.ndb.v[rd]

/-! ### Floating-point arithmetic -/

/-- R15, R127: the difference of finite values is the exact difference rounded once; an exact zero
difference is −0 only for (−0) − (+0). That case, and infinity on overflow, are IEEE-754's and not
listed by R127 (PRESUMED, log entry 16). -/
def Obligations.SubtractionIsCorrectlyRounded : Prop :=
  ∀ a b : F32, F32.isFinite a = true → F32.isFinite b = true →
    F32.RoundsTo (F32.fsub a b) (F32.real a - F32.real b) ∧
    (F32.real a = F32.real b →
      F32.fsub a b = if a = 0x80000000 ∧ b = 0 then 0x80000000 else 0)

/-- R15, R127: the product of finite values is the exact product rounded once; its sign is the XOR
of the signs, also of a zero. Infinity on overflow is IEEE-754's and not listed by R127 (PRESUMED,
log entry 16). -/
def Obligations.MultiplicationIsCorrectlyRounded : Prop :=
  ∀ a b : F32, F32.isFinite a = true → F32.isFinite b = true →
    F32.RoundsTo (F32.fmul a b) (F32.real a * F32.real b) ∧
    F32.isNeg (F32.fmul a b) = (F32.isNeg a != F32.isNeg b) ∧
    (F32.isZero a = true ∨ F32.isZero b = true → F32.isZero (F32.fmul a b) = true)

/-- R15, R127: the square root of a positive finite value is the exact root rounded once. -/
def Obligations.SquareRootIsCorrectlyRounded : Prop :=
  ∀ x : F32, F32.isFinite x = true → 0 < F32.real x →
    F32.RoundsTo (F32.fsqrt x) (Real.sqrt (F32.real x))

/-- R127: the special cases. -/
def Obligations.FloatSpecialCases : Prop :=
  (∀ x : F32, F32.isFinite x = true → F32.fsub x x = 0) ∧
  (∀ a b : F32, F32.isZero a = true → F32.isInf b = true →
    F32.isNaN (F32.fmul a b) = true ∧ F32.isNaN (F32.fmul b a) = true) ∧
  F32.fsqrt 0x80000000 = 0x80000000 ∧ F32.fsqrt 0 = 0 ∧ F32.fsqrt 0x7F800000 = 0x7F800000 ∧
  (∀ x : F32, F32.isNeg x = true → F32.isZero x = false → F32.isNaN (F32.fsqrt x) = true) ∧
  (∀ a b : F32, F32.isNaN a = true ∨ F32.isNaN b = true →
    F32.isNaN (F32.fsub a b) = true ∧ F32.isNaN (F32.fmul a b) = true) ∧
  (∀ x : F32, F32.isNaN x = true → F32.isNaN (F32.fsqrt x) = true)

/-! ### The kernels -/

/-- R121, R123: LOG on (0, 1] and SIN on [0, 2π) are as accurate as the spec requires. -/
def Obligations.KernelsAreAccurate : Prop :=
  (∀ x : F32, F32.isFinite x = true → 0 < F32.real x → F32.real x ≤ 1 →
    F32.isFinite (Config.this.kernels.log x) = true ∧
      |F32.real (Config.this.kernels.log x) - Real.log (F32.real x)| ≤
        1 / 10 ^ 6 * |Real.log (F32.real x)|) ∧
  (∀ x : F32, F32.isNeg x = false → F32.isFinite x = true → F32.real x < 2 * Real.pi →
    F32.isFinite (Config.this.kernels.sin x) = true ∧
      |F32.real (Config.this.kernels.sin x) - Real.sin (F32.real x)| ≤ 1 / 10 ^ 6)

/-- R122: what follows of LOG for every admissible build: LOG(1) is a zero of either sign, LOG is
negative below 1, and bounded on the combiner's range. -/
def Obligations.LogConsequences : Prop :=
  (∀ k : KernelFns, k.Admissible →
    F32.isZero (k.log 0x3F800000) = true ∧
    (∀ x : F32, F32.isFinite x = true → 0 < F32.real x → F32.real x < 1 →
      F32.real (k.log x) ≤ (1 - 1 / 10 ^ 6) * Real.log (F32.real x) ∧
      (1 - 1 / 10 ^ 6) * Real.log (F32.real x) < 0) ∧
    (∀ x : F32, F32.isFinite x = true → 1 / 2 ^ 23 ≤ F32.real x → F32.real x ≤ 1 →
      -15.9425 < F32.real (k.log x) ∧ F32.real (k.log x) ≤ 0)) ∧
  (∃ k : KernelFns, k.Admissible ∧ k.log 0x3F800000 = 0) ∧
  (∃ k : KernelFns, k.Admissible ∧ k.log 0x3F800000 = 0x80000000)

/-- R124: SINCOS is accurate on [0, 2π), and no property relates its sine to SIN: an admissible build
exists in which they differ on an input of the domain. -/
def Obligations.SincosAccurateAndUnrelatedToSin : Prop :=
  (∀ x : F32, F32.isNeg x = false → F32.isFinite x = true → F32.real x < 2 * Real.pi →
    F32.isFinite (Config.this.kernels.sincos x).1 = true ∧
    F32.isFinite (Config.this.kernels.sincos x).2 = true ∧
    |F32.real (Config.this.kernels.sincos x).1 - Real.sin (F32.real x)| ≤ 1 / 10 ^ 6 ∧
    |F32.real (Config.this.kernels.sincos x).2 - Real.cos (F32.real x)| ≤ 1 / 10 ^ 6) ∧
  (∃ k : KernelFns, k.Admissible ∧ ∃ x : F32, F32.TrigDomain x ∧ (k.sincos x).1 ≠ k.sin x)

/-- VLOG and VSIN apply their kernel to every lane of the source and do nothing else (R130, R131),
where the machine does not stop at the read of an unwritten source. An unwritten source reads as a
free value and is put on record: the model's choice, log entries 3 and 4. -/
def Obligations.VlogVsinResults : Prop :=
  ∀ (rd rs1 : VReg) (s : State), Readable s [rs1] →
    (∃ t, exec (.vlog rd rs1) s = .next t ∧
      (∀ i : Lane, t.ndb.v[rd][i] = Config.this.kernels.log (readV s rs1)[i]) ∧
      t.ndb.wr[rd] = true ∧ VectorFrame s t [rd] [rs1]) ∧
    (∃ t, exec (.vsin rd rs1) s = .next t ∧
      (∀ i : Lane, t.ndb.v[rd][i] = Config.this.kernels.sin (readV s rs1)[i]) ∧
      t.ndb.wr[rd] = true ∧ VectorFrame s t [rd] [rs1]) ∧
    (s.ndb.wr[rs1] = true → readV s rs1 = s.ndb.v[rs1])

/-- VSINCOS puts the sines into RD and the cosines into RD2 and does nothing else (R132), where the
machine does not stop at the read of an unwritten source. An unwritten source reads as a free value
and is put on record: the model's choice, log entries 3 and 4. -/
def Obligations.VsincosResults : Prop :=
  ∀ (rd rd2 rs1 : VReg) (s : State), rd ≠ rd2 → Readable s [rs1] →
    ∃ t, exec (.vsincos rd rd2 rs1) s = .next t ∧
      (∀ i : Lane, t.ndb.v[rd][i] = (Config.this.kernels.sincos (readV s rs1)[i]).1 ∧
        t.ndb.v[rd2][i] = (Config.this.kernels.sincos (readV s rs1)[i]).2) ∧
      t.ndb.wr[rd] = true ∧ t.ndb.wr[rd2] = true ∧ VectorFrame s t [rd, rd2] [rs1]

/-! ### The combiner -/

/-- COMBINE performs the operations of R140 on every lane, in that order, and does nothing else
(R141), where the machine does not stop at the read of an unwritten source. An unwritten source
reads as a free value and is put on record: the model's choice, log entries 3 and 4. -/
def Obligations.CombineResults : Prop :=
  ∀ (rd rd2 rs1 rs2 : VReg) (s : State), rd ≠ rd2 → Readable s [rs1, rs2] →
    ∃ t, exec (.combine rd rd2 rs1 rs2) s = .next t ∧
      (∀ i : Lane, ∀ u1p l q radius theta sinT cosT : F32,
        u1p = F32.fsub 0x3F800000 (readV s rs1)[i] →
        l = Config.this.kernels.log u1p →
        q = F32.fmul 0xC0000000 l →
        radius = F32.fsqrt q →
        theta = F32.fmul 0x40C90FDB (readV s rs2)[i] →
        (sinT, cosT) = Config.this.kernels.sincos theta →
        t.ndb.v[rd][i] = F32.fmul radius cosT ∧ t.ndb.v[rd2][i] = F32.fmul radius sinT) ∧
      t.ndb.wr[rd] = true ∧ t.ndb.wr[rd2] = true ∧ VectorFrame s t [rd, rd2] [rs1, rs2]

/-- R83: what a command computes does not depend on which registers its destinations name, so a
destination may name a source. That this holds of unwritten sources too, where the machine runs on,
is the model's choice, log entries 3 and 4. -/
def Obligations.SourcesAreReadBeforeDestinations : Prop :=
  ∀ (s : State) (rs1 rs2 rd rd2 rd' rd2' : VReg), rd ≠ rd2 → rd' ≠ rd2' →
    Readable s [rs1, rs2] →
    (∃ t t', exec (.vlog rd rs1) s = .next t ∧ exec (.vlog rd' rs1) s = .next t' ∧
      t.ndb.v[rd] = t'.ndb.v[rd']) ∧
    (∃ t t', exec (.vsin rd rs1) s = .next t ∧ exec (.vsin rd' rs1) s = .next t' ∧
      t.ndb.v[rd] = t'.ndb.v[rd']) ∧
    (∃ t t', exec (.vsincos rd rd2 rs1) s = .next t ∧ exec (.vsincos rd' rd2' rs1) s = .next t' ∧
      t.ndb.v[rd] = t'.ndb.v[rd'] ∧ t.ndb.v[rd2] = t'.ndb.v[rd2']) ∧
    (∃ t t', exec (.combine rd rd2 rs1 rs2) s = .next t ∧
      exec (.combine rd' rd2' rs1 rs2) s = .next t' ∧
      t.ndb.v[rd] = t'.ndb.v[rd'] ∧ t.ndb.v[rd2] = t'.ndb.v[rd2'])

/-- R204, R205: at the read of an unwritten source, RS1 before RS2 and before the memory checks of
VST, a machine whose rule is `stop` stops with UNWRITTEN_READ of that register, and nothing else
makes it stop; so do the machine at reset and every machine that its steps lead to. A machine that
runs on, as the hardware does, has a next state and puts the first such read of the run on record.
That a machine may do either, and the record, are the model's choice, log entry 4. -/
def Obligations.UnwrittenReadStopsOrRunsOn : Prop :=
  State.reset.unwrittenRule = .stop ∧
  (∀ s t : State, step s = .next t → t.unwrittenRule = s.unwrittenRule) ∧
  ∀ (i : Instr) (s : State),
    (∀ n : VReg, s.ndb.wr[n] = false →
      ((∃ rd, i = .vlog rd n ∨ i = .vsin rd n) ∨ (∃ rd rd2, i = .vsincos rd rd2 n) ∨
        (∃ rd rd2 rs2, i = .combine rd rd2 n rs2) ∨
        (∃ rd rd2 rs1, i = .combine rd rd2 rs1 n ∧ s.ndb.wr[rs1] = true) ∨ i = .vst n) →
      (s.unwrittenRule = .stop → exec i s = .fault (.unwrittenRead n)) ∧
      (s.unwrittenRule = .runOn → ∃ t, exec i s = .next t ∧
        (s.unwrittenRead = none → t.unwrittenRead = some n) ∧
        (∀ m, s.unwrittenRead = some m → t.unwrittenRead = some m))) ∧
    (∀ f, exec i s = .fault f → s.unwrittenRule = .stop ∧
      ∃ n ∈ sourcesOf i, f = .unwrittenRead n ∧ s.ndb.wr[n] = false)

/-- R142: the remap 1 − u1 of a generator output is exact and lies in [2^-23, 1]. -/
def Obligations.RemapIsExact : Prop :=
  ∀ s : Word,
    F32.isFinite (F32.fsub 0x3F800000 (toUniform s)) = true ∧
    F32.value (F32.fsub 0x3F800000 (toUniform s)) =
      ((2 ^ 23 - s.toNat / 2 ^ 9 : ℕ) : ℚ) / 2 ^ 23 ∧
    1 / 2 ^ 23 ≤ F32.value (F32.fsub 0x3F800000 (toUniform s)) ∧
    F32.value (F32.fsub 0x3F800000 (toUniform s)) ≤ 1

/-- R143: at u1 = +0 both outputs are zeros, never NaN, with the signs the rule gives; and the signs
under correctly rounded kernels at u2 = 0. -/
def Obligations.PoleGivesZeros : Prop :=
  (∀ c : Config, c.WellFormed → c.twoPi = 0x40C90FDB →
    F32.fsub 0x3F800000 0 = 0x3F800000 ∧
    F32.isZero (c.kernels.log 0x3F800000) = true ∧
    (c.kernels.log 0x3F800000 = 0 →
      F32.fmul 0xC0000000 (c.kernels.log 0x3F800000) = 0x80000000 ∧
      combineRadius c 0 = 0x80000000) ∧
    (c.kernels.log 0x3F800000 = 0x80000000 →
      F32.fmul 0xC0000000 (c.kernels.log 0x3F800000) = 0 ∧ combineRadius c 0 = 0) ∧
    ∀ s : Word, ∀ sinT cosT : F32,
      (sinT, cosT) = c.kernels.sincos (F32.fmul 0x40C90FDB (toUniform s)) →
      F32.isZero (combineLane c 0 (toUniform s)).1 = true ∧
      F32.isNeg (combineLane c 0 (toUniform s)).1 =
        (F32.isNeg (combineRadius c 0) != F32.isNeg cosT) ∧
      F32.isZero (combineLane c 0 (toUniform s)).2 = true ∧
      F32.isNeg (combineLane c 0 (toUniform s)).2 =
        (F32.isNeg (combineRadius c 0) != F32.isNeg sinT)) ∧
  (∀ c : Config, c.kernels.log 0x3F800000 = 0 → c.kernels.sincos 0 = (0, 0x3F800000) →
    c.twoPi = 0x40C90FDB → combineLane c 0 0 = (0x80000000, 0x80000000))

/-- R144: the range of −2 * LOG(1 − u1) and of its root for generator outputs, in every admissible
build; the root is never NaN. -/
def Obligations.RadiusRange : Prop :=
  ∀ c : Config, c.WellFormed → ∀ s : Word, ∀ t : F32,
    t = F32.fmul 0xC0000000 (c.kernels.log (F32.fsub 0x3F800000 (toUniform s))) →
    F32.isFinite t = true ∧ 0 ≤ F32.value t ∧ F32.value t ≤ 31.8848019 ∧
    F32.isNaN (combineRadius c (toUniform s)) = false ∧
    0 ≤ F32.value (combineRadius c (toUniform s)) ∧
    F32.value (combineRadius c (toUniform s)) ≤ 5.6466628 ∧
    F32.mag (combineRadius c (toUniform s)) ≤ 0x40B4B176

/-- R145: theta of a generator output lies in [0, 0x40C90FD9], below the true 2π, so it is in the
domain of SINCOS. -/
def Obligations.ThetaIsInTheDomain : Prop :=
  (∀ s : Word,
    F32.isFinite (F32.fmul 0x40C90FDB (toUniform s)) = true ∧
    F32.isNeg (F32.fmul 0x40C90FDB (toUniform s)) = false ∧
    (F32.fmul 0x40C90FDB (toUniform s)).toNat ≤ 0x40C90FD9 ∧
    F32.TrigDomain (F32.fmul 0x40C90FDB (toUniform s))) ∧
  F32.fmul 0x40C90FDB 0x3F7FFFFE = 0x40C90FD9 ∧
  F32.real 0x40C90FD9 < 2 * Real.pi ∧
  |2 * Real.pi - F32.real 0x40C90FD9 - 7.79e-7| ≤ 1e-9

/-- R146: on generator outputs the combiner's results are finite and bounded, in every admissible
build. -/
def Obligations.CombinerOutputsAreFinite : Prop :=
  ∀ c : Config, c.WellFormed → c.twoPi = 0x40C90FDB → ∀ s1 s2 : Word, ∀ z : F32,
    z = (combineLane c (toUniform s1) (toUniform s2)).1 ∨
      z = (combineLane c (toUniform s1) (toUniform s2)).2 →
    F32.isFinite z = true ∧ |F32.value z| ≤ 5.646668 ∧ F32.mag z ≤ 0x40B4B181

/-! ### FILL -/

/-- R161: the checks of FILL, in order, each fault with its information and nothing else done; when
all pass, no fault is raised. -/
def Obligations.FillChecksInOrder : Prop :=
  ∀ s : State, ¬ s.ndb.fillIdx < s.ndb.fillNb → ∃ t, exec .fill s = .next t ∧
    t.unwrittenRead = s.unwrittenRead ∧
    if s.ndb.addr = 0 then Raised s t 2 s.ndb.addr
    else if s.ndb.addr.toNat % 32 ≠ 0 then Raised s t 3 s.ndb.addr
    else if s.ndb.count.toNat % 16 ≠ 0 then Raised s t 4 s.ndb.count
    else if s.ndb.addr.toNat + 4 * s.ndb.count.toNat > 2 ^ 64 then Raised s t 5 s.ndb.addr
    else t.ndb.status.err = s.ndb.status.err

/-- R163: COUNT = 0 completes at once, with no draw and no access, when ADDR is non-null and
aligned; otherwise ADDR faults even so. -/
def Obligations.FillOfNothingCompletes : Prop :=
  ∀ s : State, ¬ s.ndb.fillIdx < s.ndb.fillNb → s.ndb.count = 0 →
    (s.ndb.addr ≠ 0 → s.ndb.addr.toNat % 32 = 0 → ∃ t, exec .fill s = .next t ∧
      Completed s t ∧ t.ndb.gen = s.ndb.gen ∧ SameMemory s t ∧ SameBatches s t [] ∧
      SameRegisters s t ∧ SameOutside s t ∧ t.unwrittenRead = s.unwrittenRead ∧
      t.ndb.fillNb = 0 ∧ t.ndb.fillIdx = 0) ∧
    (s.ndb.addr = 0 → ∃ t, exec .fill s = .next t ∧ Raised s t 2 0) ∧
    (s.ndb.addr ≠ 0 → s.ndb.addr.toNat % 32 ≠ 0 →
      ∃ t, exec .fill s = .next t ∧ Raised s t 3 s.ndb.addr)

/-- R162: the first step of a FILL with blocks to write sets FILL_NB = COUNT / 16 exactly, at most
2^58, and FILL_IDX = 0, and changes nothing else; BUSY stays (R166). -/
def Obligations.FillStartCountsBlocks : Prop :=
  ∀ s : State, ¬ s.ndb.fillIdx < s.ndb.fillNb → s.ndb.addr ≠ 0 → s.ndb.addr.toNat % 32 = 0 →
    s.ndb.count.toNat % 16 = 0 → s.ndb.addr.toNat + 4 * s.ndb.count.toNat ≤ 2 ^ 64 →
    s.ndb.count ≠ 0 →
    ∃ t, exec .fill s = .next t ∧ 16 * t.ndb.fillNb.toNat = s.ndb.count.toNat ∧
      t.ndb.fillNb.toNat ≤ 2 ^ 58 ∧ t.ndb.fillIdx = 0 ∧ t.ndb.status = s.ndb.status ∧
      t.ndb.faultInfo = s.ndb.faultInfo ∧ t.ndb.gen = s.ndb.gen ∧ SameMemory s t ∧
      SameBatches s t [] ∧ SameRegisters s t ∧ SameOutside s t ∧
      t.unwrittenRead = s.unwrittenRead

/-- R165: one block of FILL: what it stores and where, what it leaves alone, the two refusals with
neither half written; and from any state DRAW, DRAW and COMBINE compute what a block stores. -/
def Obligations.FillBlockStoresTwoBatches : Prop :=
  ∀ (s : State) (S1 S2 : Lane → Word),
    (∀ i : Lane, S1 i = lcgStep Config.this s.ndb.gen[i]) →
    (∀ i : Lane, S2 i = lcgStep Config.this (S1 i)) →
    (∀ a0 : Nat, s.ndb.fillIdx < s.ndb.fillNb → Memory.wf s.mem = true →
      a0 = s.ndb.addr.toNat + 64 * s.ndb.fillIdx.toNat →
      (s.admits a0 = true → s.admits (a0 + 32) = true → ∃ t, exec .fill s = .next t ∧
        (∀ i : Lane, t.ndb.gen[i] = S2 i ∧
          Memory.readWord t.mem (a0 + 4 * i.val) =
            (combineLane Config.this (toUniform (S1 i)) (toUniform (S2 i))).1 ∧
          Memory.readWord t.mem (a0 + 32 + 4 * i.val) =
            (combineLane Config.this (toUniform (S1 i)) (toUniform (S2 i))).2) ∧
        SameMemoryOutside s t a0 64 ∧ SameBatches s t [] ∧ SameRegisters s t ∧ SameOutside s t ∧
        t.unwrittenRead = s.unwrittenRead ∧ t.ndb.fillNb = s.ndb.fillNb ∧
        t.ndb.fillIdx = s.ndb.fillIdx + 1 ∧
        (if s.ndb.fillIdx + 1 = s.ndb.fillNb then Completed s t
          else t.ndb.status = s.ndb.status ∧ t.ndb.faultInfo = s.ndb.faultInfo)) ∧
      (s.admits a0 = false → ∃ t, exec .fill s = .next t ∧ Raised s t 6 (BitVec.ofNat 64 a0)) ∧
      (s.admits a0 = true → s.admits (a0 + 32) = false → ∃ t, exec .fill s = .next t ∧
        Raised s t 6 (BitVec.ofNat 64 (a0 + 32)))) ∧
    (∀ va vb vc vd : VReg, va ≠ vb → vc ≠ vd →
      ∃ t, runCommands [.draw va, .draw vb, .combine vc vd va vb] s = .next t ∧
        ∀ i : Lane, t.ndb.gen[i] = S2 i ∧
          t.ndb.v[vc][i] = (combineLane Config.this (toUniform (S1 i)) (toUniform (S2 i))).1 ∧
          t.ndb.v[vd][i] = (combineLane Config.this (toUniform (S1 i)) (toUniform (S2 i))).2)

/-- R168: a step of FILL changes no batch register, no written-flag, neither ADDR, COUNT nor SEED;
its only effects are on `S`, the buffer, STATUS, FILL's own sequencing registers and, on a fault,
FAULTINFO; its first step stores nothing and draws nothing. -/
def Obligations.FillTouchesNothingElse : Prop :=
  ∀ s t : State, Memory.wf s.mem = true → exec .fill s = .next t →
    t.ndb.v = s.ndb.v ∧ t.ndb.wr = s.ndb.wr ∧ SameRegisters s t ∧ SameOutside s t ∧
    t.unwrittenRead = s.unwrittenRead ∧
    (¬ s.ndb.fillIdx < s.ndb.fillNb → t.mem = s.mem ∧ t.ndb.gen = s.ndb.gen) ∧
    (s.ndb.fillIdx < s.ndb.fillNb →
      SameMemoryOutside s t (s.ndb.addr.toNat + 64 * s.ndb.fillIdx.toNat) 64) ∧
    t.ndb.status.ovr = s.ndb.status.ovr ∧
    (s.ndb.status.err = false → t.ndb.status.err = false → t.ndb.faultInfo = s.ndb.faultInfo)

/-- R164, R169 (with R166 and R167): a FILL that the platform admits completes after `1 + FILL_NB`
Core steps; every element of the buffer has the value and the place the rules give it and is
finite and bounded; no byte outside is changed; every lane advanced by 2 * FILL_NB steps. -/
def Obligations.FillRunsToCompletion : Prop :=
  ∀ s : State, s.script = [] → s.ndb.status.busy = true → s.ndb.cur = 2 →
    s.ndb.fillIdx = s.ndb.fillNb → Memory.wf s.mem = true →
    s.ndb.addr ≠ 0 → s.ndb.addr.toNat % 32 = 0 → s.ndb.count.toNat % 16 = 0 →
    s.ndb.addr.toNat + 4 * s.ndb.count.toNat ≤ 2 ^ 64 →
    (∀ b < s.ndb.count.toNat / 16, s.admits (s.ndb.addr.toNat + 64 * b) = true ∧
      s.admits (s.ndb.addr.toNat + 64 * b + 32) = true) →
    ∃ t : State, Host.Core.run Sys2Proof.core (1 + s.ndb.count.toNat / 16) s = .next t ∧
      Completed s t ∧
      (∀ i : Lane, t.ndb.gen[i] =
        (lcgStep Config.this)^[2 * (s.ndb.count.toNat / 16)] s.ndb.gen[i]) ∧
      (∀ b < s.ndb.count.toNat / 16, ∀ i : Lane, ∀ z : F32 × F32,
        z = combineLane Config.this
          (toUniform ((lcgStep Config.this)^[2 * b + 1] s.ndb.gen[i]))
          (toUniform ((lcgStep Config.this)^[2 * b + 2] s.ndb.gen[i])) →
        Memory.readWord t.mem (s.ndb.addr.toNat + 64 * b + 4 * i.val) = z.1 ∧
        Memory.readWord t.mem (s.ndb.addr.toNat + 64 * b + 32 + 4 * i.val) = z.2) ∧
      (∀ e < s.ndb.count.toNat, ∀ z : F32,
        z = Memory.readWord t.mem (s.ndb.addr.toNat + 4 * e) →
        F32.isFinite z = true ∧ |F32.value z| ≤ 5.646668) ∧
      SameMemoryOutside s t s.ndb.addr.toNat (4 * s.ndb.count.toNat) ∧
      t.ndb.v = s.ndb.v ∧ t.ndb.wr = s.ndb.wr ∧ SameRegisters s t ∧ SameOutside s t ∧
      t.unwrittenRead = s.unwrittenRead

/-- R170, R202: a FILL whose first refused access is in block `b` faults with MEM_ACCESS at that
access; blocks 0 to b−1 are written, no byte from block `b` on is changed, and every lane advanced
by 2 * b steps. -/
def Obligations.FillFaultsAtTheRefusedBlock : Prop :=
  ∀ (s : State) (b : Nat), s.script = [] → s.ndb.status.busy = true → s.ndb.cur = 2 →
    s.ndb.fillIdx = s.ndb.fillNb → Memory.wf s.mem = true →
    s.ndb.addr ≠ 0 → s.ndb.addr.toNat % 32 = 0 → s.ndb.count.toNat % 16 = 0 →
    s.ndb.addr.toNat + 4 * s.ndb.count.toNat ≤ 2 ^ 64 → b < s.ndb.count.toNat / 16 →
    (∀ b' < b, s.admits (s.ndb.addr.toNat + 64 * b') = true ∧
      s.admits (s.ndb.addr.toNat + 64 * b' + 32) = true) →
    ¬(s.admits (s.ndb.addr.toNat + 64 * b) = true ∧
      s.admits (s.ndb.addr.toNat + 64 * b + 32) = true) →
    ∃ t : State, Host.Core.run Sys2Proof.core (2 + b) s = .next t ∧
      t.ndb.status = { s.ndb.status with busy := false, done := false, err := true, code := 6 } ∧
      t.ndb.faultInfo.toNat =
        (if s.admits (s.ndb.addr.toNat + 64 * b) = false then s.ndb.addr.toNat + 64 * b
          else s.ndb.addr.toNat + 64 * b + 32) ∧
      (∀ i : Lane, t.ndb.gen[i] = (lcgStep Config.this)^[2 * b] s.ndb.gen[i]) ∧
      (∀ b' < b, ∀ i : Lane, ∀ z : F32 × F32,
        z = combineLane Config.this
          (toUniform ((lcgStep Config.this)^[2 * b' + 1] s.ndb.gen[i]))
          (toUniform ((lcgStep Config.this)^[2 * b' + 2] s.ndb.gen[i])) →
        Memory.readWord t.mem (s.ndb.addr.toNat + 64 * b' + 4 * i.val) = z.1 ∧
        Memory.readWord t.mem (s.ndb.addr.toNat + 64 * b' + 32 + 4 * i.val) = z.2) ∧
      SameMemoryOutside s t s.ndb.addr.toNat (64 * b) ∧
      t.ndb.v = s.ndb.v ∧ t.ndb.wr = s.ndb.wr ∧ SameRegisters s t ∧ SameOutside s t

/-! ### Transfer and control -/

/-- R180: NOP only completes; only the word 0 is NOP; while ERR = 1 it is dropped; the example. -/
def Obligations.NopOnlyCompletes : Prop :=
  (∀ s : State, exec .nop s = .next { s with ndb := { s.ndb with
    status := { s.ndb.status with busy := false, done := true } } }) ∧
  (∀ w : Word, w.toNat % 256 = 0 → if w = 0 then decode w = .instr .nop
    else ∃ why, decode w = .illegal why) ∧
  (∀ s : State, s.ndb.status.err = true → windowWrite s 0 .cmd =
    { s with ndb := { s.ndb with status := { s.ndb.status with ovr := true } } }) ∧
  (∃ t : State, Host.Core.run Sys2Proof.core 2
      { State.reset with script := [.host (.writeReg .cmd 0)] } = .next t ∧
    t.ndb.status.word = 2)

/-- R181: the checks of VLD and VST, in order, each fault with ADDR in FAULTINFO and nothing else
done; an aligned address never fails the RANGE check. R56: which accesses are admitted, so that one
that overlaps the register window raises MEM_ACCESS. That an access is admitted in a range of the
platform's list is the model's form, log entry 9; that VST goes on to its checks with an unwritten
source, and puts it on record, is its choice, log entry 4. -/
def Obligations.VectorMemoryChecksInOrder : Prop :=
  (∀ (s : State) (r : VReg), checkVec s ≠ none → ∃ code : BitVec 4,
      code = (if s.ndb.addr = 0 then 2 else if s.ndb.addr.toNat % 32 ≠ 0 then 3
        else if s.ndb.addr.toNat + 32 > 2 ^ 64 then 5 else 6) ∧
      (∃ t, exec (.vld r) s = .next t ∧ Raised s t code s.ndb.addr ∧
        t.unwrittenRead = s.unwrittenRead) ∧
      (Readable s [r] → ∃ t, exec (.vst r) s = .next t ∧ Raised s t code s.ndb.addr ∧
        Recorded s t [r])) ∧
  (∀ s : State, checkVec s = none ↔ s.ndb.addr ≠ 0 ∧ s.ndb.addr.toNat % 32 = 0 ∧
    s.ndb.addr.toNat + 32 ≤ 2 ^ 64 ∧ s.admits s.ndb.addr.toNat = true) ∧
  (∀ a : DWord, a.toNat % 32 = 0 → a.toNat + 32 ≤ 2 ^ 64) ∧
  (∀ (s : State) (a : Nat), s.admits a = true ↔ a + 32 ≤ 2 ^ 64 ∧
    (a + 32 ≤ s.windowBase.toNat ∨ s.windowBase.toNat + 64 ≤ a) ∧
    ∃ r ∈ s.regions, r.base ≤ a ∧ a + 32 ≤ r.base + r.size) ∧
  (∀ (s : State) (r : VReg), s.ndb.addr ≠ 0 → s.ndb.addr.toNat % 32 = 0 →
    s.ndb.addr.toNat < s.windowBase.toNat + 64 → s.windowBase.toNat < s.ndb.addr.toNat + 32 →
    (∃ t, exec (.vld r) s = .next t ∧ Raised s t 6 s.ndb.addr) ∧
    (Readable s [r] → ∃ t, exec (.vst r) s = .next t ∧ Raised s t 6 s.ndb.addr))

/-- R182: VLD loads the 32 bytes at ADDR, little-endian, every bit pattern unchanged; its encoding;
on a fault the destination keeps its value and written-flag. -/
def Obligations.VldLoadsABatch : Prop :=
  (∀ (s : State) (rd : VReg), s.ndb.addr ≠ 0 → s.ndb.addr.toNat % 32 = 0 →
    s.admits s.ndb.addr.toNat = true → ∃ t, exec (.vld rd) s = .next t ∧
      (∀ i : Lane, ∀ a : Nat, a = s.ndb.addr.toNat + 4 * i.val →
        t.ndb.v[rd][i].toNat = (Memory.read s.mem a).toNat + 2 ^ 8 * (Memory.read s.mem (a + 1)).toNat
          + 2 ^ 16 * (Memory.read s.mem (a + 2)).toNat + 2 ^ 24 * (Memory.read s.mem (a + 3)).toNat) ∧
      t.ndb.wr[rd] = true ∧ VectorFrame s t [rd] []) ∧
  (∀ (w : Word) (rd : VReg), decode w = .instr (.vld rd) ↔ w.toNat = 0x20 + rd.val * 2 ^ 8) ∧
  (∀ (s t : State) (rd : VReg), exec (.vld rd) s = .next t → s.ndb.status.err = false →
    t.ndb.status.err = true → t.ndb.v = s.ndb.v ∧ t.ndb.wr = s.ndb.wr ∧
      t.ndb.status.code ∈ [2, 3, 5, 6])

/-- VST stores the lanes of its source at ADDR, bits unchanged, and no other byte (R183), where the
machine does not stop at the read of an unwritten source. An unwritten source reads as a free value
and is put on record: the model's choice, log entries 3 and 4. -/
def Obligations.VstStoresABatch : Prop :=
  ∀ (s : State) (rs1 : VReg), Memory.wf s.mem = true → s.ndb.addr ≠ 0 →
    s.ndb.addr.toNat % 32 = 0 → s.admits s.ndb.addr.toNat = true → Readable s [rs1] →
    ∃ t, exec (.vst rs1) s = .next t ∧
      (∀ i : Lane, Memory.readWord t.mem (s.ndb.addr.toNat + 4 * i.val) = (readV s rs1)[i]) ∧
      SameMemoryOutside s t s.ndb.addr.toNat 32 ∧ Completed s t ∧ SameBatches s t [] ∧
      t.ndb.gen = s.ndb.gen ∧ SameRegisters s t ∧ SameFill s t ∧ SameOutside s t ∧
      Recorded s t [rs1]

/-- R52: the bytes of a stored batch are the little-endian bytes of its lanes, lane 0 lowest, and a
word or a batch read of the same bytes agrees. -/
def Obligations.MemoryIsLittleEndian : Prop :=
  ∀ (m : Memory) (a : Nat) (v : Batch), Memory.wf m = true → a + 32 ≤ 2 ^ 64 →
    (∀ (i : Lane) (k : Fin 4),
      (Memory.read (Memory.writeBatch m a v) (a + 4 * i.val + k.val)).toNat =
        v[i].toNat / 2 ^ (8 * k.val) % 2 ^ 8) ∧
    (∀ i : Lane, Memory.readWord (Memory.writeBatch m a v) (a + 4 * i.val) = v[i]) ∧
    Memory.readBatch (Memory.writeBatch m a v) a = v

/-! ### Faults -/

/-- R201: when a step of the Core takes a fault, STATUS and FAULTINFO change as the rule says and
nothing else does. -/
def Obligations.FaultEntry : Prop :=
  ∀ s t : State, s.script = [] → s.ndb.status.busy = true → s.ndb.status.err = false →
    step s = .next t → t.ndb.status.err = true →
    ∃ (code : BitVec 4) (info : DWord), Raised s t code info ∧ 1 ≤ code.toNat ∧ code.toNat ≤ 6

/-- R200: which commands raise which codes, on which condition, and what FAULTINFO then holds; a
legal DRAW, RESEED, NOP, VLOG, VSIN, VSINCOS or COMBINE raises none. That RANGE is FILL's alone
follows from R181. -/
def Obligations.FaultCodesByCommand : Prop :=
  ∀ s t : State, s.script = [] → s.ndb.status.busy = true → s.ndb.status.err = false →
    step s = .next t → t.ndb.status.err = true →
    ((∃ why, decode s.ndb.cur = .illegal why) ∧ t.ndb.status.code = 1 ∧
      t.ndb.faultInfo = s.ndb.cur.setWidth 64) ∨
    ∃ i : Instr, decode s.ndb.cur = .instr i ∧
      (i = .fill ∨ (∃ r, i = .vld r) ∨ ∃ r, i = .vst r) ∧
      ((t.ndb.status.code = 2 ∧ s.ndb.addr = 0 ∧ t.ndb.faultInfo = 0) ∨
        (t.ndb.status.code = 3 ∧ s.ndb.addr.toNat % 32 ≠ 0 ∧ t.ndb.faultInfo = s.ndb.addr) ∨
        (t.ndb.status.code = 4 ∧ i = .fill ∧ s.ndb.count.toNat % 16 ≠ 0 ∧
          t.ndb.faultInfo = s.ndb.count) ∨
        (t.ndb.status.code = 5 ∧ i = .fill ∧
          s.ndb.addr.toNat + 4 * s.ndb.count.toNat > 2 ^ 64 ∧ t.ndb.faultInfo = s.ndb.addr) ∨
        (t.ndb.status.code = 6 ∧ ∃ a : Nat, s.admits a = false ∧
          t.ndb.faultInfo = BitVec.ofNat 64 a ∧
          (if i = .fill then a = s.ndb.addr.toNat + 64 * s.ndb.fillIdx.toNat ∨
            a = s.ndb.addr.toNat + 64 * s.ndb.fillIdx.toNat + 32 else a = s.ndb.addr.toNat)))

/-- R203: after a fault the core is halted: whatever the Host does but reset, no command runs, no
flag of the fault is cleared and OVR stays; a CMD write is dropped with OVR, other register writes
and all reads work. -/
def Obligations.CoreIsHaltedAfterAFault : Prop :=
  ∀ s t : State, s.ndb.status.err = true → s.ndb.status.busy = false → step s = .next t →
    (∀ rest, s.script ≠ .host .reset :: rest) →
    t.ndb.status.err = true ∧ t.ndb.status.code = s.ndb.status.code ∧
    t.ndb.status.busy = false ∧ t.ndb.faultInfo = s.ndb.faultInfo ∧
    (s.ndb.status.ovr = true → t.ndb.status.ovr = true) ∧
    t.ndb.gen = s.ndb.gen ∧ t.ndb.v = s.ndb.v ∧ t.ndb.wr = s.ndb.wr ∧ t.ndb.cur = s.ndb.cur ∧
    (∀ w rest, s.script = .host (.writeReg .cmd w) :: rest → t.ndb.status.ovr = true) ∧
    (∀ w rest, s.script = .host (.writeReg .addr w) :: rest → t.ndb.addr = w) ∧
    (∀ w rest, s.script = .host (.writeReg .count w) :: rest → t.ndb.count = w) ∧
    (∀ w rest, s.script = .host (.writeReg .seed w) :: rest → t.ndb.seed = w.setWidth 32) ∧
    (∀ r rest, s.script = .host (.readReg r) :: rest → t.hostData = windowRead s r)

/-! ### The register window and the Host -/

/-- R27: a CMD write is accepted exactly when BUSY = 0 and ERR = 0; the Core then runs the latched
word; CMD reads 0. -/
def Obligations.CmdWriteIsAcceptedOrDropped : Prop :=
  ∀ (s : State) (w : DWord) (rest : List Turn), s.script = .host (.writeReg .cmd w) :: rest →
    (s.ndb.status.busy = false → s.ndb.status.err = false →
      step s = .next { s with script := rest, ndb := { s.ndb with
        status := { s.ndb.status with busy := true, done := false }
        cur := w.setWidth 32 } }) ∧
    (s.ndb.status.busy = false → s.ndb.status.err = false → rest = [] →
      ∀ i : Instr, decode (w.setWidth 32) = .instr i →
        ∃ t, step s = .next t ∧ step t = exec i t) ∧
    (s.ndb.status.busy = true ∨ s.ndb.status.err = true →
      step s = .next { s with script := rest, ndb := { s.ndb with
        status := { s.ndb.status with ovr := true } } }) ∧
    windowRead s .cmd = 0

/-- R36: which Host writes are dropped, which are ignored and which take effect; reads always return
current values. -/
def Obligations.HostWritesWhileBusyOrFaulted : Prop :=
  ∀ (s : State) (w : DWord) (rest : List Turn),
    (∀ r, r = .cmd ∨ r = .addr ∨ r = .count ∨ r = .seed →
      s.script = .host (.writeReg r w) :: rest → s.ndb.status.busy = true →
      step s = .next { s with script := rest, ndb := { s.ndb with
        status := { s.ndb.status with ovr := true } } }) ∧
    (s.ndb.status.err = true → s.ndb.status.busy = false →
      (s.script = .host (.writeReg .cmd w) :: rest →
        step s = .next { s with script := rest, ndb := { s.ndb with
          status := { s.ndb.status with ovr := true } } }) ∧
      (s.script = .host (.writeReg .addr w) :: rest →
        step s = .next { s with script := rest, ndb := { s.ndb with addr := w } }) ∧
      (s.script = .host (.writeReg .count w) :: rest →
        step s = .next { s with script := rest, ndb := { s.ndb with count := w } }) ∧
      (s.script = .host (.writeReg .seed w) :: rest →
        step s = .next { s with script := rest, ndb := { s.ndb with seed := w.setWidth 32 } })) ∧
    (∀ r, r = .status ∨ r = .faultInfo ∨ r = .params ∨ r = .reserved →
      s.script = .host (.writeReg r w) :: rest → step s = .next { s with script := rest }) ∧
    (∀ r, s.script = .host (.readReg r) :: rest →
      step s = .next { s with script := rest, hostData := windowRead s r })

/-- R28: the bits of STATUS as the Host reads it. -/
def Obligations.StatusBits : Prop :=
  ∀ s : State, ∀ w : DWord, w = windowRead s .status →
    w.getLsbD 0 = s.ndb.status.busy ∧ w.getLsbD 1 = s.ndb.status.done ∧
    w.getLsbD 2 = s.ndb.status.err ∧ w.getLsbD 3 = s.ndb.status.ovr ∧
    w.toNat / 2 ^ 4 % 2 ^ 4 = 0 ∧ w.toNat / 2 ^ 8 % 2 ^ 4 = s.ndb.status.code.toNat ∧
    w.toNat / 2 ^ 12 = 0

/-- R31, R34: PARAMS is the constant 0x0000000001200808 and the reserved offset reads 0; writes of
both are ignored and do not set OVR. -/
def Obligations.ConstantRegisters : Prop :=
  ∀ s : State, ∀ w : DWord, windowRead s .params = 0x0000000001200808 ∧
    windowWrite s w .params = s ∧ windowRead s .reserved = 0 ∧ windowWrite s w .reserved = s

/-- R32: SEED keeps the low 32 bits of a write and reads back with the high 32 bits 0; writing it
does not change the generator; it is the base seed of RESEED; it resets to 1. -/
def Obligations.SeedRegister : Prop :=
  (∀ (s : State) (w : DWord), s.ndb.status.busy = false →
    (windowRead (windowWrite s w .seed) .seed).toNat = w.toNat % 2 ^ 32 ∧
    (windowWrite s w .seed).ndb.gen = s.ndb.gen ∧
    ∃ t, exec .reseed (windowWrite s w .seed) = .next t ∧
      ∀ i : Lane, t.ndb.gen[i].toNat = (w.toNat % 2 ^ 32 + i.val * 0x9E3779B9) % 2 ^ 32) ∧
  windowRead State.reset .seed = 1

/-- R29: ADDR reads back the last value the Host wrote, any 64-bit value, and no command changes
it; the same of COUNT (R30). -/
def Obligations.AddrAndCountBelongToTheHost : Prop :=
  (∀ (s : State) (w : DWord), s.ndb.status.busy = false →
    windowRead (windowWrite s w .addr) .addr = w ∧
    windowRead (windowWrite s w .count) .count = w) ∧
  (∀ (i : Instr) (s t : State), exec i s = .next t →
    windowRead t .addr = windowRead s .addr ∧ windowRead t .count = windowRead s .count)

/-- R22, R24, R50: only the writers the spec names write batch registers, the generator and memory;
ADDR, COUNT, SEED, CUR and the Host's side are written by no command. Every command whose sources
can be read has a next state (R11; that unwritten ones can be, where the machine runs on, is the
model's choice, log entry 4). -/
def Obligations.OnlyTheWritersWrite : Prop :=
  ∀ (i : Instr) (s : State),
    (Readable s (sourcesOf i) → ∃ t, exec i s = .next t) ∧
    ∀ t, exec i s = .next t →
      SameOutside s t ∧ SameRegisters s t ∧
      ((∀ rd, i ≠ .draw rd) → i ≠ .reseed → i ≠ .fill → t.ndb.gen = s.ndb.gen) ∧
      (i = .nop ∨ i = .reseed ∨ i = .fill ∨ (∃ r, i = .vst r) →
        t.ndb.v = s.ndb.v ∧ t.ndb.wr = s.ndb.wr) ∧
      (i ≠ .fill → (∀ r, i ≠ .vst r) → t.mem = s.mem) ∧
      (i ≠ .fill → SameFill s t) ∧
      (∀ n : VReg, s.ndb.wr[n] = true → t.ndb.wr[n] = true)

/-- R60, R220: a Host write of a memory byte is refused on the bytes of the register window and on
the memory operand of the running command, and otherwise writes that byte and no other. -/
def Obligations.HostMemoryWrites : Prop :=
  ∀ (s : State) (a : DWord) (b : Byte) (rest : List Turn),
    s.script = .host (.writeMem a b) :: rest → Memory.wf s.mem = true →
    ∀ (window operand : Prop),
      (window ↔ s.windowBase.toNat ≤ a.toNat ∧ a.toNat < s.windowBase.toNat + 64) →
      (operand ↔ s.ndb.status.busy = true ∧ s.ndb.addr.toNat ≤ a.toNat ∧
        ((s.ndb.cur = 2 ∧ a.toNat < s.ndb.addr.toNat + 4 * s.ndb.count.toNat) ∨
          ((∃ r, decode s.ndb.cur = .instr (.vld r) ∨ decode s.ndb.cur = .instr (.vst r)) ∧
            a.toNat < s.ndb.addr.toNat + 32))) →
      (window → step s = .refused .windowAsMemory) ∧
      (¬window → operand → step s = .refused .operandInUse) ∧
      (¬window → ¬operand → ∃ t, step s = .next t ∧ t.ndb = s.ndb ∧
        ∀ x, Memory.read t.mem x = if x = a.toNat then b else Memory.read s.mem x)

/-- R208: a CMD write that races the completion of a one-step command is dropped with OVR if it comes
first and accepted if the completion does; both runs exist. The command is any but FILL, its sources
readable (log entry 4) and, for VLD and VST, its checks passed. -/
def Obligations.RacingCmdWrite : Prop :=
  ∀ (s : State) (w : DWord) (i : Instr), s.ndb.status.busy = true → s.ndb.status.err = false →
    decode s.ndb.cur = .instr i → i ≠ .fill → Readable s (sourcesOf i) →
    ((∃ r, i = .vld r ∨ i = .vst r) → checkVec s = none) →
    (∃ t : State, Host.Core.run Sys2Proof.core 2
        { s with script := [.host (.writeReg .cmd w), .core] } = .next t ∧
      t.ndb.status.ovr = true ∧ t.ndb.status.busy = false ∧ t.ndb.status.done = true ∧
      t.ndb.cur = s.ndb.cur) ∧
    (∃ t : State, Host.Core.run Sys2Proof.core 2
        { s with script := [.core, .host (.writeReg .cmd w)] } = .next t ∧
      t.ndb.status.ovr = s.ndb.status.ovr ∧ t.ndb.status.busy = true ∧
      t.ndb.status.done = false ∧ t.ndb.cur = w.setWidth 32)

/-! ### Reset and the invariant -/

/-- R240: what reset leaves, from every state: the generator constructed from SEED0 = 1, as a RESEED
then leaves it, no batch register written, every register at its reset value, memory unchanged. -/
def Obligations.ResetValues : Prop :=
  ∀ (s : State) (rest : List Turn), s.script = .host .reset :: rest →
    ∃ t, step s = .next t ∧
      (∀ i : Lane, t.ndb.gen[i].toNat = (1 + i.val * 0x9E3779B9) % 2 ^ 32) ∧
      t.ndb.seed = 1 ∧ (∀ n : VReg, t.ndb.wr[n] = false) ∧ t.ndb.addr = 0 ∧ t.ndb.count = 0 ∧
      windowRead t .status = 0 ∧ t.ndb.faultInfo = 0 ∧ t.ndb.cur = 0 ∧ t.ndb.fillNb = 0 ∧
      t.ndb.fillIdx = 0 ∧ windowRead t .params = 0x0000000001200808 ∧ t.mem = s.mem ∧
      ∃ u, exec .reseed { t with script := [] } = .next u ∧ u.ndb.gen = t.ndb.gen

/-- R241, R242: reset abandons a running command: no further step of it happens and nothing is
reported for it; then the core is idle and accepts the first CMD write. That an idle Core's steps
answer the same state is the model's choice, log entry 12. -/
def Obligations.ResetAbandonsTheCommand : Prop :=
  ∀ (s : State), s.script = [.host .reset] →
    ∃ t, step s = .next t ∧ t.mem = s.mem ∧ t.ndb.status.busy = false ∧
      t.ndb.status.done = false ∧ t.ndb.status.err = false ∧
      (∀ n : Nat, Host.Core.run Sys2Proof.core n t = .next t) ∧
      ∀ (w : DWord), ∃ u, step { t with script := [.host (.writeReg .cmd w)] } = .next u ∧
        u.ndb.status.busy = true ∧ u.ndb.cur = w.setWidth 32 ∧ u.ndb.status.ovr = false

/-- The invariant holds at reset. -/
def Obligations.InvariantHoldsAtReset : Prop := State.reset.Inv

/-- R28, R37 and the canonical form of memory: every step keeps the invariant, from every state that
meets it. -/
def Obligations.EveryStepKeepsTheInvariant : Prop :=
  ∀ s t : State, s.Inv → step s = .next t → t.Inv
end

