-- ==== Sys2Proof/Laws/Lanes.lean ====
section
/-! SUPPORT. Lanes and the register file: reading what was written, equality lane by lane. -/

namespace Sys2Proof

@[simp] theorem Lanes.of_getElem {α : Type} (f : Lane → α) (i : Lane) : (Lanes.of f)[i] = f i := by
  match i with
  | 0 => rfl
  | 1 => rfl
  | 2 => rfl
  | 3 => rfl
  | 4 => rfl
  | 5 => rfl
  | 6 => rfl
  | 7 => rfl

/-- The same with the lane number as a natural, which is how `simp` writes it. -/
@[simp] theorem Lanes.of_getElem_val {α : Type} (f : Lane → α) (i : Lane) :
    (Lanes.of f)[i.val] = f i := Lanes.of_getElem f i

/-- Two batches with equal lanes are equal. -/
theorem Lanes.ext {α : Type} {a b : Lanes α} (h : ∀ i : Lane, a[i] = b[i]) : a = b :=
  Vector.ext fun i hi => h ⟨i, hi⟩

/-- A register file entry just written. -/
@[simp] theorem Machine.vset_self {α : Type} (v : Vector α 8) (n : Fin 8) (x : α) :
    (v.set n x)[n] = x := by simp

/-- Every other entry stays. -/
theorem Machine.vset_other {α : Type} (v : Vector α 8) {n m : Fin 8} (x : α) (h : m ≠ n) :
    (v.set n x)[m] = v[m] := by
  have : n.val ≠ m.val := fun e => h (Fin.ext e.symm)
  simp [this]

end Sys2Proof
end

