-- ==== Sys2Proof/Laws/Memory.lean ====
section
/-! SUPPORT. The memory laws: a byte written is read back, every other byte stays, and every
operation keeps the canonical form. -/

namespace Sys2Proof.Machine

theorem Memory.wfFrom_cons {lo k : Nat} {b : Byte} {m : Memory} :
    Memory.wfFrom lo ((k, b) :: m) = true ↔
      lo ≤ k ∧ k < 2 ^ 64 ∧ b ≠ Memory.unlisted ∧ Memory.wfFrom (k + 1) m = true := by
  simp only [Memory.wfFrom, Bool.and_eq_true, decide_eq_true_eq, bne_iff_ne, ne_eq, and_assoc]

theorem Memory.wfFrom_mono {lo hi : Nat} (h : lo ≤ hi) {m : Memory} (w : Memory.wfFrom hi m = true) :
    Memory.wfFrom lo m = true := by
  match m with
  | [] => rfl
  | (k, b) :: m =>
    rw [Memory.wfFrom_cons] at *
    exact ⟨h.trans w.1, w.2⟩

/-- Nothing is listed below where the listing starts. -/
theorem Memory.read_of_lt {lo a : Nat} {m : Memory} (w : Memory.wfFrom lo m = true) (h : a < lo) :
    Memory.read m a = Memory.unlisted := by
  induction m generalizing lo with
  | nil => rfl
  | cons c m ih =>
    obtain ⟨k, b⟩ := c
    rw [Memory.wfFrom_cons] at w
    rw [Memory.read, if_neg (by omega)]
    exact ih w.2.2.2 (by omega)

/-- A write keeps the canonical form. -/
theorem Memory.wfFrom_write {lo a : Nat} {m : Memory} (b : Byte) (w : Memory.wfFrom lo m = true)
    (hlo : lo ≤ a) (ha : a < 2 ^ 64) : Memory.wfFrom lo (Memory.write m a b) = true := by
  induction m generalizing lo with
  | nil =>
    unfold Memory.write
    split
    · rfl
    · rename_i hb
      exact Memory.wfFrom_cons.2 ⟨hlo, ha, hb, rfl⟩
  | cons c m ih =>
    obtain ⟨k, d⟩ := c
    obtain ⟨h1, h2, h3, h4⟩ := Memory.wfFrom_cons.1 w
    rw [Memory.write]
    split
    · rename_i hk
      split
      · exact w
      · rename_i hb
        exact Memory.wfFrom_cons.2 ⟨hlo, ha, hb, Memory.wfFrom_cons.2 ⟨hk, h2, h3, h4⟩⟩
    · split
      · rename_i hk
        split
        · exact Memory.wfFrom_mono (by omega) h4
        · rename_i hb
          exact Memory.wfFrom_cons.2 ⟨hlo, ha, hb, by rwa [hk]⟩
      · exact Memory.wfFrom_cons.2 ⟨h1, h2, h3, ih h4 (by omega)⟩

theorem Memory.wf_write {m : Memory} {a : Nat} (b : Byte) (w : Memory.wf m = true)
    (ha : a < 2 ^ 64) : Memory.wf (Memory.write m a b) = true :=
  Memory.wfFrom_write b w (Nat.zero_le _) ha

theorem Memory.read_writeFrom {lo : Nat} {m : Memory} (w : Memory.wfFrom lo m = true) (a x : Nat)
    (b : Byte) : Memory.read (Memory.write m a b) x = if x = a then b else Memory.read m x := by
  induction m generalizing lo with
  | nil =>
    unfold Memory.write
    by_cases hx : x = a
    · subst hx
      split <;> simp_all [Memory.read]
    · split <;> simp [Memory.read, Ne.symm hx]
  | cons c m ih =>
    obtain ⟨k, d⟩ := c
    have hlow : ∀ x < k, Memory.read ((k, d) :: m) x = Memory.unlisted := fun x hx =>
      Memory.read_of_lt (Memory.wfFrom_cons.2 ⟨le_refl k, (Memory.wfFrom_cons.1 w).2⟩) hx
    have h4 := (Memory.wfFrom_cons.1 w).2.2.2
    rw [Memory.write]
    split
    · rename_i hk
      split
      · rename_i hb
        split
        · rename_i hx
          rw [hb, hx, hlow a hk]
        · rfl
      · simp only [Memory.read, eq_comm (a := x)]
    · split
      · rename_i hk
        subst hk
        by_cases hx : x = a
        · subst hx
          split
          · rename_i hb
            rw [if_pos rfl, hb, Memory.read_of_lt h4 (Nat.lt_succ_self _)]
          · simp [Memory.read]
        · split <;> simp [Memory.read, Ne.symm hx]
      · rename_i hk
        rw [Memory.read, ih h4, Memory.read]
        by_cases hx : x = a
        · subst hx
          rw [if_neg (Ne.symm hk), if_pos rfl, if_pos rfl]
        · rw [if_neg hx, if_neg hx]

/-- A read after a write: the byte written at its address, every other byte as it was. -/
theorem Memory.read_write {m : Memory} (w : Memory.wf m = true) (a x : Nat) (b : Byte) :
    Memory.read (Memory.write m a b) x = if x = a then b else Memory.read m x :=
  Memory.read_writeFrom w a x b

theorem Memory.wf_writeBytes {m : Memory} (bs : List Byte) {a : Nat} (w : Memory.wf m = true)
    (ha : a + bs.length ≤ 2 ^ 64) : Memory.wf (Memory.writeBytes m a bs) = true := by
  induction bs generalizing m a with
  | nil => exact w
  | cons b bs ih =>
    rw [List.length_cons] at ha
    exact ih (Memory.wf_write b w (by omega)) (by omega)

/-- A read after a write of consecutive bytes. -/
theorem Memory.read_writeBytes {m : Memory} (bs : List Byte) {a : Nat} (w : Memory.wf m = true)
    (ha : a + bs.length ≤ 2 ^ 64) (x : Nat) :
    Memory.read (Memory.writeBytes m a bs) x =
      if a ≤ x then (bs[x - a]?).getD (Memory.read m x) else Memory.read m x := by
  induction bs generalizing m a with
  | nil => simp [Memory.writeBytes]
  | cons b bs ih =>
    rw [List.length_cons] at ha
    rw [Memory.writeBytes, ih (Memory.wf_write b w (by omega)) (by omega), Memory.read_write w]
    rcases Nat.lt_trichotomy x a with h | h | h
    · rw [if_neg (show ¬a + 1 ≤ x by omega), if_neg (show ¬x = a by omega),
        if_neg (show ¬a ≤ x by omega)]
    · subst h
      simp
    · rw [if_pos (show a + 1 ≤ x by omega), if_neg (show ¬x = a by omega),
        if_pos (show a ≤ x by omega), show x - a = (x - (a + 1)) + 1 by omega,
        List.getElem?_cons_succ]

@[simp] theorem Batch.bytes_length (v : Batch) : (Batch.bytes v).length = 32 := rfl

theorem Memory.wf_writeBatch {m : Memory} {a : Nat} (v : Batch) (w : Memory.wf m = true)
    (ha : a + 32 ≤ 2 ^ 64) : Memory.wf (Memory.writeBatch m a v) = true :=
  Memory.wf_writeBytes _ w (by simpa using ha)

/-- The bytes of a stored batch, and no others, are written. -/
theorem Memory.read_writeBatch {m : Memory} {a : Nat} (v : Batch) (w : Memory.wf m = true)
    (ha : a + 32 ≤ 2 ^ 64) (x : Nat) :
    Memory.read (Memory.writeBatch m a v) x =
      if a ≤ x then ((Batch.bytes v)[x - a]?).getD (Memory.read m x) else Memory.read m x :=
  Memory.read_writeBytes _ w (by simpa using ha) x

theorem Memory.read_writeBatch_outside {m : Memory} {a : Nat} (v : Batch) (w : Memory.wf m = true)
    (ha : a + 32 ≤ 2 ^ 64) {x : Nat} (hx : x < a ∨ a + 32 ≤ x) :
    Memory.read (Memory.writeBatch m a v) x = Memory.read m x := by
  rw [Memory.read_writeBatch v w ha]
  split
  · rw [List.getElem?_eq_none (by rw [Batch.bytes_length]; omega), Option.getD_none]
  · rfl

/-- The four bytes of a word make up the word (little-endian, R52). -/
theorem wordBytes_append (w : F32) :
    (w.extractLsb' 24 8 ++ w.extractLsb' 16 8 ++ w.extractLsb' 8 8 ++ w.extractLsb' 0 8 : BitVec 32) = w := by
  apply BitVec.eq_of_getLsbD_eq
  intro i hi
  simp only [BitVec.getLsbD_append, BitVec.getLsbD_extractLsb']
  by_cases h1 : i < 8
  · simp [h1]
  · by_cases h2 : i - 8 < 8
    · simp only [h1, h2, decide_true, Bool.true_and, if_true, if_false]
      congr 1; omega
    · by_cases h3 : i - 8 - 8 < 8
      · simp only [h1, h2, h3, decide_true, Bool.true_and, if_true, if_false]
        congr 1; omega
      · have h4 : i - 8 - 8 - 8 < 8 := by omega
        simp only [h1, h2, h3, h4, decide_true, Bool.true_and, if_false]
        congr 1; omega

/-- A stored lane is read back at `a + 4*i` (R52). -/
theorem Memory.readWord_writeBatch {m : Memory} {a : Nat} (v : Batch) (w : Memory.wf m = true)
    (ha : a + 32 ≤ 2 ^ 64) (i : Lane) :
    Memory.readWord (Memory.writeBatch m a v) (a + 4 * i.val) = v[i] := by
  have hb : ∀ k (h : k < 32), Memory.read (Memory.writeBatch m a v) (a + k) = (Batch.bytes v)[k]'(by rw [Batch.bytes_length]; exact h) := by
    intro k hk
    rw [Memory.read_writeBatch v w ha, if_pos (by omega), Nat.add_sub_cancel_left,
      List.getElem?_eq_getElem (by rw [Batch.bytes_length]; exact hk), Option.getD_some]
  have h4 := i.isLt
  rw [Memory.readWord, Nat.add_assoc a, Nat.add_assoc a, Nat.add_assoc a, hb _ (by omega),
    hb _ (by omega), hb _ (by omega), hb _ (by omega)]
  refine Eq.trans ?_ (wordBytes_append v[i])
  match i with
  | 0 => rfl
  | 1 => rfl
  | 2 => rfl
  | 3 => rfl
  | 4 => rfl
  | 5 => rfl
  | 6 => rfl
  | 7 => rfl

/-- A batch stored is loaded back unchanged. -/
theorem Memory.readBatch_writeBatch {m : Memory} {a : Nat} (v : Batch) (w : Memory.wf m = true)
    (ha : a + 32 ≤ 2 ^ 64) : Memory.readBatch (Memory.writeBatch m a v) a = v := by
  apply Lanes.ext
  intro i
  rw [Memory.readBatch, Lanes.of_getElem, Memory.readWord_writeBatch v w ha]

/-- Reset lists nothing, which is canonical. -/
theorem reset_mem_wf : Memory.wf State.reset.mem = true := rfl

/-- What an admitted access is (R56). -/
theorem admits_iff (s : State) (a : Nat) :
    s.admits a = true ↔
      a + 32 ≤ 2 ^ 64 ∧
        (s.windowBase.toNat + 64 ≤ a ∨ a + 32 ≤ s.windowBase.toNat) ∧
        ∃ r ∈ s.regions, r.base ≤ a ∧ a + 32 ≤ r.base + r.size := by
  simp only [State.admits, State.overlapsWindow, Bool.and_eq_true, Bool.not_eq_true',
    Bool.and_eq_false_iff, decide_eq_true_eq, decide_eq_false_iff_not, List.any_eq_true,
    Nat.not_lt, and_assoc]

end Sys2Proof.Machine
end

