-- ==== Sys2Proof/Laws/State.lean ====
section
/-! SUPPORT. What each operation leaves in each field of State: one lemma per field per operation,
each true by definition, so that no later proof unfolds an operation. The fields of the core are
read off the record that the `_ndb` lemma of an operation gives. -/

namespace Sys2Proof.Machine

@[simp] theorem setGen_ndb (s : State) (g : Lanes Word) :
    (setGen s g).ndb = { s.ndb with gen := g } := rfl

@[simp] theorem setGen_mem (s : State) (g : Lanes Word) :
    (setGen s g).mem = s.mem := rfl

@[simp] theorem setGen_windowBase (s : State) (g : Lanes Word) :
    (setGen s g).windowBase = s.windowBase := rfl

@[simp] theorem setGen_regions (s : State) (g : Lanes Word) :
    (setGen s g).regions = s.regions := rfl

@[simp] theorem setGen_script (s : State) (g : Lanes Word) :
    (setGen s g).script = s.script := rfl

@[simp] theorem setGen_hostData (s : State) (g : Lanes Word) :
    (setGen s g).hostData = s.hostData := rfl

@[simp] theorem setGen_epoch (s : State) (g : Lanes Word) :
    (setGen s g).epoch = s.epoch := rfl

@[simp] theorem setGen_unwrittenRead (s : State) (g : Lanes Word) :
    (setGen s g).unwrittenRead = s.unwrittenRead := rfl

@[simp] theorem setGen_unwrittenRule (s : State) (g : Lanes Word) :
    (setGen s g).unwrittenRule = s.unwrittenRule := rfl

@[simp] theorem writeV_ndb (s : State) (n : VReg) (x : Batch) :
    (writeV s n x).ndb = { s.ndb with v := s.ndb.v.set n x, wr := s.ndb.wr.set n true } := rfl

@[simp] theorem writeV_mem (s : State) (n : VReg) (x : Batch) :
    (writeV s n x).mem = s.mem := rfl

@[simp] theorem writeV_windowBase (s : State) (n : VReg) (x : Batch) :
    (writeV s n x).windowBase = s.windowBase := rfl

@[simp] theorem writeV_regions (s : State) (n : VReg) (x : Batch) :
    (writeV s n x).regions = s.regions := rfl

@[simp] theorem writeV_script (s : State) (n : VReg) (x : Batch) :
    (writeV s n x).script = s.script := rfl

@[simp] theorem writeV_hostData (s : State) (n : VReg) (x : Batch) :
    (writeV s n x).hostData = s.hostData := rfl

@[simp] theorem writeV_epoch (s : State) (n : VReg) (x : Batch) :
    (writeV s n x).epoch = s.epoch := rfl

@[simp] theorem writeV_unwrittenRead (s : State) (n : VReg) (x : Batch) :
    (writeV s n x).unwrittenRead = s.unwrittenRead := rfl

@[simp] theorem writeV_unwrittenRule (s : State) (n : VReg) (x : Batch) :
    (writeV s n x).unwrittenRule = s.unwrittenRule := rfl

@[simp] theorem setMem_ndb (s : State) (m : Memory) :
    (setMem s m).ndb = s.ndb := rfl

@[simp] theorem setMem_mem (s : State) (m : Memory) :
    (setMem s m).mem = m := rfl

@[simp] theorem setMem_windowBase (s : State) (m : Memory) :
    (setMem s m).windowBase = s.windowBase := rfl

@[simp] theorem setMem_regions (s : State) (m : Memory) :
    (setMem s m).regions = s.regions := rfl

@[simp] theorem setMem_script (s : State) (m : Memory) :
    (setMem s m).script = s.script := rfl

@[simp] theorem setMem_hostData (s : State) (m : Memory) :
    (setMem s m).hostData = s.hostData := rfl

@[simp] theorem setMem_epoch (s : State) (m : Memory) :
    (setMem s m).epoch = s.epoch := rfl

@[simp] theorem setMem_unwrittenRead (s : State) (m : Memory) :
    (setMem s m).unwrittenRead = s.unwrittenRead := rfl

@[simp] theorem setMem_unwrittenRule (s : State) (m : Memory) :
    (setMem s m).unwrittenRule = s.unwrittenRule := rfl

@[simp] theorem setFill_ndb (s : State) (nb idx : DWord) :
    (setFill s nb idx).ndb = { s.ndb with fillNb := nb, fillIdx := idx } := rfl

@[simp] theorem setFill_mem (s : State) (nb idx : DWord) :
    (setFill s nb idx).mem = s.mem := rfl

@[simp] theorem setFill_windowBase (s : State) (nb idx : DWord) :
    (setFill s nb idx).windowBase = s.windowBase := rfl

@[simp] theorem setFill_regions (s : State) (nb idx : DWord) :
    (setFill s nb idx).regions = s.regions := rfl

@[simp] theorem setFill_script (s : State) (nb idx : DWord) :
    (setFill s nb idx).script = s.script := rfl

@[simp] theorem setFill_hostData (s : State) (nb idx : DWord) :
    (setFill s nb idx).hostData = s.hostData := rfl

@[simp] theorem setFill_epoch (s : State) (nb idx : DWord) :
    (setFill s nb idx).epoch = s.epoch := rfl

@[simp] theorem setFill_unwrittenRead (s : State) (nb idx : DWord) :
    (setFill s nb idx).unwrittenRead = s.unwrittenRead := rfl

@[simp] theorem setFill_unwrittenRule (s : State) (nb idx : DWord) :
    (setFill s nb idx).unwrittenRule = s.unwrittenRule := rfl

@[simp] theorem setStatus_ndb (s : State) (f : Status) :
    (setStatus s f).ndb = { s.ndb with status := f } := rfl

@[simp] theorem setStatus_mem (s : State) (f : Status) :
    (setStatus s f).mem = s.mem := rfl

@[simp] theorem setStatus_windowBase (s : State) (f : Status) :
    (setStatus s f).windowBase = s.windowBase := rfl

@[simp] theorem setStatus_regions (s : State) (f : Status) :
    (setStatus s f).regions = s.regions := rfl

@[simp] theorem setStatus_script (s : State) (f : Status) :
    (setStatus s f).script = s.script := rfl

@[simp] theorem setStatus_hostData (s : State) (f : Status) :
    (setStatus s f).hostData = s.hostData := rfl

@[simp] theorem setStatus_epoch (s : State) (f : Status) :
    (setStatus s f).epoch = s.epoch := rfl

@[simp] theorem setStatus_unwrittenRead (s : State) (f : Status) :
    (setStatus s f).unwrittenRead = s.unwrittenRead := rfl

@[simp] theorem setStatus_unwrittenRule (s : State) (f : Status) :
    (setStatus s f).unwrittenRule = s.unwrittenRule := rfl

@[simp] theorem complete_ndb (s : State) :
    (complete s).ndb = { s.ndb with status := s.ndb.status.completed } := rfl

@[simp] theorem complete_mem (s : State) :
    (complete s).mem = s.mem := rfl

@[simp] theorem complete_windowBase (s : State) :
    (complete s).windowBase = s.windowBase := rfl

@[simp] theorem complete_regions (s : State) :
    (complete s).regions = s.regions := rfl

@[simp] theorem complete_script (s : State) :
    (complete s).script = s.script := rfl

@[simp] theorem complete_hostData (s : State) :
    (complete s).hostData = s.hostData := rfl

@[simp] theorem complete_epoch (s : State) :
    (complete s).epoch = s.epoch := rfl

@[simp] theorem complete_unwrittenRead (s : State) :
    (complete s).unwrittenRead = s.unwrittenRead := rfl

@[simp] theorem complete_unwrittenRule (s : State) :
    (complete s).unwrittenRule = s.unwrittenRule := rfl

@[simp] theorem raise_ndb (s : State) (c : FaultCode) (info : DWord) :
    (raise s c info).ndb = { s.ndb with status := s.ndb.status.faulted c, faultInfo := info } := rfl

@[simp] theorem raise_mem (s : State) (c : FaultCode) (info : DWord) :
    (raise s c info).mem = s.mem := rfl

@[simp] theorem raise_windowBase (s : State) (c : FaultCode) (info : DWord) :
    (raise s c info).windowBase = s.windowBase := rfl

@[simp] theorem raise_regions (s : State) (c : FaultCode) (info : DWord) :
    (raise s c info).regions = s.regions := rfl

@[simp] theorem raise_script (s : State) (c : FaultCode) (info : DWord) :
    (raise s c info).script = s.script := rfl

@[simp] theorem raise_hostData (s : State) (c : FaultCode) (info : DWord) :
    (raise s c info).hostData = s.hostData := rfl

@[simp] theorem raise_epoch (s : State) (c : FaultCode) (info : DWord) :
    (raise s c info).epoch = s.epoch := rfl

@[simp] theorem raise_unwrittenRead (s : State) (c : FaultCode) (info : DWord) :
    (raise s c info).unwrittenRead = s.unwrittenRead := rfl

@[simp] theorem raise_unwrittenRule (s : State) (c : FaultCode) (info : DWord) :
    (raise s c info).unwrittenRule = s.unwrittenRule := rfl

@[simp] theorem resetCore_ndb (s : State) :
    (resetCore s).ndb = Ndb.reset := rfl

@[simp] theorem resetCore_mem (s : State) :
    (resetCore s).mem = s.mem := rfl

@[simp] theorem resetCore_windowBase (s : State) :
    (resetCore s).windowBase = s.windowBase := rfl

@[simp] theorem resetCore_regions (s : State) :
    (resetCore s).regions = s.regions := rfl

@[simp] theorem resetCore_script (s : State) :
    (resetCore s).script = s.script := rfl

@[simp] theorem resetCore_hostData (s : State) :
    (resetCore s).hostData = s.hostData := rfl

@[simp] theorem resetCore_epoch (s : State) :
    (resetCore s).epoch = s.epoch + 1 := rfl

@[simp] theorem resetCore_unwrittenRead (s : State) :
    (resetCore s).unwrittenRead = s.unwrittenRead := rfl

@[simp] theorem resetCore_unwrittenRule (s : State) :
    (resetCore s).unwrittenRule = s.unwrittenRule := rfl

@[simp] theorem noteReads_ndb (s : State) (rs : List VReg) :
    (noteReads s rs).ndb = s.ndb := rfl

@[simp] theorem noteReads_mem (s : State) (rs : List VReg) :
    (noteReads s rs).mem = s.mem := rfl

@[simp] theorem noteReads_windowBase (s : State) (rs : List VReg) :
    (noteReads s rs).windowBase = s.windowBase := rfl

@[simp] theorem noteReads_regions (s : State) (rs : List VReg) :
    (noteReads s rs).regions = s.regions := rfl

@[simp] theorem noteReads_script (s : State) (rs : List VReg) :
    (noteReads s rs).script = s.script := rfl

@[simp] theorem noteReads_hostData (s : State) (rs : List VReg) :
    (noteReads s rs).hostData = s.hostData := rfl

@[simp] theorem noteReads_epoch (s : State) (rs : List VReg) :
    (noteReads s rs).epoch = s.epoch := rfl

@[simp] theorem noteReads_unwrittenRead (s : State) (rs : List VReg) :
    (noteReads s rs).unwrittenRead = s.unwrittenRead.or (firstUnwritten s rs) := rfl

@[simp] theorem noteReads_unwrittenRule (s : State) (rs : List VReg) :
    (noteReads s rs).unwrittenRule = s.unwrittenRule := rfl

@[simp] theorem dropWrite_ndb (s : State) :
    (dropWrite s).ndb = { s.ndb with status := s.ndb.status.dropped } := rfl

@[simp] theorem dropWrite_mem (s : State) :
    (dropWrite s).mem = s.mem := rfl

@[simp] theorem dropWrite_windowBase (s : State) :
    (dropWrite s).windowBase = s.windowBase := rfl

@[simp] theorem dropWrite_regions (s : State) :
    (dropWrite s).regions = s.regions := rfl

@[simp] theorem dropWrite_script (s : State) :
    (dropWrite s).script = s.script := rfl

@[simp] theorem dropWrite_hostData (s : State) :
    (dropWrite s).hostData = s.hostData := rfl

@[simp] theorem dropWrite_epoch (s : State) :
    (dropWrite s).epoch = s.epoch := rfl

@[simp] theorem dropWrite_unwrittenRead (s : State) :
    (dropWrite s).unwrittenRead = s.unwrittenRead := rfl

@[simp] theorem dropWrite_unwrittenRule (s : State) :
    (dropWrite s).unwrittenRule = s.unwrittenRule := rfl

@[simp] theorem acceptCommand_ndb (s : State) (w : Word) :
    (acceptCommand s w).ndb = { s.ndb with status := s.ndb.status.accepted, cur := w } := rfl

@[simp] theorem acceptCommand_mem (s : State) (w : Word) :
    (acceptCommand s w).mem = s.mem := rfl

@[simp] theorem acceptCommand_windowBase (s : State) (w : Word) :
    (acceptCommand s w).windowBase = s.windowBase := rfl

@[simp] theorem acceptCommand_regions (s : State) (w : Word) :
    (acceptCommand s w).regions = s.regions := rfl

@[simp] theorem acceptCommand_script (s : State) (w : Word) :
    (acceptCommand s w).script = s.script := rfl

@[simp] theorem acceptCommand_hostData (s : State) (w : Word) :
    (acceptCommand s w).hostData = s.hostData := rfl

@[simp] theorem acceptCommand_epoch (s : State) (w : Word) :
    (acceptCommand s w).epoch = s.epoch := rfl

@[simp] theorem acceptCommand_unwrittenRead (s : State) (w : Word) :
    (acceptCommand s w).unwrittenRead = s.unwrittenRead := rfl

@[simp] theorem acceptCommand_unwrittenRule (s : State) (w : Word) :
    (acceptCommand s w).unwrittenRule = s.unwrittenRule := rfl

@[simp] theorem Status.accepted_busy (f : Status) :
    (f.accepted).busy = true := rfl

@[simp] theorem Status.accepted_done (f : Status) :
    (f.accepted).done = false := rfl

@[simp] theorem Status.accepted_err (f : Status) :
    (f.accepted).err = f.err := rfl

@[simp] theorem Status.accepted_ovr (f : Status) :
    (f.accepted).ovr = f.ovr := rfl

@[simp] theorem Status.accepted_code (f : Status) :
    (f.accepted).code = f.code := rfl

@[simp] theorem Status.completed_busy (f : Status) :
    (f.completed).busy = false := rfl

@[simp] theorem Status.completed_done (f : Status) :
    (f.completed).done = true := rfl

@[simp] theorem Status.completed_err (f : Status) :
    (f.completed).err = f.err := rfl

@[simp] theorem Status.completed_ovr (f : Status) :
    (f.completed).ovr = f.ovr := rfl

@[simp] theorem Status.completed_code (f : Status) :
    (f.completed).code = f.code := rfl

@[simp] theorem Status.faulted_busy (f : Status) (c : FaultCode) :
    (f.faulted c).busy = false := rfl

@[simp] theorem Status.faulted_done (f : Status) (c : FaultCode) :
    (f.faulted c).done = false := rfl

@[simp] theorem Status.faulted_err (f : Status) (c : FaultCode) :
    (f.faulted c).err = true := rfl

@[simp] theorem Status.faulted_ovr (f : Status) (c : FaultCode) :
    (f.faulted c).ovr = f.ovr := rfl

@[simp] theorem Status.faulted_code (f : Status) (c : FaultCode) :
    (f.faulted c).code = c.code := rfl

@[simp] theorem Status.dropped_busy (f : Status) :
    (f.dropped).busy = f.busy := rfl

@[simp] theorem Status.dropped_done (f : Status) :
    (f.dropped).done = f.done := rfl

@[simp] theorem Status.dropped_err (f : Status) :
    (f.dropped).err = f.err := rfl

@[simp] theorem Status.dropped_ovr (f : Status) :
    (f.dropped).ovr = true := rfl

@[simp] theorem Status.dropped_code (f : Status) :
    (f.dropped).code = f.code := rfl

@[simp] theorem Config.this_lanes : Config.this.lanes = 8 := rfl

@[simp] theorem Config.this_half : Config.this.half = 4 := rfl

@[simp] theorem Config.this_block : Config.this.block = 16 := rfl

@[simp] theorem Config.this_nvreg : Config.this.nvreg = 8 := rfl

@[simp] theorem Config.this_align : Config.this.align = 32 := rfl

@[simp] theorem Config.this_addrBits : Config.this.addrBits = 64 := rfl

@[simp] theorem Config.this_revision : Config.this.revision = 1 := rfl

@[simp] theorem Config.this_lcgA : Config.this.lcgA = 1664525 := rfl

@[simp] theorem Config.this_lcgC : Config.this.lcgC = 1013904223 := rfl

@[simp] theorem Config.this_seed0 : Config.this.seed0 = 1 := rfl

@[simp] theorem Config.this_stride : Config.this.stride = 0x9E3779B9 := rfl

@[simp] theorem Config.this_twoPi : Config.this.twoPi = 0x40C90FDB := rfl

end Sys2Proof.Machine
end

