-- ==== Sys2Proof/Laws/Operands.lean ====
section
/-! SUPPORT. What the operand checks say (R161, R181), and what a read of a source gives. -/

namespace Sys2Proof.Machine

@[simp] theorem readV_written {s : State} {n : VReg} (h : s.ndb.wr[n] = true) :
    readV s n = s.ndb.v[n] := by rw [readV, if_pos h]

@[simp] theorem readV_unwritten {s : State} {n : VReg} (h : s.ndb.wr[n] = false) (i : Lane) :
    (readV s n)[i] = Config.unwrittenLane s.epoch n i := by
  rw [readV, h, if_neg Bool.false_ne_true, Lanes.of_getElem]

/-- What a vector command reads depends on the register, its written-flag and the epoch only. -/
theorem readV_congr {s t : State} {n : VReg} (hv : t.ndb.v[n] = s.ndb.v[n])
    (hw : t.ndb.wr[n] = s.ndb.wr[n]) (he : t.epoch = s.epoch) : readV t n = readV s n := by
  rw [readV, readV, hv, hw, he]

/-- A register among the sources is the first unwritten one. -/
theorem firstUnwritten_some {s : State} {rs : List VReg} {n : VReg}
    (h : firstUnwritten s rs = some n) : n ∈ rs ∧ s.ndb.wr[n] = false :=
  ⟨List.mem_of_find?_eq_some h, by simpa using List.find?_some h⟩

/-- All the sources are written. -/
theorem firstUnwritten_none_iff {s : State} {rs : List VReg} :
    firstUnwritten s rs = none ↔ ∀ n ∈ rs, s.ndb.wr[n] = true := by
  simp [firstUnwritten]

/-- With written sources there is nothing to put on record. -/
theorem noteReads_written {s : State} {rs : List VReg} (h : ∀ n ∈ rs, s.ndb.wr[n] = true) :
    noteReads s rs = s := by
  simp [noteReads, firstUnwritten_none_iff.2 h]

/-- Everything a command's read of its sources can do (R204): the model's stop at the first unwritten
one, or going on with the read on record. -/
theorem withSources_cases (rs : List VReg) (s : State)
    (k : State → Host.Outcome State Fault Refusal) :
    (∃ n, firstUnwritten s rs = some n ∧ s.unwrittenRule = .stop ∧
        withSources rs s k = .fault (.unwrittenRead n)) ∨
      ((s.unwrittenRule = .runOn ∨ ∀ n ∈ rs, s.ndb.wr[n] = true) ∧
        withSources rs s k = k (noteReads s rs)) := by
  unfold withSources
  cases hf : firstUnwritten s rs with
  | none => exact .inr ⟨.inr (firstUnwritten_none_iff.1 hf), rfl⟩
  | some n =>
    cases hr : s.unwrittenRule
    · exact .inr ⟨.inl rfl, rfl⟩
    · exact .inl ⟨n, rfl, rfl, rfl⟩

/-- The command goes on where the model does not stop. -/
theorem withSources_readable {rs : List VReg} {s : State}
    (h : s.unwrittenRule = .runOn ∨ ∀ n ∈ rs, s.ndb.wr[n] = true)
    (k : State → Host.Outcome State Fault Refusal) :
    withSources rs s k = k (noteReads s rs) := by
  rcases withSources_cases rs s k with ⟨n, hn, hs, -⟩ | ⟨-, e⟩
  · have := firstUnwritten_some hn
    rcases h with h | h
    · simp [h] at hs
    · simp [h n this.1] at this
  · exact e

/-- A record changes nothing that a read of a source looks at. -/
@[simp] theorem readV_noteReads (s : State) (rs : List VReg) (n : VReg) :
    readV (noteReads s rs) n = readV s n := rfl

/-- Nor what the checks look at. -/
@[simp] theorem checkVec_noteReads (s : State) (rs : List VReg) :
    checkVec (noteReads s rs) = checkVec s := rfl

/-- A check in a chain of checks. -/
theorem check_chain_none {α : Type} {p : Prop} [Decidable p] {x : α} {o : Option α} :
    (if p then some x else o) = none ↔ ¬p ∧ o = none := by
  split <;> simp [*]

/-- The operand of VLD and VST passes its checks. -/
theorem checkVec_none_iff (s : State) :
    checkVec s = none ↔
      address s ≠ 0 ∧ address s % 32 = 0 ∧ address s + 32 ≤ 2 ^ 64 ∧ s.admits (address s) = true := by
  unfold checkVec
  rw [check_chain_none, check_chain_none, check_chain_none, check_chain_none, not_not, gt_iff_lt,
    Nat.not_lt, Bool.not_eq_false, Config.this_align]
  simp only [and_true, ne_eq]

/-- The operand of FILL passes its checks. -/
theorem checkFill_none_iff (s : State) :
    checkFill s = none ↔
      address s ≠ 0 ∧ address s % 32 = 0 ∧ s.ndb.count.toNat % 16 = 0 ∧
        address s + 4 * s.ndb.count.toNat ≤ 2 ^ 64 := by
  unfold checkFill
  rw [check_chain_none, check_chain_none, check_chain_none, check_chain_none, not_not, not_not,
    gt_iff_lt, Nat.not_lt, Config.this_align, Config.this_block]
  simp only [and_true, ne_eq]

/-- The checks look at ADDR, COUNT and the platform only. -/
theorem checkFill_congr {s t : State} (ha : t.ndb.addr = s.ndb.addr) (hc : t.ndb.count = s.ndb.count) :
    checkFill t = checkFill s := by
  unfold checkFill address
  rw [ha, hc]

theorem admits_congr {s t : State} (hb : t.windowBase = s.windowBase) (hr : t.regions = s.regions)
    (a : Nat) : t.admits a = s.admits a := by
  simp only [State.admits, State.overlapsWindow, hb, hr]

end Sys2Proof.Machine
end

