-- ==== Sys2Proof/Laws/Commands.lean ====
section
/-! SUPPORT. What the commands that read batch registers answer (R204), so that no proof unfolds
how they read their sources. -/

namespace Sys2Proof.Machine

theorem exec_vlog {s : State} {rs1 : VReg} (h : Readable s [rs1]) (rd : VReg) :
    exec (.vlog rd rs1) s = .next (complete (writeV (noteReads s [rs1]) rd
      (Lanes.of fun i => Config.this.kernels.log (readV s rs1)[i]))) := by
  rw [exec, execVlog, withSources_readable h]
  rfl

theorem exec_vsin {s : State} {rs1 : VReg} (h : Readable s [rs1]) (rd : VReg) :
    exec (.vsin rd rs1) s = .next (complete (writeV (noteReads s [rs1]) rd
      (Lanes.of fun i => Config.this.kernels.sin (readV s rs1)[i]))) := by
  rw [exec, execVsin, withSources_readable h]
  rfl

theorem exec_vsincos {s : State} {rs1 : VReg} (h : Readable s [rs1]) (rd rd2 : VReg) :
    exec (.vsincos rd rd2 rs1) s = .next (complete (writeV (writeV (noteReads s [rs1]) rd
      (Lanes.of fun i => (Config.this.kernels.sincos (readV s rs1)[i]).1)) rd2
      (Lanes.of fun i => (Config.this.kernels.sincos (readV s rs1)[i]).2))) := by
  rw [exec, execVsincos, withSources_readable h]
  rfl

theorem exec_combine {s : State} {rs1 rs2 : VReg} (h : Readable s [rs1, rs2]) (rd rd2 : VReg) :
    exec (.combine rd rd2 rs1 rs2) s = .next (complete (writeV (writeV (noteReads s [rs1, rs2]) rd
      (combineZ0 Config.this (readV s rs1) (readV s rs2))) rd2
      (combineZ1 Config.this (readV s rs1) (readV s rs2)))) := by
  rw [exec, execCombine, withSources_readable h]
  rfl

theorem exec_vst_pass {s : State} {rs1 : VReg} (h : Readable s [rs1]) (hc : checkVec s = none) :
    exec (.vst rs1) s = .next (complete (setMem (noteReads s [rs1])
      (Memory.writeBatch s.mem (address s) (readV s rs1)))) := by
  rw [exec, execVst, withSources_readable h, checkVec_noteReads, hc]
  rfl

theorem exec_vst_fault {s : State} {rs1 : VReg} (h : Readable s [rs1]) {c : FaultCode}
    {info : DWord} (hc : checkVec s = some (c, info)) :
    exec (.vst rs1) s = .next (raise (noteReads s [rs1]) c info) := by
  rw [exec, execVst, withSources_readable h, checkVec_noteReads, hc]

/-- A step of FILL has a next state. -/
theorem exec_fill_next (s : State) : ∃ t, exec .fill s = .next t := by
  simp only [exec, execFill]
  repeat' split
  all_goals exact ⟨_, rfl⟩

/-- Everything a command can answer: the model's stop at the first unwritten source, or a next
state. -/
theorem exec_cases (i : Instr) (s : State) :
    (∃ n, firstUnwritten s (sourcesOf i) = some n ∧ s.unwrittenRule = .stop ∧
        exec i s = .fault (.unwrittenRead n)) ∨
      (Readable s (sourcesOf i) ∧ ∃ t, exec i s = .next t) := by
  have key : ∀ k : State → Host.Outcome State Fault Refusal,
      exec i s = withSources (sourcesOf i) s k → (∀ u, ∃ t, k u = .next t) →
      (∃ n, firstUnwritten s (sourcesOf i) = some n ∧ s.unwrittenRule = .stop ∧
          exec i s = .fault (.unwrittenRead n)) ∨
        (Readable s (sourcesOf i) ∧ ∃ t, exec i s = .next t) := by
    intro k he hk
    rw [he]
    refine (withSources_cases _ s k).imp id fun h => ⟨h.1, ?_⟩
    rw [h.2]
    exact hk _
  have free : sourcesOf i = [] → Readable s (sourcesOf i) := fun h => .inr (by simp [h])
  cases i with
  | nop => exact .inr ⟨free rfl, _, rfl⟩
  | reseed => exact .inr ⟨free rfl, _, rfl⟩
  | fill => exact .inr ⟨free rfl, exec_fill_next s⟩
  | draw rd => exact .inr ⟨free rfl, _, rfl⟩
  | vld rd =>
    refine .inr ⟨free rfl, ?_⟩
    simp only [exec, execVld]
    split <;> exact ⟨_, rfl⟩
  | vlog rd rs1 =>
    refine key _ (by rw [exec, execVlog, sourcesOf]) ?_
    exact fun u => ⟨_, rfl⟩
  | vsin rd rs1 =>
    refine key _ (by rw [exec, execVsin, sourcesOf]) ?_
    exact fun u => ⟨_, rfl⟩
  | vsincos rd rd2 rs1 =>
    refine key _ (by rw [exec, execVsincos, sourcesOf]) ?_
    exact fun u => ⟨_, rfl⟩
  | combine rd rd2 rs1 rs2 =>
    refine key _ (by rw [exec, execCombine, sourcesOf]) ?_
    exact fun u => ⟨_, rfl⟩
  | vst rs1 =>
    refine key _ (by rw [exec, execVst, sourcesOf]) fun u => ?_
    split <;> exact ⟨_, rfl⟩

end Sys2Proof.Machine
end

