-- ==== Sys2Proof/Laws/Config.lean ====
section
/-! SUPPORT. What is known of this build's configuration: it is well formed. -/

namespace Sys2Proof

/-- The build's kernels have the accuracy of R121, R123 and R124; nothing else is known of them. -/
theorem Config.this_kernels_admissible : Config.this.kernels.Admissible :=
  (@Config.freeKernels ⟨KernelWitness.kernels⟩).property

theorem Config.this_wellFormed : Config.this.WellFormed :=
  ⟨by decide, Config.this_kernels_admissible⟩

end Sys2Proof
end

