-- ==== Sys2Proof/Laws/Fill.lean ====
section
/-! SUPPORT. What a step of FILL can do (R161, R165, R166). -/

namespace Sys2Proof.Machine

/-- FILL's first step: a fault with nothing else done, or the start of the blocks. -/
theorem fillStart_cases (s : State) :
    (∃ c info, checkFill s = some (c, info) ∧ fillStart s = raise s c info) ∨
      (checkFill s = none ∧ fillStart s = finishFill (setFill s (s.ndb.count / 16) 0)) := by
  unfold fillStart
  cases h : checkFill s with
  | none => exact .inr ⟨rfl, rfl⟩
  | some p => exact .inl ⟨p.1, p.2, rfl, rfl⟩

/-- A block step: MEM_ACCESS at the first refused half with nothing else done, or the block. -/
theorem fillBlock_cases (s : State) :
    (s.admits (blockAddr s) = false ∧
        fillBlock s = raise s .memAccess (BitVec.ofNat 64 (blockAddr s))) ∨
      (s.admits (blockAddr s) = true ∧ s.admits (blockAddr s + 32) = false ∧
        fillBlock s = raise s .memAccess (BitVec.ofNat 64 (blockAddr s + 32))) ∨
      (s.admits (blockAddr s) = true ∧ s.admits (blockAddr s + 32) = true ∧
        fillBlock s = finishFill (storeBlock s)) := by
  unfold fillBlock
  cases h1 : s.admits (blockAddr s) <;> cases h2 : s.admits (blockAddr s + 32) <;> simp

/-- Finishing a FILL changes STATUS only, and only after the last block. -/
theorem finishFill_cases (s : State) :
    (s.ndb.fillIdx = s.ndb.fillNb ∧ finishFill s = complete s) ∨
      (s.ndb.fillIdx ≠ s.ndb.fillNb ∧ finishFill s = s) := by
  unfold finishFill
  split
  · exact .inl ⟨‹_›, rfl⟩
  · exact .inr ⟨‹_›, rfl⟩

theorem finishFill_mem (s : State) : (finishFill s).mem = s.mem := by
  unfold finishFill; split <;> rfl

theorem finishFill_gen (s : State) : (finishFill s).ndb.gen = s.ndb.gen := by
  unfold finishFill; split <;> rfl

/-- The bytes outside a block's 64 stay. -/
theorem storeBlock_read_outside {s : State} (w : Memory.wf s.mem = true)
    (h : blockAddr s + 64 ≤ 2 ^ 64) {a : Nat} (ha : a < blockAddr s ∨ blockAddr s + 64 ≤ a) :
    Memory.read (storeBlock s).mem a = Memory.read s.mem a := by
  simp only [storeBlock, setFill_mem, setGen_mem, setMem_mem]
  rw [Memory.read_writeBatch_outside _ (Memory.wf_writeBatch _ w (by omega)) (by omega) (by omega),
    Memory.read_writeBatch_outside _ w (by omega) (by omega)]

end Sys2Proof.Machine
end

