-- ==== Sys2Proof/Laws/FloatOps.lean ====
section
/-! SUPPORT. What the fixed floating-point operations give, once each (R127): the NaN result is a NaN
whatever the free value is, and finite operands reach the exact computation. -/

namespace Sys2Proof

/-- The result is a NaN for every value of the free sign and payload. -/
theorem F32.nanResult_isNaN (op : FpOp) (a b : F32) : F32.isNaN (F32.nanResult op a b) = true := by
  have h := (Config.freeNaN op a b).2.isLt
  rw [F32.isNaN_iff, F32.nanResult, F32.pack_mag] <;> unfold F32.infMag <;> omega

/-- A finite value is no NaN. -/
theorem F32.not_isNaN_of_isFinite {x : F32} (h : F32.isFinite x = true) : F32.isNaN x = false := by
  rw [Bool.eq_false_iff, ne_eq, F32.isNaN_iff]
  have := (F32.isFinite_iff x).1 h
  omega

/-- A finite value is no infinity. -/
theorem F32.not_isInf_of_isFinite {x : F32} (h : F32.isFinite x = true) : F32.isInf x = false := by
  unfold F32.isFinite at h
  unfold F32.isInf
  simp_all

theorem F32.fsub_of_finite {a b : F32} (ha : F32.isFinite a = true) (hb : F32.isFinite b = true) :
    F32.fsub a b = F32.subFinite a b := by
  simp [F32.fsub, F32.not_isNaN_of_isFinite ha, F32.not_isNaN_of_isFinite hb,
    F32.not_isInf_of_isFinite ha, F32.not_isInf_of_isFinite hb]

theorem F32.fmul_of_finite {a b : F32} (ha : F32.isFinite a = true) (hb : F32.isFinite b = true) :
    F32.fmul a b = F32.mulFinite a b := by
  simp [F32.fmul, F32.not_isNaN_of_isFinite ha, F32.not_isNaN_of_isFinite hb,
    F32.not_isInf_of_isFinite ha, F32.not_isInf_of_isFinite hb]

theorem F32.fsqrt_of_positive {x : F32} (h : F32.isFinite x = true) (hn : F32.isNeg x = false)
    (hz : F32.isZero x = false) : F32.fsqrt x = F32.sqrtFinite x := by
  simp [F32.fsqrt, F32.not_isNaN_of_isFinite h, F32.not_isInf_of_isFinite h, hn, hz]

/-- A NaN operand gives a NaN. -/
theorem F32.fmul_isNaN {a b : F32} (h : F32.isNaN a = true ∨ F32.isNaN b = true) :
    F32.isNaN (F32.fmul a b) = true := by
  have : (F32.isNaN a || F32.isNaN b) = true := by simpa using h
  rw [F32.fmul, if_pos this]
  exact F32.nanResult_isNaN ..

end Sys2Proof
end

