-- ==== Sys2Proof/Laws/PerInstr.lean ====
section
/-! SUPPORT. A statement per instruction about its encoding: the match and mask columns of
spec/30_encoding.md R74. -/

namespace Sys2Proof.Laws.Masked

/-- The word of the command has its row's match bits under its row's mask (R74), and the check of
two destinations on its fields says what well-formedness says (R76). -/
def Statement (i : Instr) : Prop :=
  encode i &&& i.opcode.mask = i.opcode.matchWord ∧
    ((i.opcode.twoDestinations = true ∧ rdOf (encode i) = rd2Of (encode i)) ↔ ¬i.WellFormed)

theorem nop : Statement .nop := by unfold Statement; decide

theorem reseed : Statement .reseed := by unfold Statement; decide

theorem fill : Statement .fill := by unfold Statement; decide

theorem draw (rd : VReg) : Statement (.draw rd) := by
  revert rd; unfold Statement; decide

theorem vlog (rd rs1 : VReg) : Statement (.vlog rd rs1) := by
  revert rd rs1; unfold Statement; decide +kernel

theorem vsin (rd rs1 : VReg) : Statement (.vsin rd rs1) := by
  revert rd rs1; unfold Statement; decide +kernel

theorem vsincos (rd rd2 rs1 : VReg) : Statement (.vsincos rd rd2 rs1) := by
  revert rd rd2 rs1; unfold Statement; decide +kernel

theorem combine (rd rd2 rs1 rs2 : VReg) : Statement (.combine rd rd2 rs1 rs2) := by
  revert rd rd2 rs1 rs2; unfold Statement; decide +kernel

theorem vld (rd : VReg) : Statement (.vld rd) := by
  revert rd; unfold Statement; decide

theorem vst (rs1 : VReg) : Statement (.vst rs1) := by
  revert rs1; unfold Statement; decide

end Sys2Proof.Laws.Masked
end

