-- ==== Sys2Proof/Laws/Step.lean ====
section
/-! SUPPORT. What a step can do: the next turn is the Core's or the Host's (R208). -/

namespace Sys2Proof.Machine

/-- One inversion of `step`: an idle Core, a running command, an illegal word, the end of a wait, or
a Host move; `u` is the state with the turn taken off the script. -/
theorem step_cases (s : State) :
    (∃ u, (u = s ∨ ∃ rest, s.script = .core :: rest ∧ u = { s with script := rest }) ∧
        ((s.ndb.status.busy = false ∧ step s = .next u) ∨
          (s.ndb.status.busy = true ∧ ∃ i, decode s.ndb.cur = .instr i ∧ step s = exec i u) ∨
          (s.ndb.status.busy = true ∧ ∃ why, decode s.ndb.cur = .illegal why ∧
            step s = .next (raise u .illegalCommand (s.ndb.cur.setWidth 64))))) ∨
      (∃ rest, s.script = .wait :: rest ∧ s.ndb.status.busy = false ∧
        step s = .next { s with script := rest }) ∨
      (∃ m rest, s.script = .host m :: rest ∧ step s = hostStep m { s with script := rest }) := by
  have hcore : ∀ u : State, u.ndb = s.ndb →
      ((s.ndb.status.busy = false ∧ coreStep u = .next u) ∨
        (s.ndb.status.busy = true ∧ ∃ i, decode s.ndb.cur = .instr i ∧ coreStep u = exec i u) ∨
        (s.ndb.status.busy = true ∧ ∃ why, decode s.ndb.cur = .illegal why ∧
          coreStep u = .next (raise u .illegalCommand (s.ndb.cur.setWidth 64)))) := by
    intro u hu
    simp only [coreStep, runCommand, commandWord, hu]
    cases s.ndb.status.busy
    · simp
    · cases decode s.ndb.cur <;> simp
  unfold step takeTurn
  cases hs : s.script with
  | nil => exact .inl ⟨s, .inl rfl, hcore s rfl⟩
  | cons t rest =>
    cases t with
    | core => exact .inl ⟨_, .inr ⟨rest, rfl, rfl⟩, hcore _ rfl⟩
    | wait =>
      cases hb : s.ndb.status.busy
      · exact .inr (.inl ⟨rest, rfl, rfl, by simp⟩)
      · refine .inl ⟨s, .inl rfl, ?_⟩
        have := hcore s rfl
        rw [hb] at this
        simpa using this
    | host m => exact .inr (.inr ⟨m, rest, rfl, rfl⟩)

end Sys2Proof.Machine
end

