-- ==== Sys2Proof/Tests/Slice0.lean ====
section
/-! SUPPORT. Tests of the model against the vectors of spec/95_test_vectors.md, and, for every
statement with hypotheses, a state and operands that meet them. -/

open Sys2Proof Sys2Proof.Machine

namespace Sys2Proof.Tests

/-! ### Small states -/

/-- Whether a step gave a next state with a property. -/
def after (o : Host.Outcome State Fault Refusal) (p : State → Bool) : Bool :=
  match o with
  | .next t => p t
  | .fault _ => false
  | .refused _ => false

/-- After reset, with the command `w` accepted. -/
def running (w : Word) : State := State.reset.withFetchWord 32 w.toNat

/-- `s` with ADDR and COUNT written. -/
def operands (s : State) (a n : DWord) : State :=
  { s with ndb := { s.ndb with addr := a, count := n } }

/-- `s` with these turns to come. -/
def turns (s : State) (ts : List Turn) : State := { s with script := ts }

/-- `s` with the platform admitting only the `n` bytes from `a`. -/
def owning (s : State) (a n : Nat) : State := { s with regions := [{ base := a, size := n }] }

/-- A FILL at `a` of `n` elements, its command accepted. -/
def filling (a n : DWord) : State := operands (running 2) a n

/-- A FILL at `a` that stands before block `idx` of `nb`. -/
def atBlock (a nb idx : DWord) : State :=
  let s := filling a (16 * nb)
  { s with ndb := { s.ndb with fillNb := nb, fillIdx := idx } }

/-- After a BAD_COUNT fault of a FILL (V-FILL-4). -/
def faulted : State :=
  let s := operands State.reset 0x1000 8
  { s with ndb :=
    { s.ndb with
      status := { busy := false, done := false, err := true, ovr := false, code := 4 }
      faultInfo := 8, cur := 2 } }

/-- `s` as a machine that runs on at an unwritten read, as the hardware does (R204). -/
def asHardware (s : State) : State := { s with unwrittenRule := .runOn }

/-- The lanes of V-XFER-2, which are also the inputs of V-KER-1. -/
def lanes1 : Batch :=
  #v[0x3F800000, 0x3F000000, 0x3E800000, 0x34000000, 0x3F7FFFFE, 0x00000001, 0x3F3504F3,
    0x3DCCCCCD]

/-- `s` with `V[n]` written. -/
def holding (s : State) (n : VReg) (v : Batch) : State := writeV s n v

/-- Kernels with the KCR values of a few inputs (V-KER-1 to V-KER-3) and zeros elsewhere. -/
def tableKernels : KernelFns where
  log x := if x = 0x3F000000 then 0xBF317218 else 0
  sin _ := 0
  sincos x := if x = 0x3FC90FDB then (0x3F800000, 0xB33BBD2E) else (0, 0x3F800000)

/-- This hardware with those kernels. -/
def tableConfig : Config := { Config.this with kernels := tableKernels }

/-! ### Encodings, written out bit by bit from 30_encoding.md R70 and R74 -/

theorem test_decode_nop : decode 0b00000000000000000000000000000000 = .instr .nop := by decide
theorem test_decode_reseed : decode 0b00000000000000000000000000000001 = .instr .reseed := by decide
theorem test_decode_fill : decode 0b00000000000000000000000000000010 = .instr .fill := by decide
theorem test_decode_draw : decode 0b00000000000000000000011100010000 = .instr (.draw 7) := by decide
theorem test_decode_vlog : decode 0b00000000000000000000000100010001 = .instr (.vlog 1 0) := by
  decide
theorem test_decode_vsin : decode 0b00000000000000000010001100010010 = .instr (.vsin 3 2) := by
  decide
theorem test_decode_vsincos :
    decode 0b00000000010100000010010000010011 = .instr (.vsincos 4 5 2) := by decide
theorem test_decode_combine :
    decode 0b00000000001100010000001000010100 = .instr (.combine 2 3 0 1) := by decide
theorem test_decode_vld : decode 0b00000000000000000000010100100000 = .instr (.vld 5) := by decide
theorem test_decode_vst : decode 0b00000000000000000111000000100001 = .instr (.vst 7) := by decide

/-- V-ENC-1: destinations that name sources. -/
theorem test_decode_in_place :
    decode 0x00110014 = .instr (.combine 0 1 0 1) ∧ decode 0x00776614 = .instr (.combine 6 7 6 7) := by
  decide

/-- V-ENC-2: every illegal word, by the check it fails. -/
theorem test_decode_illegal :
    decode 0x00000003 = .illegal .unknownOpcode ∧ decode 0x000000FF = .illegal .unknownOpcode ∧
    decode 0x01000002 = .illegal .reservedBits ∧ decode 0x00000102 = .illegal .unusedField ∧
    decode 0x00000810 = .illegal .registerRange ∧ decode 0x00001010 = .illegal .unusedField ∧
    decode 0x00100113 = .illegal .sameDestination ∧ decode 0x00000014 = .illegal .sameDestination ∧
    decode 0x00008021 = .illegal .registerRange ∧ decode 0x00000015 = .illegal .unknownOpcode := by
  decide

theorem test_encode :
    encode (.vsincos 4 5 2) = 0x00502413 ∧ encode (.combine 2 3 0 1) = 0x00310214 ∧
      encode (.vst 7) = 0x00007021 ∧ encode (.draw 7) = 0x00000710 := by decide

theorem test_decodeTableWord : decodeTableWord 32 0x00502413 = some (.vsincos 4 5 2) ∧
    decodeTableWord 32 0x00000015 = none := by decide

/-- R79. -/
theorem test_asm : (Instr.combine 2 3 0 1).asm = "COMBINE v2, v3, v0, v1" := by decide

/-! ### Well-formedness: a term that each check refuses (R76) -/

theorem test_wellFormed_vsincos : ¬(Instr.vsincos 1 1 0).WellFormed := by decide
theorem test_wellFormed_combine : ¬(Instr.combine 0 0 1 2).WellFormed := by decide
theorem test_wellFormed_accepts : (Instr.combine 0 1 0 1).WellFormed ∧
    (Instr.vsincos 1 2 1).WellFormed ∧ (Instr.vlog 3 3).WellFormed := by decide

/-! ### Arithmetic -/

/-- V-GEN-1. -/
theorem test_lcgStep :
    lcgStep Config.this 0xFFFFFFFF = 0x3C558D52 ∧ lcgStep Config.this 0x3C6EF35F = 0x47502932 := by
  decide

/-- V-GEN-2. -/
theorem test_toUniform :
    toUniform 0x000001FF = 0 ∧ toUniform 0x00000200 = 0x34000000 ∧
      toUniform 0x3C6EF35F = 0x3E71BBC8 ∧ toUniform 0xFFFFFE00 = 0x3F7FFFFE := by decide +kernel

/-- V-CMB-1 and V-CMB-2: values that no kernel enters. -/
theorem test_float_combiner :
    F32.fsub 0x3F800000 0x3E722160 = 0x3F4377A8 ∧ F32.fsub 0x3F800000 0x3F7FFFFE = 0x34000000 ∧
    F32.fmul 0x40C90FDB 0x3EBD1108 = 0x40147E15 ∧ F32.fmul 0x40C90FDB 0x3F7FFFFE = 0x40C90FD9 ∧
    F32.fmul 0xC0000000 0xC17F1402 = 0x41FF1402 ∧ F32.fsqrt 0x41FF1402 = 0x40B4B170 ∧
    F32.fsqrt 0x34800001 = 0x3A000000 ∧ F32.fmul 0x40B4B170 0xB55110B4 = 0xB69390A7 := by
  decide +kernel

/-- Subnormals are kept, ties go to even, overflow is infinity (R127, IEEE-754). -/
theorem test_float_edges :
    F32.fsub 0x00800000 0x00000001 = 0x007FFFFF ∧ F32.fmul 0x00000001 0x3F000000 = 0 ∧
    F32.fmul 0x00000003 0x3F000000 = 0x00000002 ∧ F32.fmul 0x7F7FFFFF 0x40000000 = 0x7F800000 ∧
    F32.fsqrt 0x80000000 = 0x80000000 ∧ F32.fsub 0x80000000 0 = 0x80000000 ∧
    F32.fsub 0 0x80000000 = 0 := by decide +kernel

/-- R127: zero times infinity and the root of a negative value are NaN, whichever NaN it is. -/
theorem test_float_nan :
    F32.isNaN (F32.fmul 0 0x7F800000) = true ∧ F32.isNaN (F32.fsqrt 0xBF800000) = true :=
  ⟨F32.nanResult_isNaN .mul 0 0x7F800000, F32.nanResult_isNaN .sqrt 0xBF800000 0xBF800000⟩

/-- V-CMB-2, KCR: `u1 = 0.5`, `u2 = 0.25`, and the pole at `u1 = u2 = 0`. -/
theorem test_combineLane :
    combineRadius tableConfig 0x3F000000 = 0x3F96B55F ∧
      combineLane tableConfig 0x3F000000 0x3E800000 = (0xB35D0BB7, 0x3F96B55F) ∧
      combineLane tableConfig 0 0 = (0x80000000, 0x80000000) := by decide +kernel

/-! ### Instructions: one step each -/

/-- V-XFER-1: NOP from reset leaves STATUS = 2. -/
theorem test_nop : after (exec .nop (running 0)) (fun t => t.ndb.status.word == 2) = true := by
  decide

/-- R180: NOP does not clear OVR. -/
theorem test_nop_keeps_ovr :
    after (exec .nop (dropWrite (running 0))) (fun t => t.ndb.status.word == 0xA) = true := by decide

/-- V-GEN-3, SEED = 0x12345678. -/
theorem test_reseed :
    after (exec .reseed (windowWrite State.reset 0xFFFFFFFF12345678 .seed)) (fun t =>
      t.ndb.gen == #v[0x12345678, 0xB06BD031, 0x4EA349EA, 0xECDAC3A3, 0x8B123D5C, 0x2949B715,
        0xC78130CE, 0x65B8AA87]) = true := by decide +kernel

/-- R104: the batch registers and SEED stay. -/
theorem test_reseed_frame :
    after (exec .reseed (holding State.reset 3 lanes1)) (fun t =>
      t.ndb.v[3] == lanes1 && t.ndb.wr[3] && t.ndb.seed == 1) = true := by decide +kernel

/-- V-GEN-4, the first draw: the states and the values of the NEW states. -/
theorem test_draw :
    after (exec (.draw 0) State.reset) (fun t =>
      t.ndb.gen == #v[0x3C88596C, 0x42EA3DD1, 0x494C2236, 0x4FAE069B, 0x560FEB00, 0x5C71CF65,
        0x62D3B3CA, 0x6935982F] &&
      t.ndb.v[0] == #v[0x3E722160, 0x3E85D478, 0x3E929844, 0x3E9F5C0C, 0x3EAC1FD4, 0x3EB8E39C,
        0x3EC5A764, 0x3ED26B30] && t.ndb.wr[0] && !t.ndb.wr[1]) = true := by decide +kernel

/-- V-GEN-4: two draws into v7, the second value. -/
theorem test_draw_twice :
    after (runCommands [.draw 7, .draw 7] State.reset) (fun t =>
      t.ndb.v[7] == #v[0x3EBD1108, 0x3ABCB800, 0x3F223434, 0x3E881414, 0x3F65DFE2, 0x3F07B5B8,
        0x3E262E40, 0x3F4B6166] && t.ndb.wr[7]) = true := by decide +kernel

/-- R130: VLOG writes its destination's flag and completes; the kernel's values are free. -/
theorem test_vlog :
    after (exec (.vlog 1 0) (holding State.reset 0 lanes1)) (fun t =>
      t.ndb.wr[1] && t.ndb.v[0] == lanes1 && t.unwrittenRead == none &&
        t.ndb.status.word == 2) = true := by decide +kernel

/-- R131. -/
theorem test_vsin :
    after (exec (.vsin 3 2) (holding State.reset 2 lanes1)) (fun t =>
      t.ndb.wr[3] && t.ndb.v[2] == lanes1 && t.ndb.status.word == 2) = true := by decide +kernel

/-- R132: both destinations are written. -/
theorem test_vsincos :
    after (exec (.vsincos 4 5 2) (holding State.reset 2 lanes1)) (fun t =>
      t.ndb.wr[4] && t.ndb.wr[5] && t.ndb.v[2] == lanes1 && t.ndb.status.word == 2) = true := by
  decide +kernel

/-- R132: the sine goes to RD and the cosine to RD2 (V-KER-3's order). -/
theorem test_vsincos_order :
    exec (.vsincos 4 5 2) (holding State.reset 2 lanes1) =
      .next (complete (writeV (writeV (holding State.reset 2 lanes1) 4
        (Lanes.of fun i => (Config.this.kernels.sincos lanes1[i]).1)) 5
        (Lanes.of fun i => (Config.this.kernels.sincos lanes1[i]).2))) := rfl

/-- R141: in place, both sources are read before any write (P6). -/
theorem test_combine_in_place :
    exec (.combine 0 1 0 1) (holding (holding State.reset 0 lanes1) 1 lanes1) =
      .next (complete (writeV (writeV (holding (holding State.reset 0 lanes1) 1 lanes1) 0
        (combineZ0 Config.this lanes1 lanes1)) 1 (combineZ1 Config.this lanes1 lanes1))) := rfl

/-- R205: the first unwritten source, RS1 before RS2, is the one that a machine which runs on
records. -/
theorem test_combine_unwritten :
    after (exec (.combine 2 3 6 5) (asHardware State.reset)) (fun t => t.unwrittenRead == some 6) &&
      after (exec (.combine 2 3 0 5) (asHardware (holding State.reset 0 lanes1))) (fun t =>
        t.unwrittenRead == some 5) = true := by decide +kernel

/-- V-XFER-2: VST and VLD bring the batch back, at another register. -/
theorem test_vst_vld :
    after (runCommands [.vst 0, .vld 4] (operands (holding State.reset 0 lanes1) 0x3040 0)) (fun t =>
      t.ndb.v[4] == lanes1 && t.ndb.wr[4] && Memory.read t.mem 0x3043 == 0x3F &&
        Memory.read t.mem 0x3042 == 0x80 && Memory.wf t.mem) = true := by decide +kernel

/-- V-XFER-3: VLD at a misaligned address. -/
theorem test_vld_misaligned :
    after (exec (.vld 0) (operands (running 0x20) 0x3008 0)) (fun t =>
      t.ndb.status.word == 0x304 && t.ndb.faultInfo == 0x3008 && !t.ndb.wr[0]) = true := by decide

/-- V-XFER-3: VST at the null address after reset: R205 puts the fault of R204 before NULL_BUFFER. -/
theorem test_vst_null_stops :
    exec (.vst 0) (operands (running 0x21) 0 0) = .fault (.unwrittenRead 0) := rfl

/-- R205: the lowest source field decides. -/
theorem test_combine_stops :
    exec (.combine 2 3 6 5) State.reset = .fault (.unwrittenRead 6) ∧
      exec (.combine 2 3 0 5) (holding State.reset 0 lanes1) = .fault (.unwrittenRead 5) :=
  ⟨rfl, rfl⟩

/-- V-XFER-3: VST at the null address, on hardware, with the unwritten read on record. -/
theorem test_vst_null :
    after (exec (.vst 0) (operands (asHardware (running 0x21)) 0 0)) (fun t =>
      t.ndb.status.word == 0x204 && t.ndb.faultInfo == 0 && t.unwrittenRead == some 0) = true := by
  decide

/-- V-FILL-4: each check, in its order. -/
theorem test_fill_checks :
    (after (step (filling 0 16)) (fun t => t.ndb.status.word == 0x204 && t.ndb.faultInfo == 0) &&
      after (step (filling 0x1010 16)) (fun t =>
        t.ndb.status.word == 0x304 && t.ndb.faultInfo == 0x1010) &&
      after (step (filling 0x1004 8)) (fun t => t.ndb.status.word == 0x304) &&
      after (step (filling 0x1000 17)) (fun t =>
        t.ndb.status.word == 0x404 && t.ndb.faultInfo == 0x11) &&
      after (step (filling 0xFFFFFFFFFFFFFFE0 16)) (fun t =>
        t.ndb.status.word == 0x504 && t.ndb.faultInfo == 0xFFFFFFFFFFFFFFE0) &&
      after (step (filling 0xFFFFFFFFFFFFFFC0 16)) (fun t =>
        t.ndb.status.word == 1 && t.ndb.fillNb == 1) &&
      after (step (filling 0x1000 0)) (fun t => t.ndb.status.word == 2)) = true := by
  decide +kernel

/-- V-FILL-5: the second block's second half is refused; S stays as after two draws. -/
theorem test_fill_refused :
    after (step (owning { atBlock 0x1000 2 1 with ndb := { (atBlock 0x1000 2 1).ndb with
        gen := #v[0x5E8885DB, 0x005E5CFC, 0xA234341D, 0x440A0B3E, 0xE5DFE25F, 0x87B5B980,
          0x298B90A1, 0xCB6167C2] } } 0x1000 0x60)) (fun t =>
      t.ndb.status.word == 0x604 && t.ndb.faultInfo == 0x1060 && t.mem == [] &&
        t.ndb.gen[0] == 0x5E8885DB && t.ndb.fillIdx == 1) = true := by decide +kernel

/-! ### The window, reset -/

/-- V-REG-1, R31. -/
theorem test_reset_window :
    windowRead State.reset .cmd = 0 ∧ windowRead State.reset .status = 0 ∧
      windowRead State.reset .seed = 1 ∧ windowRead State.reset .params = 0x01200808 ∧
      windowRead State.reset .reserved = 0 := by decide

/-- V-REG-2, V-REG-3: a dropped write sets OVR; after a fault COUNT can be written, CMD cannot. -/
theorem test_dropped_writes :
    (windowWrite (filling 0x1000 16) 0x5000 .addr).ndb.addr = 0x1000 ∧
      (windowWrite (filling 0x1000 16) 0x5000 .addr).ndb.status.ovr = true ∧
      (windowWrite faulted 16 .count).ndb.count = 16 ∧
      (windowWrite faulted 2 .cmd).ndb.status.word = 0x40C := by decide

/-- R38: the lane states after reset. -/
theorem test_reset_generator :
    State.reset.ndb.gen = #v[0x00000001, 0x9E3779BA, 0x3C6EF373, 0xDAA66D2C, 0x78DDE6E5,
      0x1715609E, 0xB54CDA57, 0x53845410] := by decide

/-- R222: a run has ended when no Host move is left and the core is idle, Core turns or none. -/
theorem test_ended :
    (turns State.reset [.core, .core]).ended = true ∧ State.reset.ended = true ∧
      (turns State.reset [.core, .host .reset]).ended = false ∧ (running 0).ended = false := by
  decide

/-! ### Hypotheses that are met

One theorem for each statement of Certificates/Slice0/Obligations.lean that has hypotheses; where a
statement has several clauses, one state or word for each, at the ends of the ranges. -/

theorem test_wit_DecodeOfEncode :
    (Instr.combine 6 7 6 7).WellFormed ∧ (Instr.vsincos 0 1 7).WellFormed := by decide

theorem test_wit_EncodeOfDecode :
    decode 0x00776614 = .instr (.combine 6 7 6 7) ∧ decode 0x00007021 = .instr (.vst 7) := by decide

/-- Both sides of the equivalence, and both ways of missing it. -/
theorem test_wit_LegalWordsMatchTheMap :
    ((0x00776614 : Word) &&& 0xFF8888FF = 0x14 ∧ decode 0x00776614 = .instr (.combine 6 7 6 7)) ∧
    ((0x00000014 : Word) &&& 0xFF8888FF = 0x14 ∧ decode 0x00000014 = .illegal .sameDestination) ∧
    ((0x00800014 : Word) &&& 0xFF8888FF ≠ 0x14 ∧ decode 0x00800014 = .illegal .registerRange) := by
  decide

/-- Words at the edge of each condition: illegal and running, or the legal neighbour. -/
theorem test_wit_IllegalWordRaises :
    (∀ w ∈ [(0x01000000 : Word), 0x03, 0x0F, 0x15, 0x1F, 0x22, 0xFF, 0x810, 0x102, 0x8021, 0x1010,
        0x80214, 0x10111, 0x800114, 0x100111, 0x00100113],
      (running w).ndb.status.busy = true ∧ (running w).script = [] ∧ (running w).ndb.cur = w ∧
        ∃ why, decode w = .illegal why) ∧
    (∀ w ∈ [(0x00 : Word), 0x02, 0x14 + 0x100, 0x20, 0x21, 0x710, 0x7021, 0x00677714, 0x700013],
      ∃ i, decode w = .instr i) := by
  refine ⟨fun w hw => ?_, fun w hw => ?_⟩
  · fin_cases hw <;> exact ⟨rfl, rfl, rfl, _, rfl⟩
  · fin_cases hw <;> exact ⟨_, rfl⟩

theorem test_wit_StepRunsDecodedCommand :
    (running 0x10).ndb.status.busy = true ∧ decode (running 0x10).ndb.cur = .instr (.draw 0) ∧
      (running 0x10).script = [] ∧ (turns (running 0x10) [.core]).script = [.core] ∧
      (turns (running 0x10) [.wait]).script = [.wait] := by decide

theorem test_wit_IdleCoreHoldsItsState :
    State.reset.ndb.status.busy = false ∧ State.reset.script = [] ∧
      (turns State.reset [.core]).script = [.core] ∧
      (turns State.reset [.wait]).script = [.wait] := by decide

theorem test_wit_UniformConversionIsExact :
    toUniform 0x1FF = toUniform 0 ∧ (0x1FF : Word).toNat / 2 ^ 9 = 0 ∧ toUniform 0x200 ≠ 0 ∧
      (0 : ℕ) < 2 ^ 23 := by decide +kernel

/-- A lane whose next state is 0, one whose next state is the last below 0x200, and one past it. -/
theorem test_wit_DrawAdvancesAndReturns :
    lcgStep Config.this 0x25D60FE5 = 0 ∧ lcgStep Config.this 0xE7A74120 = 0x1FF ∧
      lcgStep Config.this 0xE68799E5 = 0x200 ∧ decode 0x10 = .instr (.draw 0) ∧
      ∃ t, exec (.draw 0) State.reset = .next t :=
  ⟨by decide, by decide, by decide, by decide, _, rfl⟩

theorem test_wit_ReseedConstructsTheGenerator :
    State.reset.ndb.seed = 1 ∧ (windowWrite State.reset 0 .seed).ndb.seed = 0 ∧
      (0xFFFFFF01 : Word).toNat % 256 = 1 ∧ decode 0xFFFFFF01 = .illegal .reservedBits := by decide

theorem test_wit_LaneStepIterates :
    Config.this.lcgA.toNat % 2 = 1 ∧ (0 : Word) ≠ 1 := by decide

theorem test_wit_LaneSeedsDistinct : Config.this.WellFormed ∧ (0 : Lane) ≠ 7 :=
  ⟨Config.this_wellFormed, by decide⟩

/-- Two machines that agree in `S` and SEED and differ in ADDR and a batch register. -/
theorem test_wit_StreamDependsOnSeedAndStateOnly :
    (∀ i ∈ [Instr.reseed, .draw 3], i = .reseed ∨ ∃ rd, i = .draw rd) ∧
    (holding (filling 0x40 16) 2 lanes1).ndb.gen = State.reset.ndb.gen ∧
    (holding (filling 0x40 16) 2 lanes1).ndb.seed = State.reset.ndb.seed ∧
    (holding (filling 0x40 16) 2 lanes1).ndb.addr ≠ State.reset.ndb.addr :=
  ⟨by simp, rfl, rfl, by decide⟩

/-! The values of a few binary32 numbers. -/

theorem real_of_units {x : F32} {u : ℤ} (h : F32.units x = u) : F32.real x = u / 2 ^ 149 := by
  simp [F32.real, F32.value, h]

theorem real_one : F32.real 0x3F800000 = 1 := by
  rw [real_of_units (u := 713623846352979940529142984724747568191373312)
    (by decide +kernel)]; norm_num

theorem real_smallest : F32.real 0x00000001 = 1 / 2 ^ 149 := by
  rw [real_of_units (u := 1) (by decide +kernel)]; norm_num

theorem real_pow23 : F32.real 0x34000000 = 1 / 2 ^ 23 := by
  rw [real_of_units (u := 85070591730234615865843651857942052864)
    (by decide +kernel)]; norm_num

theorem real_zero : F32.real 0 = 0 := by
  rw [real_of_units (x := 0) (u := 0) (by decide +kernel)]; norm_num

/-- The largest binary32 below 2π. -/
theorem real_belowTwoPi : F32.real 0x40C90FDA = 13176794 / 2 ^ 21 := by
  rw [real_of_units (u := 4483830650749620419733413746959278778104152064)
    (by decide +kernel)]; norm_num

theorem belowTwoPi : F32.real 0x40C90FDA < 2 * Real.pi := by
  rw [real_belowTwoPi]
  have := Real.pi_gt_d20
  norm_num at this ⊢
  linarith

/-- Also operands that differ, that are equal, and (−0) − (+0). -/
theorem test_wit_SubtractionIsCorrectlyRounded :
    F32.isFinite 0x3F800000 = true ∧ F32.isFinite 0x80000000 = true ∧
      F32.isFinite 0x7F7FFFFF = true ∧ F32.real 0x3F800000 = F32.real 0x3F800000 ∧
      F32.real 0x80000000 = F32.real 0 := by
  refine ⟨by decide, by decide, by decide, rfl, ?_⟩
  rw [real_zero, real_of_units (x := 0x80000000) (u := 0) (by decide +kernel)]; norm_num

theorem test_wit_MultiplicationIsCorrectlyRounded :
    F32.isFinite 0x00000001 = true ∧ F32.isFinite 0x7F7FFFFF = true ∧
      F32.isZero 0x80000000 = true := by decide

theorem test_wit_SquareRootIsCorrectlyRounded :
    F32.isFinite 0x00000001 = true ∧ 0 < F32.real 0x00000001 := by
  refine ⟨by decide, ?_⟩
  rw [real_smallest]; norm_num

theorem test_wit_FloatSpecialCases :
    F32.isFinite 0x00000001 = true ∧ F32.isZero 0x80000000 = true ∧ F32.isInf 0xFF800000 = true ∧
      F32.isNeg 0x80000001 = true ∧ F32.isZero 0x80000001 = false ∧
      F32.isNaN 0x7F800001 = true := by decide

/-- The ends of both domains. -/
theorem test_wit_KernelsAreAccurate :
    (F32.isFinite 0x00000001 = true ∧ 0 < F32.real 0x00000001 ∧ F32.real 0x00000001 ≤ 1) ∧
    (F32.isFinite 0x3F800000 = true ∧ 0 < F32.real 0x3F800000 ∧ F32.real 0x3F800000 ≤ 1) ∧
    (F32.isNeg 0 = false ∧ F32.isFinite 0 = true ∧ F32.real 0 < 2 * Real.pi) ∧
    (F32.isNeg 0x40C90FDA = false ∧ F32.isFinite 0x40C90FDA = true ∧
      F32.real 0x40C90FDA < 2 * Real.pi) := by
  refine ⟨⟨by decide, ?_, ?_⟩, ⟨by decide, ?_, ?_⟩, ⟨by decide, by decide, ?_⟩,
    by decide, by decide, belowTwoPi⟩
  · rw [real_smallest]; norm_num
  · rw [real_smallest]; norm_num
  · rw [real_one]; norm_num
  · rw [real_one]
  · rw [real_zero]; positivity

theorem test_wit_LogConsequences :
    Config.this.kernels.Admissible ∧
    (F32.isFinite 0x00000001 = true ∧ 0 < F32.real 0x00000001 ∧ F32.real 0x00000001 < 1) ∧
    (F32.isFinite 0x34000000 = true ∧ 1 / 2 ^ 23 ≤ F32.real 0x34000000 ∧
      F32.real 0x34000000 ≤ 1) ∧
    (1 / 2 ^ 23 ≤ F32.real 0x3F800000 ∧ F32.real 0x3F800000 ≤ 1) := by
  refine ⟨Config.this_kernels_admissible, ⟨by decide, ?_, ?_⟩, ⟨by decide, ?_, ?_⟩, ?_, ?_⟩ <;>
    simp only [real_smallest, real_pow23, real_one] <;> norm_num

theorem test_wit_SincosAccurateAndUnrelatedToSin :
    F32.isNeg 0x40C90FDA = false ∧ F32.isFinite 0x40C90FDA = true ∧
      F32.real 0x40C90FDA < 2 * Real.pi := ⟨by decide, by decide, belowTwoPi⟩

/-- Both ways of being readable: an unwritten source where the machine runs on, and a written one
where it stops, as it does from reset. -/
theorem readable_sources :
    Readable (asHardware State.reset) [0, 1] ∧ Readable (holding State.reset 0 lanes1) [0] ∧
      Readable (holding (holding State.reset 0 lanes1) 1 lanes1) [0, 1] :=
  ⟨.inl rfl, .inr (by decide), .inr (by decide)⟩

theorem test_wit_VlogVsinResults :
    Readable (asHardware State.reset) [0] ∧ State.reset.ndb.wr[(0 : VReg)] = false ∧
      Readable (holding State.reset 0 lanes1) [0] ∧
      (holding State.reset 0 lanes1).ndb.wr[(0 : VReg)] = true :=
  ⟨.inl rfl, by decide, readable_sources.2.1, by decide⟩

/-- A destination that is the source is allowed. -/
theorem test_wit_VsincosResults : (4 : VReg) ≠ 5 ∧ (0 : VReg) ≠ 7 ∧
    Readable (asHardware State.reset) [0] ∧ Readable (holding State.reset 0 lanes1) [0] :=
  ⟨by decide, by decide, .inl rfl, readable_sources.2.1⟩

theorem test_wit_CombineResults : (0 : VReg) ≠ 1 ∧ Readable (asHardware State.reset) [0, 1] ∧
    Readable (holding (holding State.reset 0 lanes1) 1 lanes1) [0, 1] ∧
    ∃ sinT cosT : F32, (sinT, cosT) = Config.this.kernels.sincos 0 :=
  ⟨by decide, readable_sources.1, readable_sources.2.2, _, _, rfl⟩

theorem test_wit_SourcesAreReadBeforeDestinations :
    (0 : VReg) ≠ 1 ∧ (2 : VReg) ≠ 3 ∧ Readable (asHardware State.reset) [0, 1] ∧
      Readable (holding (holding State.reset 0 lanes1) 1 lanes1) [0, 1] :=
  ⟨by decide, by decide, readable_sources.1, readable_sources.2.2⟩

/-- The first unwritten source, in either field, under either rule and either record; a step that
stops, and one that leads on. -/
theorem test_wit_UnwrittenReadStopsOrRunsOn :
    (holding State.reset 0 lanes1).ndb.wr[(5 : VReg)] = false ∧
      (holding State.reset 0 lanes1).ndb.wr[(0 : VReg)] = true ∧
      State.reset.unwrittenRule = .stop ∧ (asHardware State.reset).unwrittenRule = .runOn ∧
      (asHardware State.reset).unwrittenRead = none ∧
      ({ asHardware State.reset with unwrittenRead := some 3 } : State).unwrittenRead = some 3 ∧
      exec (.vst 7) State.reset = .fault (.unwrittenRead 7) ∧
      ∃ t, step (atBlock 0x1000 2 1) = .next t :=
  ⟨by decide, by decide, rfl, rfl, rfl, rfl, rfl, _, rfl⟩

/-- `k` with another zero for LOG(1). -/
def withLogOne (k : KernelFns) (z : F32) : KernelFns :=
  { k with log := fun x => if x = 0x3F800000 then z else k.log x }

/-- Either sign of zero may stand for LOG(1) (I3). -/
theorem withLogOne_admissible {k : KernelFns} (h : k.Admissible) {z : F32}
    (hz : F32.units z = 0) (hf : F32.isFinite z = true) : (withLogOne k z).Admissible where
  log_accurate x hx := by
    show F32.Within (if x = 0x3F800000 then z else k.log x) _ _
    by_cases h1 : x = 0x3F800000
    · have hv : ((F32.value x : ℚ) : ℝ) = 1 := by rw [h1]; exact real_one
      have hz' : ((F32.value z : ℚ) : ℝ) = 0 := by simp [F32.value, hz]
      rw [if_pos h1, hv, F32.Within, hz', Real.log_one]
      exact ⟨hf, by simp⟩
    · rw [if_neg h1]
      exact h.log_accurate x hx
  sin_accurate := h.sin_accurate
  sincos_sin_accurate := h.sincos_sin_accurate
  sincos_cos_accurate := h.sincos_cos_accurate

/-- Both signs of LOG(1), in well-formed configurations; and the last clause's kernels. -/
theorem test_wit_PoleGivesZeros :
    (∃ c : Config, c.WellFormed ∧ c.twoPi = 0x40C90FDB ∧ c.kernels.log 0x3F800000 = 0) ∧
    (∃ c : Config, c.WellFormed ∧ c.twoPi = 0x40C90FDB ∧
      c.kernels.log 0x3F800000 = 0x80000000) ∧
    (tableConfig.kernels.log 0x3F800000 = 0 ∧ tableConfig.kernels.sincos 0 = (0, 0x3F800000) ∧
      tableConfig.twoPi = 0x40C90FDB) := by
  refine ⟨⟨{ Config.this with kernels := withLogOne Config.this.kernels 0 }, ⟨?_, ?_⟩, rfl, ?_⟩,
    ⟨{ Config.this with kernels := withLogOne Config.this.kernels 0x80000000 }, ⟨?_, ?_⟩, rfl, ?_⟩,
    by decide⟩
  · exact Config.this_wellFormed.1
  · exact withLogOne_admissible Config.this_kernels_admissible (by decide) (by decide)
  · simp [withLogOne]
  · exact Config.this_wellFormed.1
  · exact withLogOne_admissible Config.this_kernels_admissible (by decide) (by decide)
  · simp [withLogOne]

theorem test_wit_RadiusRange : Config.this.WellFormed := Config.this_wellFormed

theorem test_wit_CombinerOutputsAreFinite :
    Config.this.WellFormed ∧ Config.this.twoPi = 0x40C90FDB := ⟨Config.this_wellFormed, rfl⟩

/-- One state for each branch; the range ends at the last address that fits. -/
theorem test_wit_FillChecksInOrder :
    (∀ s ∈ [filling 0 16, filling 0x1004 8, filling 0x1000 8, filling 0xFFFFFFFFFFFFFFE0 16,
      filling 0xFFFFFFFFFFFFFFC0 16], ¬ s.ndb.fillIdx < s.ndb.fillNb) ∧
    (filling 0x1004 8).ndb.addr.toNat % 32 ≠ 0 ∧ (filling 0x1000 8).ndb.count.toNat % 16 ≠ 0 ∧
    (filling 0xFFFFFFFFFFFFFFE0 16).ndb.addr.toNat + 4 * 16 > 2 ^ 64 ∧
    (filling 0xFFFFFFFFFFFFFFC0 16).ndb.addr.toNat + 4 * 16 = 2 ^ 64 := by decide

theorem test_wit_FillOfNothingCompletes :
    ∀ s ∈ [filling 0x20 0, filling 0 0, filling 0x10 0],
      ¬ s.ndb.fillIdx < s.ndb.fillNb ∧ s.ndb.count = 0 := by decide

theorem test_wit_FillStartCountsBlocks :
    ∀ s ∈ [filling 0x20 16, filling 0xFFFFFFFFFFFFFFC0 16, filling 0x40 0x3FFFFFFFFFFFFFF0],
      ¬ s.ndb.fillIdx < s.ndb.fillNb ∧ s.ndb.addr ≠ 0 ∧ s.ndb.addr.toNat % 32 = 0 ∧
      s.ndb.count.toNat % 16 = 0 ∧ s.ndb.addr.toNat + 4 * s.ndb.count.toNat ≤ 2 ^ 64 ∧
      s.ndb.count ≠ 0 := by decide

/-- A block that is admitted, one whose first half is refused and one whose second half is. -/
theorem test_wit_FillBlockStoresTwoBatches :
    (∀ s ∈ [atBlock 0x1000 2 1, owning (atBlock 0x1000 2 1) 0x1000 0x40,
        owning (atBlock 0x1000 2 1) 0x1000 0x60],
      s.ndb.fillIdx < s.ndb.fillNb ∧ Memory.wf s.mem = true ∧
      0x1040 = s.ndb.addr.toNat + 64 * s.ndb.fillIdx.toNat) ∧
    ((atBlock 0x1000 2 1).admits 0x1040 = true ∧
      (atBlock 0x1000 2 1).admits (0x1040 + 32) = true) ∧
    (owning (atBlock 0x1000 2 1) 0x1000 0x40).admits 0x1040 = false ∧
    ((owning (atBlock 0x1000 2 1) 0x1000 0x60).admits 0x1040 = true ∧
      (owning (atBlock 0x1000 2 1) 0x1000 0x60).admits (0x1040 + 32) = false) ∧
    (4 : VReg) ≠ 5 := by decide

theorem test_wit_FillTouchesNothingElse :
    Memory.wf (filling 0x1000 32).mem = true ∧ (∃ t, exec .fill (filling 0x1000 32) = .next t) ∧
      (∃ t, exec .fill (atBlock 0x1000 2 1) = .next t) ∧
      ¬ (filling 0x1000 32).ndb.fillIdx < (filling 0x1000 32).ndb.fillNb ∧
      (atBlock 0x1000 2 1).ndb.fillIdx < (atBlock 0x1000 2 1).ndb.fillNb :=
  ⟨rfl, ⟨_, rfl⟩, ⟨_, rfl⟩, by decide, by decide⟩

theorem test_wit_FillRunsToCompletion :
    ∀ s ∈ [filling 0x1000 32, filling 0x20 0], s.script = [] ∧ s.ndb.status.busy = true ∧
      s.ndb.cur = 2 ∧ s.ndb.fillIdx = s.ndb.fillNb ∧ Memory.wf s.mem = true ∧ s.ndb.addr ≠ 0 ∧
      s.ndb.addr.toNat % 32 = 0 ∧ s.ndb.count.toNat % 16 = 0 ∧
      s.ndb.addr.toNat + 4 * s.ndb.count.toNat ≤ 2 ^ 64 ∧
      ∀ b < s.ndb.count.toNat / 16, s.admits (s.ndb.addr.toNat + 64 * b) = true ∧
        s.admits (s.ndb.addr.toNat + 64 * b + 32) = true := by decide +kernel

/-- V-FILL-5, refused at the first or the second half of block 1; and refused at once. -/
theorem test_wit_FillFaultsAtTheRefusedBlock :
    ∀ p ∈ [(owning (filling 0x1000 32) 0x1000 0x40, 1), (owning (filling 0x1000 32) 0x1000 0x60, 1),
        (owning (filling 0x1000 32) 0 0, 0)],
      p.1.script = [] ∧ p.1.ndb.status.busy = true ∧ p.1.ndb.cur = 2 ∧
      p.1.ndb.fillIdx = p.1.ndb.fillNb ∧ Memory.wf p.1.mem = true ∧ p.1.ndb.addr ≠ 0 ∧
      p.1.ndb.addr.toNat % 32 = 0 ∧ p.1.ndb.count.toNat % 16 = 0 ∧
      p.1.ndb.addr.toNat + 4 * p.1.ndb.count.toNat ≤ 2 ^ 64 ∧ p.2 < p.1.ndb.count.toNat / 16 ∧
      (∀ b < p.2, p.1.admits (p.1.ndb.addr.toNat + 64 * b) = true ∧
        p.1.admits (p.1.ndb.addr.toNat + 64 * b + 32) = true) ∧
      ¬(p.1.admits (p.1.ndb.addr.toNat + 64 * p.2) = true ∧
        p.1.admits (p.1.ndb.addr.toNat + 64 * p.2 + 32) = true) := by decide +kernel

theorem test_wit_NopOnlyCompletes :
    faulted.ndb.status.err = true ∧ (0 : Word).toNat % 256 = 0 ∧
      decode 0x100 = .illegal .unusedField := by decide

/-- Each fault that can occur; the last address without one below the window and the first above;
the window's own addresses, at its first and its second half; an admitted access at the end of the
only range. -/
theorem test_wit_VectorMemoryChecksInOrder :
    (∀ s ∈ [operands State.reset 0 0, operands State.reset 0x3010 0,
        operands State.reset 0xFFFFFFFFFFFF0000 0, owning (operands State.reset 0x3000 0) 0x3000 31],
      checkVec s ≠ none) ∧
    checkVec (operands State.reset 0xFFFFFFFFFFFEFFE0 0) = none ∧
    checkVec (operands State.reset 0xFFFFFFFFFFFF0040 0) = none ∧
    checkVec (operands State.reset 0xFFFFFFFFFFFFFFE0 0) = none ∧
    (0xFFFFFFFFFFFFFFE0 : DWord).toNat % 32 = 0 ∧
    (∀ s ∈ [operands State.reset 0xFFFFFFFFFFFF0000 0, operands State.reset 0xFFFFFFFFFFFF0020 0],
      s.ndb.addr ≠ 0 ∧ s.ndb.addr.toNat % 32 = 0 ∧
      s.ndb.addr.toNat < s.windowBase.toNat + 64 ∧ s.windowBase.toNat < s.ndb.addr.toNat + 32) ∧
    (owning State.reset 0x3000 32).admits 0x3000 = true ∧
    (owning State.reset 0x3000 31).admits 0x3000 = false ∧ Readable (asHardware State.reset) [0] ∧
    Readable (holding State.reset 0 lanes1) [0] := by
  refine ⟨?_, ?_, ?_, ?_, ?_, ?_, ?_, ?_, .inl rfl, readable_sources.2.1⟩ <;> decide

theorem test_wit_VldLoadsABatch :
    (operands State.reset 0x20 0).ndb.addr ≠ 0 ∧
      (operands State.reset 0x20 0).ndb.addr.toNat % 32 = 0 ∧
      (operands State.reset 0x20 0).admits 0x20 = true ∧
      (∃ t, exec (.vld 0) (operands State.reset 0 0) = .next t ∧
        (operands State.reset 0 0).ndb.status.err = false ∧ t.ndb.status.err = true) :=
  ⟨by decide, by decide, by decide, _, rfl, rfl, rfl⟩

theorem test_wit_VstStoresABatch :
    ∀ s ∈ [operands (holding State.reset 0 lanes1) 0x20 0,
        operands (asHardware State.reset) 0xFFFFFFFFFFFFFFE0 0],
      Memory.wf s.mem = true ∧ s.ndb.addr ≠ 0 ∧ s.ndb.addr.toNat % 32 = 0 ∧
      s.admits s.ndb.addr.toNat = true ∧
      (s.unwrittenRule = .runOn ∨ s.ndb.wr[(0 : VReg)] = true) := by decide

theorem test_wit_MemoryIsLittleEndian :
    Memory.wf [(3, 7), (2 ^ 64 - 1, 1)] = true ∧ 2 ^ 64 - 32 + 32 ≤ 2 ^ 64 := by decide

/-- Steps that take a fault, one for each code that can occur. -/
theorem fault_steps :
    ∀ p ∈ [(running 3, (1 : BitVec 4)), (filling 0 16, 2), (filling 0x1004 8, 3),
        (filling 0x1000 8, 4), (filling 0xFFFFFFFFFFFFFFE0 16, 5),
        (owning (atBlock 0x1000 2 1) 0x1000 0x60, 6)],
      p.1.script = [] ∧ p.1.ndb.status.busy = true ∧ p.1.ndb.status.err = false ∧
        ∃ t, step p.1 = .next t ∧ t.ndb.status.err = true ∧ t.ndb.status.code = p.2 := by
  intro p hp
  fin_cases hp <;> exact ⟨rfl, rfl, rfl, _, rfl, rfl, rfl⟩

theorem test_wit_FaultEntry : (running 3).script = [] ∧ (running 3).ndb.status.busy = true ∧
    (running 3).ndb.status.err = false ∧ ∃ t, step (running 3) = .next t ∧
      t.ndb.status.err = true := ⟨rfl, rfl, rfl, _, rfl, rfl⟩

theorem test_wit_FaultCodesByCommand : (filling 0 16).script = [] ∧
    (filling 0 16).ndb.status.busy = true ∧ (filling 0 16).ndb.status.err = false ∧
      ∃ t, step (filling 0 16) = .next t ∧ t.ndb.status.err = true := ⟨rfl, rfl, rfl, _, rfl, rfl⟩

/-- Nothing to come, and each Host move that a clause names. -/
theorem test_wit_CoreIsHaltedAfterAFault :
    ∀ ts ∈ [[], [Turn.host (.writeReg .cmd 2)], [.host (.writeReg .addr 1)],
        [.host (.writeReg .count 1)], [.host (.writeReg .seed 1)], [.host (.readReg .status)]],
      (turns faulted ts).ndb.status.err = true ∧ (turns faulted ts).ndb.status.busy = false ∧
      (∃ t, step (turns faulted ts) = .next t) ∧
      ∀ rest, (turns faulted ts).script ≠ .host .reset :: rest := by
  intro ts hts
  fin_cases hts <;> exact ⟨rfl, rfl, ⟨_, rfl⟩, by simp [turns]⟩

theorem test_wit_CmdWriteIsAcceptedOrDropped :
    (turns State.reset [.host (.writeReg .cmd 2)]).ndb.status.busy = false ∧
      (turns State.reset [.host (.writeReg .cmd 2)]).ndb.status.err = false ∧
      (turns (running 0) [.host (.writeReg .cmd 2)]).ndb.status.busy = true ∧
      (turns faulted [.host (.writeReg .cmd 2)]).ndb.status.err = true := by decide

theorem test_wit_HostWritesWhileBusyOrFaulted :
    ((turns (running 0) [.host (.writeReg .seed 9)]).script = [.host (.writeReg .seed 9)] ∧
      (turns (running 0) [.host (.writeReg .seed 9)]).ndb.status.busy = true) ∧
    ((turns faulted [.host (.writeReg .count 9)]).script = [.host (.writeReg .count 9)] ∧
      (turns faulted [.host (.writeReg .count 9)]).ndb.status.err = true ∧
      (turns faulted [.host (.writeReg .count 9)]).ndb.status.busy = false) ∧
    (turns State.reset [.host (.writeReg .params 9)]).script = [.host (.writeReg .params 9)] ∧
    (turns State.reset [.host (.readReg .addr)]).script = [.host (.readReg .addr)] := by decide

theorem test_wit_SeedRegister : State.reset.ndb.status.busy = false := rfl

theorem test_wit_AddrAndCountBelongToTheHost : State.reset.ndb.status.busy = false ∧
    ∃ t, exec .fill (filling 0x1000 32) = .next t := ⟨rfl, _, rfl⟩

theorem test_wit_OnlyTheWritersWrite :
    (Readable (holding State.reset 0 lanes1) (sourcesOf (.vst 0)) ∧
      ∃ t, exec (.vst 0) (holding State.reset 0 lanes1) = .next t) ∧
    (∀ rd, Instr.vst 0 ≠ .draw rd) ∧ (Instr.vst 0 ≠ .reseed ∧ Instr.vst 0 ≠ .fill) ∧
      (∀ r, Instr.vld 0 ≠ .vst r) ∧ (holding State.reset 7 lanes1).ndb.wr[(7 : VReg)] = true :=
  ⟨⟨readable_sources.2.1, _, rfl⟩, by decide, by decide, by decide, by decide⟩

/-- The window's first and last byte and the bytes beside it; the operand's last byte and the byte
after it. -/
theorem test_wit_HostMemoryWrites :
    (turns (filling 0x1000 16) [.host (.writeMem 0x103F 5)]).script =
      [.host (.writeMem 0x103F 5)] ∧ Memory.wf (filling 0x1000 16).mem = true ∧
    (filling 0x1000 16).inWindow 0xFFFFFFFFFFFF0000 = true ∧
    (filling 0x1000 16).inWindow 0xFFFFFFFFFFFF003F = true ∧
    (filling 0x1000 16).inWindow 0xFFFFFFFFFFFF0040 = false ∧
    operandInUse (filling 0x1000 16) 0x103F = true ∧
    operandInUse (filling 0x1000 16) 0x1040 = false ∧
    operandInUse (operands (running 0x20) 0x1000 0) 0x101F = true ∧
    operandInUse (operands (running 0x20) 0x1000 0) 0x1020 = false := by decide

/-- NOP; a COMBINE of unwritten sources in a machine that runs on; a VST of a written one that passes
its checks. -/
theorem test_wit_RacingCmdWrite :
    ∀ p ∈ [(running 0, Instr.nop), (asHardware (running 0x00310214), .combine 2 3 0 1),
        (holding (operands (running 0x7021) 0x20 0) 7 lanes1, .vst 7)],
      p.1.ndb.status.busy = true ∧ p.1.ndb.status.err = false ∧
      decode p.1.ndb.cur = .instr p.2 ∧ p.2 ≠ .fill ∧ Readable p.1 (sourcesOf p.2) ∧
      ((∃ r, p.2 = .vld r ∨ p.2 = .vst r) → checkVec p.1 = none) := by
  intro p hp
  fin_cases hp
  · exact ⟨rfl, rfl, rfl, by decide, .inr (by decide), by decide⟩
  · exact ⟨rfl, rfl, rfl, by decide, .inl rfl, by decide⟩
  · exact ⟨rfl, rfl, rfl, by decide, .inr (by decide), by decide⟩

/-- Also while a command runs, and after a fault. -/
theorem test_wit_ResetValues :
    (turns (atBlock 0x1000 2 1) [.host .reset]).script = [.host .reset] ∧
      (turns faulted [.host .reset]).script = [.host .reset] := by decide

theorem test_wit_ResetAbandonsTheCommand :
    (turns (atBlock 0x1000 2 1) [.host .reset]).script = [.host .reset] := by decide

/-- A FILL between two blocks meets the invariant, and has a next state. -/
theorem test_wit_EveryStepKeepsTheInvariant :
    (atBlock 0x1000 2 1).Inv ∧ ∃ t, step (atBlock 0x1000 2 1) = .next t :=
  ⟨⟨rfl, by decide, by decide, fun _ _ => by decide, fun _ => ⟨by decide, by decide⟩⟩, _, rfl⟩

end Sys2Proof.Tests
end

section
/-! What `F32.roundMag` rounds to: the nearest multiple of the last place it keeps, and with it the
nearest binary32 (spec/00_scope.md R15). -/

namespace Sys2Proof

/-- `m` units of `2^d` are the 24-bit rounding of the magnitude `W`, ties to even: `d` is the place
of the last bit kept, and is above 0 only when `W` fills the 24 bits. -/
structure F32.Nearest (m d : ℕ) (W : ℝ) : Prop where
  le : m ≤ 2 ^ 24
  full : 0 < d → 2 ^ 23 * 2 ^ d ≤ W
  near : |(m * 2 ^ d : ℝ) - W| ≤ 2 ^ d / 2
  even : |(m * 2 ^ d : ℝ) - W| = 2 ^ d / 2 → m % 2 = 0

/-- The integer `n` may be rounded in place of `w`: it is `w`, or it is odd, hence never a tie, with
`w` strictly between its neighbours and at least two bits to drop. -/
def F32.StandsFor (n : ℕ) (w : ℝ) : Prop :=
  w = n ∨ (n % 2 = 1 ∧ |w - n| < 1 ∧ 2 ^ 25 ≤ n)

/-! ### The integer rounding -/

theorem F32.roundShift_even_of_tie {n sh : ℕ}
    (h : 2 * n = 2 * (F32.roundShift n sh * 2 ^ sh) + 2 ^ sh ∨
      2 * (F32.roundShift n sh * 2 ^ sh) = 2 * n + 2 ^ sh) :
    F32.roundShift n sh % 2 = 0 := by
  have hd := Nat.div_add_mod n (2 ^ sh)
  have hm := Nat.mod_lt n (Nat.two_pow_pos sh)
  rw [Nat.mul_comm] at hd
  unfold F32.roundShift at *
  split at h
  · rw [if_pos ‹_›]
    rw [Nat.add_mul] at h
    omega
  · rw [if_neg ‹_›]
    omega

theorem F32.le_dropBits (n k : ℕ) : k ≤ F32.dropBits n k := Nat.le_max_right _ _

theorem F32.two_pow_le_of_lt_dropBits {n k : ℕ} (h : k < F32.dropBits n k) :
    2 ^ 23 * 2 ^ F32.dropBits n k ≤ n := by
  have hn : n ≠ 0 := by rintro rfl; simp [F32.dropBits] at h
  have hl : 23 + F32.dropBits n k = Nat.log2 n := by unfold F32.dropBits at *; omega
  rw [← Nat.pow_add, hl]
  exact Nat.log2_self_le hn

theorem F32.two_le_dropBits {n : ℕ} (k : ℕ) (h : 2 ^ 25 ≤ n) : 2 ≤ F32.dropBits n k := by
  have := (Nat.le_log2 (by omega)).2 h
  unfold F32.dropBits
  omega

/-- An odd integer stays off every tie by a whole unit, so its neighbours round as it does. -/
theorem F32.roundShift_bounds_of_odd {n sh : ℕ} (hn : n % 2 = 1) (hs : 2 ≤ sh) :
    2 * (n + 1) ≤ 2 * (F32.roundShift n sh * 2 ^ sh) + 2 ^ sh ∧
      2 * (F32.roundShift n sh * 2 ^ sh) + 2 ≤ 2 * n + 2 ^ sh := by
  obtain ⟨h1, h2⟩ := F32.roundShift_bounds n sh
  obtain ⟨j, rfl⟩ := Nat.exists_eq_add_of_le' hs
  have hq : 2 ^ (j + 2) = 4 * 2 ^ j := by ring
  have hp : F32.roundShift n (j + 2) * 2 ^ (j + 2) = 4 * (F32.roundShift n (j + 2) * 2 ^ j) := by
    ring
  omega

/-- Rounding `n` rounds the real number it stands for. -/
theorem F32.roundShift_near {n sh : ℕ} {w : ℝ} (h : w = n ∨ (n % 2 = 1 ∧ |w - n| < 1 ∧ 2 ≤ sh)) :
    |(F32.roundShift n sh * 2 ^ sh : ℝ) - w| ≤ 2 ^ sh / 2 ∧
      (|(F32.roundShift n sh * 2 ^ sh : ℝ) - w| = 2 ^ sh / 2 → F32.roundShift n sh % 2 = 0) := by
  rcases h with rfl | ⟨hn, hw, hs⟩
  · obtain ⟨h1, h2⟩ := F32.roundShift_bounds n sh
    have r1 : (2 * n : ℝ) ≤ 2 * (F32.roundShift n sh * 2 ^ sh) + 2 ^ sh := by exact_mod_cast h1
    have r2 : 2 * (F32.roundShift n sh * 2 ^ sh) ≤ (2 * n + 2 ^ sh : ℝ) := by exact_mod_cast h2
    refine ⟨abs_le.2 ⟨by linarith, by linarith⟩, fun he => F32.roundShift_even_of_tie ?_⟩
    rcases (abs_eq (by positivity)).1 he with e | e
    · right
      have : 2 * (F32.roundShift n sh * 2 ^ sh) = (2 * n + 2 ^ sh : ℝ) := by linarith
      exact_mod_cast this
    · left
      have : (2 * n : ℝ) = 2 * (F32.roundShift n sh * 2 ^ sh) + 2 ^ sh := by linarith
      exact_mod_cast this
  · obtain ⟨h1, h2⟩ := F32.roundShift_bounds_of_odd hn hs
    have r1 : (2 * (n + 1) : ℝ) ≤ 2 * (F32.roundShift n sh * 2 ^ sh) + 2 ^ sh := by
      exact_mod_cast h1
    have r2 : 2 * (F32.roundShift n sh * 2 ^ sh) + 2 ≤ (2 * n + 2 ^ sh : ℝ) := by exact_mod_cast h2
    obtain ⟨w1, w2⟩ := abs_lt.1 hw
    have : |(F32.roundShift n sh * 2 ^ sh : ℝ) - w| < 2 ^ sh / 2 :=
      abs_lt.2 ⟨by linarith, by linarith⟩
    exact ⟨this.le, fun he => absurd he this.ne⟩

theorem F32.StandsFor.two_mul_le {n a : ℕ} {w : ℝ} (h : F32.StandsFor n w) (ha : 2 * a ≤ n) :
    (2 * a : ℝ) ≤ w := by
  rcases h with rfl | ⟨hn, hw, -⟩
  · exact_mod_cast ha
  · have : ((2 * a + 1 : ℕ) : ℝ) ≤ n := by exact_mod_cast (by omega : 2 * a + 1 ≤ n)
    push_cast at this
    linarith [(abs_lt.1 hw).1]

/-- `roundMag` keeps the nearest 24 bits of the magnitude that `n` stands for. -/
theorem F32.StandsFor.nearest {n : ℕ} {w : ℝ} (k : ℕ) (h : F32.StandsFor n w) :
    F32.Nearest (F32.roundShift n (F32.dropBits n k)) (F32.dropBits n k - k) (w / 2 ^ k) := by
  have hnear := F32.roundShift_near (sh := F32.dropBits n k)
    (h.imp_right fun ⟨hn, hw, h25⟩ => ⟨hn, hw, F32.two_le_dropBits k h25⟩)
  have hfull : k < F32.dropBits n k → (2 ^ 23 * 2 ^ F32.dropBits n k : ℝ) ≤ w := by
    intro hk
    have := h.two_mul_le (a := 2 ^ 22 * 2 ^ F32.dropBits n k)
      (by have := F32.two_pow_le_of_lt_dropBits hk; omega)
    push_cast at this
    linarith
  have hle := F32.roundShift_dropBits_le n k
  obtain ⟨d, hd⟩ := Nat.exists_eq_add_of_le' (F32.le_dropBits n k)
  generalize F32.roundShift n (F32.dropBits n k) = m at *
  rw [hd, Nat.add_sub_cancel]
  rw [hd, pow_add] at hnear hfull
  have hk : (0 : ℝ) < 2 ^ k := by positivity
  have hdist : |(m * 2 ^ d : ℝ) - w / 2 ^ k| = |(m * (2 ^ d * 2 ^ k) : ℝ) - w| / 2 ^ k := by
    rw [← abs_of_pos hk, ← abs_div, abs_of_pos hk]
    congr 1
    field_simp
  have hhalf : (2 ^ d / 2 : ℝ) = 2 ^ d * 2 ^ k / 2 / 2 ^ k := by field_simp
  refine ⟨hle, fun h0 => ?_, ?_, fun he => hnear.2 ?_⟩
  · rw [le_div_iff₀ hk]
    have := hfull (by omega)
    linarith
  · rw [hdist, hhalf]
    gcongr
    exact hnear.1
  · rwa [hdist, hhalf, div_left_inj' hk.ne'] at he

/-! ### Overflow -/

theorem F32.Nearest.full_le {m d : ℕ} {W : ℝ} (h : F32.Nearest m d W) (hd : 0 < d) :
    2 ^ 23 ≤ m := by
  have hW := h.full hd
  have hn := (abs_le.1 h.near).1
  have hp : (0 : ℝ) < 2 ^ d := by positivity
  have : (2 ^ 23 - 1 / 2 : ℝ) ≤ m := by
    refine le_of_mul_le_mul_right ?_ hp
    linarith
  have : (2 ^ 23 : ℝ) < m + 1 := by linarith
  have : 2 ^ 23 < m + 1 := by exact_mod_cast this
  omega

/-- The tie between the largest 24-bit significand and the next power of two goes up, as the
significand is odd. -/
theorem F32.Nearest.lt_two_pow_iff {m d : ℕ} {W : ℝ} (h : F32.Nearest m d W) :
    m < 2 ^ 24 ↔ W < (2 ^ 24 - 1) * 2 ^ d + 2 ^ d / 2 := by
  obtain ⟨h1, h2⟩ := abs_le.1 h.near
  have hp : (0 : ℝ) < 2 ^ d := by positivity
  constructor
  · intro hm
    rcases Nat.lt_or_eq_of_le (Nat.le_sub_one_of_lt hm) with hlt | rfl
    · have : (m + 1 : ℝ) ≤ 2 ^ 24 - 1 := by
        rw [le_sub_iff_add_le]
        exact_mod_cast (by omega : m + 1 + 1 ≤ 2 ^ 24)
      have : (m + 1 : ℝ) * 2 ^ d ≤ (2 ^ 24 - 1) * 2 ^ d := by gcongr
      linarith
    · norm_num at h2 ⊢
      refine lt_of_le_of_ne (by linarith) fun he => ?_
      have := h.even (by rw [he, abs_of_nonpos] <;> norm_num; linarith)
      omega
  · intro hW
    have : (m : ℝ) * 2 ^ d < 2 ^ 24 * 2 ^ d := by linarith
    exact_mod_cast lt_of_mul_lt_mul_right this hp.le

/-- Below infinity's pattern means below half a unit past the largest finite magnitude. -/
theorem F32.Nearest.lt_inf_iff {m d : ℕ} {W : ℝ} (h : F32.Nearest m d W) :
    d * 2 ^ 23 + m < F32.infMag ↔ W < (2 ^ 25 - 1) * 2 ^ 252 := by
  unfold F32.infMag
  rcases Nat.lt_trichotomy d 253 with hd | rfl | hd
  · refine iff_of_true (by have := h.le; omega) ?_
    have hm : (m : ℝ) ≤ 2 ^ 24 := by exact_mod_cast h.le
    have hp : (2 ^ d : ℝ) ≤ 2 ^ 252 := pow_le_pow_right₀ (by norm_num) (by omega)
    have hmp : (m * 2 ^ d : ℝ) ≤ 2 ^ 24 * 2 ^ 252 := by gcongr
    have := (abs_le.1 h.near).1
    norm_num at *
    linarith
  · rw [show (2 ^ 25 - 1) * 2 ^ 252 = ((2 ^ 24 - 1) * 2 ^ 253 + 2 ^ 253 / 2 : ℝ) by norm_num,
      ← h.lt_two_pow_iff]
    omega
  · refine iff_of_false (by have := h.full_le (by omega); omega) (not_lt.2 ?_)
    have hp : (2 ^ 254 : ℝ) ≤ 2 ^ d := pow_le_pow_right₀ (by norm_num) (by omega)
    have := h.full (by omega)
    norm_num at *
    linarith

/-! ### The nearest binary32 -/

/-- The magnitude of a binary32 is a multiple of `2^d`, or too small for 24 bits from place `d`
up. -/
theorem F32.dvd_unitsOfMag_or_lt (M d : ℕ) :
    2 ^ d ∣ F32.unitsOfMag M ∨ F32.unitsOfMag M < 2 ^ 23 * 2 ^ d := by
  have hp := Nat.two_pow_pos d
  unfold F32.unitsOfMag
  split
  · right; omega
  · rcases Nat.lt_or_ge (M / 2 ^ 23 - 1) d with h | h
    · right
      have hs : 2 ^ 23 + M % 2 ^ 23 < 2 ^ 24 := by omega
      calc (2 ^ 23 + M % 2 ^ 23) * 2 ^ (M / 2 ^ 23 - 1)
          < 2 ^ 24 * 2 ^ (M / 2 ^ 23 - 1) := Nat.mul_lt_mul_of_pos_right hs (Nat.two_pow_pos _)
        _ = 2 ^ 23 * 2 ^ (M / 2 ^ 23 - 1 + 1) := by ring
        _ ≤ 2 ^ 23 * 2 ^ d := Nat.mul_le_mul_left _ (Nat.pow_le_pow_right two_pos h)
    · exact .inl ((pow_dvd_pow 2 h).mul_left _)

theorem F32.Nearest.le_of_dvd {m d : ℕ} {W : ℝ} (h : F32.Nearest m d W) {z : ℤ}
    (hz : (2 ^ d : ℤ) ∣ z) :
    |(m * 2 ^ d : ℝ) - W| ≤ |z - W| ∧
      (|(m * 2 ^ d : ℝ) - W| = |z - W| → (z : ℝ) ≠ m * 2 ^ d → m % 2 = 0) := by
  obtain ⟨q, rfl⟩ := hz
  rcases eq_or_ne q m with rfl | hq
  · simp [mul_comm]
  · have hp : (0 : ℝ) < 2 ^ d := by positivity
    have hgap : (2 ^ d : ℝ) ≤ |(m * 2 ^ d : ℝ) - (2 ^ d * q : ℤ)| := by
      have : (1 : ℝ) ≤ |((m - q : ℤ) : ℝ)| := by
        exact_mod_cast Int.one_le_abs (sub_ne_zero.2 hq.symm)
      calc (2 ^ d : ℝ) = 1 * |(2 ^ d : ℝ)| := by rw [one_mul, abs_of_pos hp]
        _ ≤ |((m - q : ℤ) : ℝ)| * |(2 ^ d : ℝ)| := by gcongr
        _ = _ := by rw [← abs_mul]; push_cast; ring_nf
    have htri := abs_sub_le (m * 2 ^ d : ℝ) W ((2 ^ d * q : ℤ) : ℝ)
    rw [abs_sub_comm W] at htri
    have hnear := h.near
    exact ⟨by linarith, fun he _ => h.even (by linarith)⟩

theorem F32.Nearest.lt_of_small {m d : ℕ} {W : ℝ} (h : F32.Nearest m d W) (hd : 0 < d) {z : ℤ}
    (hz : z < 2 ^ 23 * 2 ^ d) : |(m * 2 ^ d : ℝ) - W| < |z - W| := by
  have hW := h.full hd
  have hz' : (z : ℝ) < 2 ^ 23 * 2 ^ d := by exact_mod_cast hz
  have hB := (h.le_of_dvd (z := 2 ^ 23 * 2 ^ d) (Dvd.intro_left _ rfl)).1
  rw [show ((2 ^ 23 * 2 ^ d : ℤ) : ℝ) = 2 ^ 23 * 2 ^ d by norm_num,
    abs_of_nonpos (sub_nonpos.2 hW)] at hB
  rw [abs_of_neg (a := z - W) (by linarith)]
  linarith

/-- No binary32 of either sign is nearer, and one as near leaves an even significand. -/
theorem F32.Nearest.best {m d : ℕ} {W : ℝ} (h : F32.Nearest m d W) {z : ℤ} {M : ℕ}
    (hz : z.natAbs = F32.unitsOfMag M) :
    |(m * 2 ^ d : ℝ) - W| ≤ |z - W| ∧
      (|(m * 2 ^ d : ℝ) - W| = |z - W| → (z : ℝ) ≠ m * 2 ^ d → m % 2 = 0) := by
  by_cases hdvd : (2 ^ d : ℤ) ∣ z
  · exact h.le_of_dvd hdvd
  · have hd : 0 < d := by
      rcases Nat.eq_zero_or_pos d with rfl | hd
      · simp at hdvd
      · exact hd
    have hlt : F32.unitsOfMag M < 2 ^ 23 * 2 ^ d := by
      refine (F32.dvd_unitsOfMag_or_lt M d).resolve_left fun hM => hdvd ?_
      rw [← hz] at hM
      exact Int.natCast_dvd.2 hM
    have := h.lt_of_small hd (z := z) (by
      have : (z.natAbs : ℤ) < 2 ^ 23 * 2 ^ d := by rw [hz]; exact_mod_cast hlt
      omega)
    exact ⟨this.le, fun he => absurd he this.ne⟩

/-! ### Signed values -/

theorem F32.real_eq_units_div (x : F32) : F32.real x = F32.units x / 2 ^ 149 := by
  simp [F32.real, F32.value]

/-- A signed integer. -/
def F32.signed (neg : Bool) (z : ℤ) : ℤ := if neg then -z else z

theorem F32.signed_signed (neg : Bool) (z : ℤ) : F32.signed neg (F32.signed neg z) = z := by
  cases neg <;> simp [F32.signed]

theorem F32.natAbs_signed (neg : Bool) (z : ℤ) : (F32.signed neg z).natAbs = z.natAbs := by
  cases neg <;> simp [F32.signed]

/-- The distance to `v` of a value of the sign of `v`, measured on magnitudes. -/
theorem F32.abs_signed_sub {neg : Bool} {v : ℝ} (hpos : 0 < v → neg = false)
    (hneg : v < 0 → neg = true) (z : ℤ) :
    |(F32.signed neg z / 2 ^ 149 : ℝ) - v| = |z - |v| * 2 ^ 149| / 2 ^ 149 := by
  have hscale (r : ℝ) : |r * 2 ^ 149| / 2 ^ 149 = |r| := by
    rw [abs_mul, abs_of_pos (by positivity : (0 : ℝ) < 2 ^ 149),
      mul_div_cancel_right₀ _ (by positivity)]
  rw [← hscale]
  congr 1
  cases neg with
  | false =>
    rw [abs_of_nonneg (a := v) (not_lt.1 fun hv => by simpa using hneg hv)]
    congr 1
    simp only [F32.signed, Bool.false_eq_true, if_false]
    field_simp
  | true =>
    rw [abs_of_nonpos (a := v) (not_lt.1 fun hv => by simpa using hpos hv), ← abs_neg]
    congr 1
    simp only [F32.signed, if_true]
    push_cast
    field_simp
    ring

/-! ### The rounded value -/

theorem F32.roundMag_of_lt_inf {n k : ℕ} (h : F32.roundMag n k < F32.infMag) :
    F32.roundMag n k =
      (F32.dropBits n k - k) * 2 ^ 23 + F32.roundShift n (F32.dropBits n k) := by
  unfold F32.roundMag at *
  omega

/-- `roundMag` overflows exactly from half a unit past the largest finite magnitude on. -/
theorem F32.Nearest.roundMag_lt_inf_iff {n k : ℕ} {r : ℝ}
    (h : F32.Nearest (F32.roundShift n (F32.dropBits n k)) (F32.dropBits n k - k) (r * 2 ^ 149)) :
    F32.roundMag n k < F32.infMag ↔ r < (2 ^ 25 - 1) * 2 ^ 103 := by
  rw [F32.roundMag, min_lt_iff, or_iff_left (lt_irrefl _), h.lt_inf_iff]
  constructor <;> intro hr <;> norm_num at hr ⊢ <;> linarith

theorem F32.real_pack_roundMag {neg : Bool} {n k : ℕ} (h : F32.roundMag n k < F32.infMag) :
    F32.real (F32.pack neg (F32.roundMag n k)) = (F32.signed neg
      (F32.roundShift n (F32.dropBits n k) * 2 ^ (F32.dropBits n k - k) : ℕ) : ℝ) / 2 ^ 149 := by
  rw [F32.real_eq_units_div, F32.units_pack (F32.roundMag_lt n k), F32.unitsOfMag_roundMag h,
    F32.signed]

/-- Without overflow the packed magnitude is at least as near to `v` as every binary32 `x`, and
even where `x` is as near. -/
theorem F32.pack_roundMag_nearest {neg : Bool} {n k : ℕ} {v : ℝ}
    (h : F32.Nearest (F32.roundShift n (F32.dropBits n k)) (F32.dropBits n k - k) (|v| * 2 ^ 149))
    (hpos : 0 < v → neg = false) (hneg : v < 0 → neg = true)
    (hfin : F32.roundMag n k < F32.infMag) (x : F32) :
    |F32.real (F32.pack neg (F32.roundMag n k)) - v| ≤ |F32.real x - v| ∧
      (|F32.real (F32.pack neg (F32.roundMag n k)) - v| = |F32.real x - v| →
        F32.real x ≠ F32.real (F32.pack neg (F32.roundMag n k)) → F32.roundMag n k % 2 = 0) := by
  have hx : F32.real x = (F32.signed neg (F32.signed neg (F32.units x)) : ℝ) / 2 ^ 149 := by
    rw [F32.signed_signed, F32.real_eq_units_div]
  have hr := F32.real_pack_roundMag (neg := neg) hfin
  have hmag := F32.roundMag_of_lt_inf hfin
  obtain ⟨hle, htie⟩ := h.best (z := F32.signed neg (F32.units x))
    ((F32.natAbs_signed _ _).trans (F32.natAbs_units x))
  generalize F32.signed neg (F32.units x) = z at *
  generalize F32.roundShift n (F32.dropBits n k) = m at *
  generalize F32.dropBits n k - k = d at *
  have hmd : (((m * 2 ^ d : ℕ) : ℤ) : ℝ) = m * 2 ^ d := by push_cast; rfl
  rw [hx, hr, F32.abs_signed_sub hpos hneg, F32.abs_signed_sub hpos hneg, hmd]
  refine ⟨by gcongr, fun he hne => ?_⟩
  have hz : (z : ℝ) ≠ m * 2 ^ d := by
    rintro hz
    rw [← hmd, Int.cast_inj] at hz
    exact hne (by rw [hz])
  have := htie ((div_left_inj' (by positivity)).1 he) hz
  omega

/-- What `pack` makes of a rounded magnitude is the rounding of the real number `v`, when `n` stands
for the magnitude of `v` in units of 2^-(149+k). -/
theorem F32.roundsTo_pack_roundMag {neg : Bool} {n k : ℕ} {v : ℝ}
    (h : F32.StandsFor n (|v| * 2 ^ 149 * 2 ^ k)) (hpos : 0 < v → neg = false)
    (hneg : v < 0 → neg = true) : F32.RoundsTo (F32.pack neg (F32.roundMag n k)) v := by
  have hN := h.nearest k
  rw [mul_div_cancel_right₀ _ (by positivity)] at hN
  have hlt := F32.roundMag_lt n k
  refine ⟨fun hv => ?_, fun hv => ?_, fun hv => ?_, fun hv => ?_⟩
  · have hinf : F32.roundMag n k = F32.infMag :=
      (F32.roundMag_le_inf n k).antisymm
        (not_lt.1 fun hl => not_lt.2 hv (hN.roundMag_lt_inf_iff.1 hl))
    rw [hinf]
    cases neg <;> decide
  · have hfin := hN.roundMag_lt_inf_iff.2 hv
    rw [F32.isFinite_iff, F32.pack_mag hlt]
    exact ⟨hfin, fun x _ => F32.pack_roundMag_nearest hN hpos hneg hfin x⟩
  · rw [F32.pack_isNeg hlt, hpos hv]
  · rw [F32.pack_isNeg hlt, hneg hv]

end Sys2Proof
end

section
/-! The three fixed operations round the exact result once (spec/41_kernels.md R127). -/

namespace Sys2Proof

/-! ### Signs and zeros of exact values -/

theorem F32.real_nonpos {x : F32} (h : F32.isNeg x = true) : F32.real x ≤ 0 := by
  rw [F32.real_eq_units_div, F32.units, if_pos h]
  push_cast
  exact div_nonpos_of_nonpos_of_nonneg (by simp) (by positivity)

theorem F32.real_nonneg {x : F32} (h : F32.isNeg x = false) : 0 ≤ F32.real x := by
  rw [F32.real_eq_units_div, F32.units, h]
  simp only [Bool.false_eq_true, if_false]
  positivity

theorem F32.units_eq_units_iff {a b : F32} :
    F32.units a = F32.units b ↔ F32.real a = F32.real b := by
  rw [F32.real_eq_units_div, F32.real_eq_units_div, div_left_inj' (by positivity), Int.cast_inj]

theorem F32.units_lt_units_iff {a b : F32} :
    F32.units a < F32.units b ↔ F32.real a < F32.real b := by
  rw [F32.real_eq_units_div, F32.real_eq_units_div, div_lt_div_iff_of_pos_right (by positivity),
    Int.cast_lt]

theorem F32.units_eq_zero_iff {x : F32} : F32.units x = 0 ↔ F32.mag x = 0 := by
  rw [← Int.natAbs_eq_zero, F32.natAbs_units, F32.unitsOfMag]
  split
  · rfl
  · have := Nat.two_pow_pos (F32.mag x / 2 ^ 23 - 1)
    exact iff_of_false (Nat.mul_ne_zero (by omega) this.ne') fun h => ‹¬ _› (by simp [h])

theorem F32.real_eq_zero_iff {x : F32} : F32.real x = 0 ↔ F32.mag x = 0 := by
  rw [← F32.units_eq_zero_iff]
  simp [F32.real_eq_units_div]

theorem F32.isZero_iff {x : F32} : F32.isZero x = true ↔ F32.mag x = 0 := by
  simp [F32.isZero]

/-- An exact integer result stands for itself. -/
theorem F32.standsFor_natAbs {z : ℤ} {k : ℕ} {v : ℝ} (h : v * 2 ^ 149 * 2 ^ k = z) :
    F32.StandsFor z.natAbs (|v| * 2 ^ 149 * 2 ^ k) := by
  left
  rw [Nat.cast_natAbs, Int.cast_abs, ← h, abs_mul, abs_mul, abs_of_pos (a := (2 : ℝ) ^ 149),
    abs_of_pos (a := (2 : ℝ) ^ k)] <;> positivity

/-! ### Subtraction -/

theorem F32.zeroDifference_eq_pack (a b : F32) :
    F32.zeroDifference a b = F32.pack (F32.isNeg a && !F32.isNeg b) (F32.roundMag 0 0) := by
  unfold F32.zeroDifference
  cases F32.isNeg a && !F32.isNeg b <;> decide

theorem F32.subFinite_roundsTo (a b : F32) :
    F32.RoundsTo (F32.subFinite a b) (F32.real a - F32.real b) := by
  have hstands : F32.StandsFor (F32.units a - F32.units b).natAbs
      (|F32.real a - F32.real b| * 2 ^ 149 * 2 ^ 0) := by
    refine F32.standsFor_natAbs ?_
    rw [F32.real_eq_units_div, F32.real_eq_units_div]
    push_cast
    field_simp
  unfold F32.subFinite
  split
  · have heq := F32.units_eq_units_iff.1 ‹_›
    rw [F32.zeroDifference_eq_pack]
    refine F32.roundsTo_pack_roundMag ?_ (by simp [heq]) (by simp [heq])
    simpa [‹F32.units a = F32.units b›] using hstands
  · refine F32.roundsTo_pack_roundMag hstands (fun hv => ?_) fun hv => ?_
    · rw [decide_eq_false_iff_not, F32.units_lt_units_iff]
      linarith
    · rw [decide_eq_true_eq, F32.units_lt_units_iff]
      linarith

/-- Equal exact values of which the left alone has the sign bit are −0 and +0. -/
theorem F32.signs_iff_of_real_eq {a b : F32} (h : F32.real a = F32.real b) :
    (F32.isNeg a && !F32.isNeg b) = true ↔ a = 0x80000000 ∧ b = 0 := by
  constructor
  · intro hs
    obtain ⟨ha, hb⟩ : F32.isNeg a = true ∧ F32.isNeg b = false := by simpa using hs
    have hb0 : F32.real b = 0 := le_antisymm (h ▸ F32.real_nonpos ha) (F32.real_nonneg hb)
    have hma := F32.real_eq_zero_iff.1 (h.trans hb0)
    have hmb := F32.real_eq_zero_iff.1 hb0
    rw [← F32.pack_eta a, ← F32.pack_eta b, ha, hb, hma, hmb]
    decide
  · rintro ⟨rfl, rfl⟩
    decide

/-- Settles O16: the exact difference is a whole number of units, rounded once. -/
theorem subtractionIsCorrectlyRounded : Obligations.SubtractionIsCorrectlyRounded := by
  intro a b ha hb
  rw [F32.fsub_of_finite ha hb]
  refine ⟨F32.subFinite_roundsTo a b, fun h => ?_⟩
  rw [F32.subFinite, if_pos (F32.units_eq_units_iff.2 h), F32.zeroDifference]
  simp only [F32.signs_iff_of_real_eq h]
  rfl

/-! ### Multiplication -/

theorem F32.real_mul_nonneg {a b : F32} (h : (F32.isNeg a != F32.isNeg b) = false) :
    0 ≤ F32.real a * F32.real b := by
  cases ha : F32.isNeg a <;> simp only [ha, Bool.false_bne, Bool.true_bne,
    Bool.not_eq_false'] at h
  · exact mul_nonneg (F32.real_nonneg ha) (F32.real_nonneg h)
  · exact mul_nonneg_of_nonpos_of_nonpos (F32.real_nonpos ha) (F32.real_nonpos h)

theorem F32.real_mul_nonpos {a b : F32} (h : (F32.isNeg a != F32.isNeg b) = true) :
    F32.real a * F32.real b ≤ 0 := by
  cases ha : F32.isNeg a <;> simp only [ha, Bool.false_bne, Bool.true_bne,
    Bool.not_eq_true'] at h
  · exact mul_nonpos_of_nonneg_of_nonpos (F32.real_nonneg ha) (F32.real_nonpos h)
  · exact mul_nonpos_of_nonpos_of_nonneg (F32.real_nonpos ha) (F32.real_nonneg h)

theorem F32.mulFinite_roundsTo (a b : F32) :
    F32.RoundsTo (F32.mulFinite a b) (F32.real a * F32.real b) := by
  refine F32.roundsTo_pack_roundMag (F32.standsFor_natAbs ?_)
    (fun hv => Bool.eq_false_iff.2 fun hs => (F32.real_mul_nonpos hs).not_gt hv)
    (fun hv => Bool.not_eq_false _ ▸ fun hs => (F32.real_mul_nonneg hs).not_gt hv)
  rw [F32.real_eq_units_div, F32.real_eq_units_div]
  push_cast
  field_simp

theorem F32.mulFinite_isNeg (a b : F32) :
    F32.isNeg (F32.mulFinite a b) = (F32.isNeg a != F32.isNeg b) :=
  F32.pack_isNeg (F32.roundMag_lt _ _)

theorem F32.mulFinite_isZero {a b : F32} (h : F32.isZero a = true ∨ F32.isZero b = true) :
    F32.isZero (F32.mulFinite a b) = true := by
  have hu : F32.units a * F32.units b = 0 := by
    rw [mul_eq_zero]
    simpa only [F32.units_eq_zero_iff, ← F32.isZero_iff] using h
  rw [F32.isZero, F32.mulFinite, F32.pack_mag (F32.roundMag_lt _ _), hu]
  decide

/-- Settles O17: the exact product is a whole number of units of 2^-298, rounded once. -/
theorem multiplicationIsCorrectlyRounded : Obligations.MultiplicationIsCorrectlyRounded := by
  intro a b ha hb
  rw [F32.fmul_of_finite ha hb]
  exact ⟨F32.mulFinite_roundsTo a b, F32.mulFinite_isNeg a b, F32.mulFinite_isZero⟩

/-! ### Square root -/

/-- The integer root of at least 24 bits, doubled, with a last bit that says whether anything was
lost, stands for twice the real root. -/
theorem F32.standsFor_two_mul_sqrt {N : ℕ} (h : 2 ^ 48 ≤ N) :
    F32.StandsFor (2 * F32.isqrt N + (if F32.isqrt N * F32.isqrt N = N then 0 else 1))
      (2 * √(N : ℝ)) := by
  obtain ⟨hle, hlt⟩ := F32.isqrt_spec N
  generalize F32.isqrt N = s at *
  split
  · rename_i hexact
    left
    rw [← hexact]
    push_cast
    rw [Real.sqrt_mul_self (by positivity), add_zero]
  · rename_i hne
    have hs : 2 ^ 24 ≤ s := by
      by_contra hs
      have := Nat.mul_le_mul (by omega : s + 1 ≤ 2 ^ 24) (by omega : s + 1 ≤ 2 ^ 24)
      omega
    have hlow : (s : ℝ) < √(N : ℝ) := by
      refine Real.lt_sqrt_of_sq_lt ?_
      rw [sq]
      exact_mod_cast lt_of_le_of_ne hle hne
    have hhigh : √(N : ℝ) < s + 1 := by
      rw [Real.sqrt_lt' (by positivity), sq]
      exact_mod_cast hlt
    refine .inr ⟨by omega, ?_, by omega⟩
    push_cast
    exact abs_lt.2 ⟨by linarith, by linarith⟩

theorem F32.sqrt_real_mul_units {x : F32} (h : 0 < F32.real x) :
    √(F32.real x) * 2 ^ 149 = √(F32.radicand x : ℝ) := by
  have hN : (F32.radicand x : ℝ) = F32.real x * (2 ^ 149 * 2 ^ 149) := by
    rw [← abs_of_pos h, F32.real_eq_units_div, F32.radicand, Nat.cast_mul, Nat.cast_natAbs,
      Int.cast_abs, Nat.cast_pow, Nat.cast_ofNat, abs_div,
      abs_of_pos (a := (2 : ℝ) ^ 149) (by positivity), ← mul_assoc,
      div_mul_cancel₀ _ (by positivity)]
  rw [hN, Real.sqrt_mul h.le, Real.sqrt_mul_self (by positivity)]

theorem F32.two_pow_le_radicand {x : F32} (h : 0 < F32.real x) : 2 ^ 149 ≤ F32.radicand x := by
  have hu : F32.units x ≠ 0 := fun h0 => by simp [F32.real_eq_units_div, h0] at h
  exact Nat.le_mul_of_pos_left _ (Int.natAbs_pos.2 hu)

theorem F32.sqrtFinite_roundsTo {x : F32} (h : 0 < F32.real x) :
    F32.RoundsTo (F32.sqrtFinite x) (√(F32.real x)) := by
  refine F32.roundsTo_pack_roundMag ?_ (fun _ => rfl)
    fun hv => absurd hv (Real.sqrt_nonneg _).not_gt
  rw [abs_of_nonneg (Real.sqrt_nonneg _), F32.sqrt_real_mul_units h, pow_one, mul_comm _ (2 : ℝ)]
  exact F32.standsFor_two_mul_sqrt (le_trans (by norm_num) (F32.two_pow_le_radicand h))

/-- Settles O18: the bit below the integer root decides every rounding as the lost part would. -/
theorem squareRootIsCorrectlyRounded : Obligations.SquareRootIsCorrectlyRounded := by
  intro x hx hpos
  have hneg : F32.isNeg x = false :=
    Bool.eq_false_iff.2 fun hn => (F32.real_nonpos hn).not_gt hpos
  have hzero : F32.isZero x = false :=
    Bool.eq_false_iff.2 fun hz => hpos.ne' (F32.real_eq_zero_iff.2 (F32.isZero_iff.1 hz))
  rw [F32.fsqrt_of_positive hx hneg hzero]
  exact F32.sqrtFinite_roundsTo hpos

end Sys2Proof
end

section
/-! What a command does to the state, said once: the inversion of `exec` (spec/30_encoding.md
R80). -/

namespace Sys2Proof.Machine

/-- `Effect s i t`: what command `i` can make of `s`, with the checks that decide it. The values
that a command stores in batch registers are left open but for VLD's. -/
inductive Effect (s : State) : Instr → State → Prop where
  | nop : Effect s .nop (complete s)
  | reseed : Effect s .reseed (complete (setGen s (seedSequence Config.this s.ndb.seed)))
  | fillFault {c : FaultCode} {info : DWord} (outside : ¬s.ndb.fillIdx < s.ndb.fillNb)
      (check : checkFill s = some (c, info)) : Effect s .fill (raise s c info)
  | fillStart (outside : ¬s.ndb.fillIdx < s.ndb.fillNb) (check : checkFill s = none) :
      Effect s .fill (finishFill (setFill s (s.ndb.count / 16) 0))
  | fillRefused {a : Nat} (inside : s.ndb.fillIdx < s.ndb.fillNb)
      (half : a = blockAddr s ∨ s.admits (blockAddr s) = true ∧ a = blockAddr s + 32)
      (refused : s.admits a = false) : Effect s .fill (raise s .memAccess (BitVec.ofNat 64 a))
  | fillBlock (inside : s.ndb.fillIdx < s.ndb.fillNb) (first : s.admits (blockAddr s) = true)
      (second : s.admits (blockAddr s + 32) = true) : Effect s .fill (finishFill (storeBlock s))
  | draw (rd : VReg) (x : Batch) :
      Effect s (.draw rd) (complete (writeV (setGen s (stepLanes Config.this s.ndb.gen)) rd x))
  | vlog (rd rs1 : VReg) (x : Batch) :
      Effect s (.vlog rd rs1) (complete (writeV (noteReads s [rs1]) rd x))
  | vsin (rd rs1 : VReg) (x : Batch) :
      Effect s (.vsin rd rs1) (complete (writeV (noteReads s [rs1]) rd x))
  | vsincos (rd rd2 rs1 : VReg) (x y : Batch) :
      Effect s (.vsincos rd rd2 rs1) (complete (writeV (writeV (noteReads s [rs1]) rd x) rd2 y))
  | combine (rd rd2 rs1 rs2 : VReg) (x y : Batch) :
      Effect s (.combine rd rd2 rs1 rs2)
        (complete (writeV (writeV (noteReads s [rs1, rs2]) rd x) rd2 y))
  | vldFault (rd : VReg) {c : FaultCode} {info : DWord} (check : checkVec s = some (c, info)) :
      Effect s (.vld rd) (raise s c info)
  | vld (rd : VReg) (check : checkVec s = none) :
      Effect s (.vld rd) (complete (writeV s rd (Memory.readBatch s.mem (address s))))
  | vstFault (rs1 : VReg) {c : FaultCode} {info : DWord} (check : checkVec s = some (c, info)) :
      Effect s (.vst rs1) (raise (noteReads s [rs1]) c info)
  | vst (rs1 : VReg) (check : checkVec s = none) :
      Effect s (.vst rs1)
        (complete (setMem (noteReads s [rs1]) (Memory.writeBatch s.mem (address s) (readV s rs1))))

/-- A command has a next state exactly when the machine does not stop at its sources (R204). -/
theorem exists_exec_eq_next_iff {i : Instr} {s : State} :
    (∃ t, exec i s = .next t) ↔ Readable s (sourcesOf i) := by
  rcases exec_cases i s with ⟨n, hn, hs, he⟩ | ⟨hr, ht⟩
  · obtain ⟨hmem, hw⟩ := firstUnwritten_some hn
    have hnot : ¬Readable s (sourcesOf i) := by
      rintro (h | h)
      · simp [hs] at h
      · simp [h n hmem] at hw
    simp [he, hnot]
  · exact iff_of_true ht hr

theorem effect_of_execFill {s t : State} (h : execFill s = .next t) : Effect s .fill t := by
  unfold execFill at h
  split at h
  case isTrue hin =>
    obtain rfl := Host.Outcome.next.inj h
    rcases fillBlock_cases s with ⟨h1, e⟩ | ⟨h1, h2, e⟩ | ⟨h1, h2, e⟩ <;> rw [e]
    · exact .fillRefused hin (.inl rfl) h1
    · exact .fillRefused hin (.inr ⟨h1, rfl⟩) h2
    · exact .fillBlock hin h1 h2
  case isFalse hout =>
    obtain rfl := Host.Outcome.next.inj h
    rcases fillStart_cases s with ⟨c, info, hc, e⟩ | ⟨hc, e⟩ <;> rw [e]
    · exact .fillFault hout hc
    · exact .fillStart hout hc

/-- The inversion of `exec`: every next state is one of the effects. -/
theorem effect_of_exec {i : Instr} {s t : State} (h : exec i s = .next t) : Effect s i t := by
  have hr := exists_exec_eq_next_iff.1 ⟨t, h⟩
  cases i with
  | nop => obtain rfl := Host.Outcome.next.inj h; exact .nop
  | reseed => obtain rfl := Host.Outcome.next.inj h; exact .reseed
  | fill => exact effect_of_execFill h
  | draw rd => obtain rfl := Host.Outcome.next.inj h; exact .draw rd _
  | vlog rd rs1 =>
    obtain rfl := Host.Outcome.next.inj ((exec_vlog hr rd).symm.trans h)
    exact .vlog rd rs1 _
  | vsin rd rs1 =>
    obtain rfl := Host.Outcome.next.inj ((exec_vsin hr rd).symm.trans h)
    exact .vsin rd rs1 _
  | vsincos rd rd2 rs1 =>
    obtain rfl := Host.Outcome.next.inj ((exec_vsincos hr rd rd2).symm.trans h)
    exact .vsincos rd rd2 rs1 _ _
  | combine rd rd2 rs1 rs2 =>
    obtain rfl := Host.Outcome.next.inj ((exec_combine hr rd rd2).symm.trans h)
    exact .combine rd rd2 rs1 rs2 _ _
  | vld rd =>
    simp only [exec, execVld] at h
    split at h <;> obtain rfl := Host.Outcome.next.inj h
    · exact .vldFault rd ‹_›
    · exact .vld rd ‹_›
  | vst rs1 =>
    cases hc : checkVec s with
    | none =>
      obtain rfl := Host.Outcome.next.inj ((exec_vst_pass hr hc).symm.trans h)
      exact .vst rs1 hc
    | some p =>
      obtain rfl := Host.Outcome.next.inj ((exec_vst_fault hr hc).symm.trans h)
      exact .vstFault rs1 hc

/-- Finishing a FILL changes STATUS only. -/
theorem finishFill_eq_setStatus (s : State) : ∃ f, finishFill s = setStatus s f := by
  rcases finishFill_cases s with ⟨-, e⟩ | ⟨-, e⟩
  · exact ⟨_, e⟩
  · exact ⟨s.ndb.status, e⟩

theorem storeBlock_mem (s : State) : (storeBlock s).mem = Memory.writeBatch
    (Memory.writeBatch s.mem (blockAddr s) (blockZ0 s)) (blockAddr s + 32) (blockZ1 s) := by
  simp only [storeBlock, setFill_mem, setGen_mem, setMem_mem]

theorem storeBlock_ndb (s : State) : (storeBlock s).ndb =
    { s.ndb with gen := secondDraw s, fillIdx := s.ndb.fillIdx + 1 } := rfl

theorem writeV_wr_of_wr {s : State} {n : VReg} (h : s.ndb.wr[n] = true) (m : VReg) (x : Batch) :
    (writeV s m x).ndb.wr[n] = true := by
  by_cases hnm : n = m
  · subst hnm; exact vset_self ..
  · exact (vset_other _ _ hnm).trans h

end Sys2Proof.Machine
end

section
/-! What a turn does to the state, said once: a write of the register window in each case
(spec/10_state.md R27, R36), a Host move, an accepted command (spec/60_exceptions.md R208). -/

namespace Sys2Proof.Machine

section
variable {s : State}

theorem windowWrite_of_busy (hb : s.ndb.status.busy = true) (w : DWord) {r : WinReg}
    (hr : r = .cmd ∨ r = .addr ∨ r = .count ∨ r = .seed) : windowWrite s w r = dropWrite s := by
  rcases hr with rfl | rfl | rfl | rfl <;> simp [windowWrite, hb]

theorem windowWrite_cmd_of_err (he : s.ndb.status.err = true) (w : DWord) :
    windowWrite s w .cmd = dropWrite s := by
  simp [windowWrite, he]

theorem windowWrite_cmd_of_ready (hb : s.ndb.status.busy = false) (he : s.ndb.status.err = false)
    (w : DWord) : windowWrite s w .cmd = acceptCommand s (w.setWidth 32) := by
  simp [windowWrite, hb, he]

theorem windowWrite_addr (hb : s.ndb.status.busy = false) (w : DWord) :
    windowWrite s w .addr = { s with ndb := { s.ndb with addr := w } } := by
  simp [windowWrite, hb]

theorem windowWrite_count (hb : s.ndb.status.busy = false) (w : DWord) :
    windowWrite s w .count = { s with ndb := { s.ndb with count := w } } := by
  simp [windowWrite, hb]

theorem windowWrite_seed (hb : s.ndb.status.busy = false) (w : DWord) :
    windowWrite s w .seed = { s with ndb := { s.ndb with seed := w.setWidth 32 } } := by
  simp [windowWrite, hb]

theorem windowWrite_of_readOnly (s : State) (w : DWord) {r : WinReg}
    (hr : r = .status ∨ r = .faultInfo ∨ r = .params ∨ r = .reserved) :
    windowWrite s w r = s := by
  rcases hr with rfl | rfl | rfl | rfl <;> rfl

end

theorem step_of_host {s : State} {m : HostMove} {rest : List Turn}
    (h : s.script = .host m :: rest) :
    step s = hostStep m { s with script := rest } := by
  simp only [step, takeTurn, h]

theorem step_of_command {s : State} (hs : s.script = []) (hb : s.ndb.status.busy = true) {i : Instr}
    (hd : decode s.ndb.cur = .instr i) : step s = exec i s := by
  simp only [step, takeTurn, hs, coreStep, hb, if_true, runCommand, commandWord, hd]

/-- A write of the window does not look at the turns to come. -/
theorem windowWrite_script (s : State) (rest : List Turn) (w : DWord) (r : WinReg) :
    windowWrite { s with script := rest } w r = { windowWrite s w r with script := rest } := by
  cases r <;> simp only [windowWrite] <;> split <;> rfl

theorem step_of_writeReg {s t : State} {r : WinReg} {w : DWord} {rest : List Turn}
    (h : s.script = .host (.writeReg r w) :: rest) (ht : windowWrite s w r = t) :
    step s = .next { t with script := rest } := by
  rw [step_of_host h, hostStep, windowWrite_script, ht]

theorem eq_of_hostMemory_eq_next {s t u : State} {a : DWord} (h : hostMemory s a u = .next t) :
    u = t := by
  unfold hostMemory at h
  split at h
  · cases h
  · split at h
    · cases h
    · exact Host.Outcome.next.inj h

end Sys2Proof.Machine
end

section
/-! What a command leaves unchanged (spec/10_state.md R22 to R24), read off its effects. -/

namespace Sys2Proof.Machine

section
variable {s t : State} {i : Instr}

/-! ### The end of a FILL -/

theorem SameOutside.finishFill {u : State} (h : SameOutside s u) :
    SameOutside s (finishFill u) := by
  obtain ⟨f, e⟩ := finishFill_eq_setStatus u
  rw [e]
  exact h

theorem SameRegisters.finishFill {u : State} (h : SameRegisters s u) :
    SameRegisters s (finishFill u) := by
  obtain ⟨f, e⟩ := finishFill_eq_setStatus u
  rw [e]
  exact h

theorem finishFill_v_wr (s : State) :
    (finishFill s).ndb.v = s.ndb.v ∧ (finishFill s).ndb.wr = s.ndb.wr := by
  obtain ⟨f, e⟩ := finishFill_eq_setStatus s
  rw [e]
  exact ⟨rfl, rfl⟩

/-! ### All commands -/

theorem Effect.sameOutside (h : Effect s i t) : SameOutside s t := by
  cases h with
  | fillStart => exact SameOutside.finishFill (by simp [SameOutside])
  | fillBlock => exact SameOutside.finishFill (by simp [SameOutside, storeBlock])
  | _ => simp [SameOutside]

theorem Effect.sameRegisters (h : Effect s i t) : SameRegisters s t := by
  cases h with
  | fillStart => exact SameRegisters.finishFill (by simp [SameRegisters])
  | fillBlock => exact SameRegisters.finishFill (by simp [SameRegisters, storeBlock])
  | _ => simp [SameRegisters]

/-- R24: the generator has three writers. -/
theorem Effect.gen_eq (h : Effect s i t) (hd : ∀ rd, i ≠ .draw rd) (hr : i ≠ .reseed)
    (hf : i ≠ .fill) : t.ndb.gen = s.ndb.gen := by
  cases h with
  | draw rd => exact absurd rfl (hd rd)
  | reseed => exact absurd rfl hr
  | fillFault | fillStart | fillRefused | fillBlock => exact absurd rfl hf
  | _ => rfl

/-- R22: the commands without a destination. -/
theorem Effect.v_wr_eq (h : Effect s i t)
    (hi : i = .nop ∨ i = .reseed ∨ i = .fill ∨ ∃ r, i = .vst r) :
    t.ndb.v = s.ndb.v ∧ t.ndb.wr = s.ndb.wr := by
  cases h with
  | fillStart => exact finishFill_v_wr (setFill s _ _)
  | fillBlock => exact finishFill_v_wr (storeBlock s)
  | nop | reseed | fillFault | fillRefused | vstFault | vst => exact ⟨rfl, rfl⟩
  | _ => simp at hi

/-- R50: memory has two writers. -/
theorem Effect.mem_eq (h : Effect s i t) (hf : i ≠ .fill) (hv : ∀ r, i ≠ .vst r) :
    t.mem = s.mem := by
  cases h with
  | vstFault rs1 | vst rs1 => exact absurd rfl (hv rs1)
  | fillFault | fillStart | fillRefused | fillBlock => exact absurd rfl hf
  | _ => rfl

theorem Effect.sameFill (h : Effect s i t) (hf : i ≠ .fill) : SameFill s t := by
  cases h with
  | fillFault | fillStart | fillRefused | fillBlock => exact absurd rfl hf
  | _ => exact ⟨rfl, rfl⟩

/-- R23: only reset clears a written-flag. -/
theorem Effect.wr_mono (h : Effect s i t) {n : VReg} (hn : s.ndb.wr[n] = true) :
    t.ndb.wr[n] = true := by
  cases h with
  | fillStart => rwa [(finishFill_v_wr _).2]
  | fillBlock => rwa [(finishFill_v_wr _).2]
  | draw rd x => exact writeV_wr_of_wr (s := setGen s _) hn rd x
  | vlog rd rs1 x | vsin rd rs1 x => exact writeV_wr_of_wr (s := noteReads s _) hn rd x
  | vsincos rd rd2 rs1 x y | combine rd rd2 rs1 rs2 x y =>
    exact writeV_wr_of_wr (writeV_wr_of_wr (s := noteReads s _) hn rd x) rd2 y
  | vld rd => exact writeV_wr_of_wr hn rd (Memory.readBatch s.mem (address s))
  | _ => exact hn

end

/-- Settles O54: the frame of every effect, part by part. -/
theorem onlyTheWritersWrite : Obligations.OnlyTheWritersWrite := by
  unfold Obligations.OnlyTheWritersWrite
  intro i s
  refine ⟨exists_exec_eq_next_iff.2, fun t h => ?_⟩
  have e := effect_of_exec h
  exact ⟨e.sameOutside, e.sameRegisters, e.gen_eq, e.v_wr_eq, e.mem_eq, e.sameFill,
    fun _ => e.wr_mono⟩

end Sys2Proof.Machine
end

section
/-! The invariant of the machine: what keeps STATUS legal (spec/10_state.md R28), and what keeps
FILL's sequencing registers right (R37) at each operation. -/

namespace Sys2Proof.Machine

/-! ### STATUS -/

theorem Status.legal_iff (f : Status) :
    f.legal = true ↔ ¬(f.busy = true ∧ f.done = true) ∧
      (f.err = true → f.busy = false ∧ f.done = false ∧ 1 ≤ f.code.toNat ∧ f.code.toNat ≤ 6) ∧
      (f.err = false → f.code.toNat = 0) := by
  unfold Status.legal
  cases f.busy <;> cases f.done <;> cases f.err <;> simp

theorem FaultCode.code_range (c : FaultCode) : 1 ≤ c.code.toNat ∧ c.code.toNat ≤ 6 := by
  cases c <;> decide

variable {f : Status}

theorem Status.err_of_busy (h : f.legal = true) (hb : f.busy = true) : f.err = false := by
  obtain ⟨-, herr, -⟩ := f.legal_iff.1 h
  by_contra hne
  simp [hb, hne] at herr

theorem Status.legal_accepted (h : f.legal = true) (he : f.err = false) :
    f.accepted.legal = true := by
  obtain ⟨-, -, hc⟩ := f.legal_iff.1 h
  simp [Status.legal_iff, he, hc he]

theorem Status.legal_completed (h : f.legal = true) (he : f.err = false) :
    f.completed.legal = true := by
  obtain ⟨-, -, hc⟩ := f.legal_iff.1 h
  simp [Status.legal_iff, he, hc he]

theorem Status.legal_faulted (f : Status) (c : FaultCode) : (f.faulted c).legal = true := by
  simp [Status.legal_iff, c.code_range]

theorem Status.legal_dropped (h : f.legal = true) : f.dropped.legal = true := h

/-! ### Between commands and during one -/

variable {s t : State}

theorem inBlocks_iff (s : State) :
    s.inBlocks = true ↔
      s.ndb.status.busy = true ∧ decode s.ndb.cur = .instr .fill ∧
        s.ndb.fillIdx < s.ndb.fillNb := by
  simp only [State.inBlocks, Bool.and_eq_true, decide_eq_true_eq, and_assoc]

/-- Outside the blocks of a FILL and without a fault, no block is left to do. -/
theorem State.Inv.fillIdx_eq (h : s.Inv) (he : s.ndb.status.err = false)
    (hb : s.inBlocks = false) : s.ndb.fillIdx = s.ndb.fillNb := by
  have hle := h.idx_le
  have hnot : ¬s.ndb.fillIdx < s.ndb.fillNb := fun hlt => by simp [h.in_blocks he hlt] at hb
  bv_omega

/-- A state that stands in no FILL's blocks meets the invariant when its memory and its STATUS do
and, unless it faulted, no block is left to do. -/
theorem State.Inv.of_not_inBlocks (hm : Memory.wf t.mem = true) (hl : t.ndb.status.legal = true)
    (hle : t.ndb.fillIdx.toNat ≤ t.ndb.fillNb.toNat) (hb : t.inBlocks = false)
    (hi : t.ndb.status.err = false → t.ndb.fillIdx = t.ndb.fillNb) : t.Inv where
  mem_wf := hm
  status_legal := hl
  idx_le := hle
  in_blocks he hlt := by
    rw [hi he] at hlt
    bv_omega
  operands h := by simp [hb] at h

/-- While no command runs, writing the operands keeps the invariant. -/
theorem State.Inv.of_idle (h : s.Inv) (hb : s.ndb.status.busy = false) (hm : t.mem = s.mem)
    (hs : t.ndb.status = s.ndb.status) (hf : SameFill s t) : t.Inv := by
  obtain ⟨hnb, hidx⟩ := hf
  refine .of_not_inBlocks (by rw [hm]; exact h.mem_wf) (by rw [hs]; exact h.status_legal)
    (by rw [hnb, hidx]; exact h.idx_le) (by simp [State.inBlocks, hs, hb]) fun he => ?_
  rw [hnb, hidx]
  exact h.fillIdx_eq (hs ▸ he) (by simp [State.inBlocks, hb])

/-- What the invariant looks at: memory, STATUS, FILL's sequencing and its operands. -/
theorem State.Inv.congr (h : s.Inv) (hm : Memory.wf t.mem = true)
    (hl : t.ndb.status.legal = true) (hb : t.ndb.status.busy = s.ndb.status.busy)
    (he : t.ndb.status.err = s.ndb.status.err) (hr : SameRegisters s t) (hf : SameFill s t) :
    t.Inv := by
  obtain ⟨haddr, hcount, -, hcur⟩ := hr
  obtain ⟨hnb, hidx⟩ := hf
  have hblk : t.inBlocks = s.inBlocks := by simp only [State.inBlocks, hb, hcur, hnb, hidx]
  refine ⟨hm, hl, by rw [hnb, hidx]; exact h.idx_le, ?_, ?_⟩
  · rw [he, hnb, hidx, hblk]
    exact h.in_blocks
  · rw [hblk, State.fillOperandsOk, checkFill_congr haddr hcount, hcount, hnb]
    exact h.operands

theorem State.Inv.of_ndb_eq (h : s.Inv) (hn : t.ndb = s.ndb) (hm : Memory.wf t.mem = true) :
    t.Inv :=
  h.congr hm (by rw [hn]; exact h.status_legal) (by rw [hn]) (by rw [hn])
    (by simp [SameRegisters, hn]) (by simp [SameFill, hn])

theorem State.Inv.setMem (h : s.Inv) {m : Memory} (hm : Memory.wf m = true) : (setMem s m).Inv :=
  h.of_ndb_eq rfl hm

theorem State.Inv.noteReads (h : s.Inv) (rs : List VReg) : (noteReads s rs).Inv :=
  h.of_ndb_eq rfl h.mem_wf

theorem State.Inv.of_reset (hn : t.ndb = Ndb.reset) (hm : Memory.wf t.mem = true) : t.Inv :=
  .of_not_inBlocks hm (by rw [hn]; rfl) (by rw [hn]; exact le_rfl)
    (by rw [State.inBlocks, hn]; rfl) fun _ => by rw [hn]; rfl

theorem State.Inv.raise (h : s.Inv) (c : FaultCode) (info : DWord) : (raise s c info).Inv :=
  .of_not_inBlocks h.mem_wf (Status.legal_faulted _ c) h.idx_le rfl (by simp)

/-- A completion keeps the invariant when no block is left to do. -/
theorem State.Inv.complete (h : s.Inv) (he : s.ndb.status.err = false)
    (hi : s.ndb.fillIdx = s.ndb.fillNb) : (complete s).Inv :=
  .of_not_inBlocks h.mem_wf (Status.legal_completed h.status_legal he) h.idx_le rfl fun _ => hi

theorem State.Inv.finishFill (h : s.Inv) (he : s.ndb.status.err = false) : (finishFill s).Inv := by
  rcases finishFill_cases s with ⟨hi, e⟩ | ⟨-, e⟩ <;> rw [e]
  · exact h.complete he hi
  · exact h

end Sys2Proof.Machine
end

section
/-! The invariant is kept by every command and by every move of the Host (spec/60_exceptions.md
R208). -/

namespace Sys2Proof.Machine

section
variable {s t : State}

/-! ### The commands -/

/-- The step that makes FILL's checks leaves exactly the blocks it checked to do (R161, R162). -/
theorem State.Inv.startFill (h : s.Inv) (hb : s.ndb.status.busy = true)
    (hd : decode s.ndb.cur = .instr .fill) (hc : checkFill s = none) :
    (setFill s (s.ndb.count / 16) 0).Inv := by
  obtain ⟨-, -, hmod, -⟩ := (checkFill_none_iff s).1 hc
  refine ⟨h.mem_wf, h.status_legal, Nat.zero_le _, fun _ hlt => ?_, fun _ => ⟨hc, ?_⟩⟩
  · exact (inBlocks_iff _).2 ⟨hb, hd, hlt⟩
  · simp only [setFill_ndb, BitVec.toNat_udiv, BitVec.reduceToNat]
    omega

/-- A block stored is one block fewer to do (R165). -/
theorem State.Inv.storeBlock (h : s.Inv) (hblk : s.inBlocks = true)
    (hadm : s.admits (blockAddr s + 32) = true) : (storeBlock s).Inv := by
  obtain ⟨hb, hd, hlt⟩ := (inBlocks_iff s).1 hblk
  obtain ⟨hend, -, -⟩ := (admits_iff s _).1 hadm
  refine ⟨?_, h.status_legal, ?_, fun _ hlt' => ?_, fun _ => h.operands hblk⟩
  · rw [storeBlock_mem]
    exact Memory.wf_writeBatch _ (Memory.wf_writeBatch _ h.mem_wf (by omega)) hend
  · rw [storeBlock_ndb]
    bv_omega
  · exact (inBlocks_iff _).2 ⟨hb, hd, hlt'⟩

theorem State.Inv.of_effect {i : Instr} (h : s.Inv) (hb : s.ndb.status.busy = true)
    (hd : decode s.ndb.cur = .instr i) (e : Effect s i t) : t.Inv := by
  have he := Status.err_of_busy h.status_legal hb
  have hi : i ≠ .fill → s.ndb.fillIdx = s.ndb.fillNb := fun hne =>
    h.fillIdx_eq he (by simp [State.inBlocks, hd, hne])
  cases e with
  | fillFault | fillRefused | vldFault => exact h.raise _ _
  | vstFault rs1 => exact (h.noteReads [rs1]).raise _ _
  | fillStart _ hc => exact (h.startFill hb hd hc).finishFill he
  | fillBlock hlt _ hadm =>
    exact (h.storeBlock ((inBlocks_iff s).2 ⟨hb, hd, hlt⟩) hadm).finishFill he
  | vst rs1 hc =>
    obtain ⟨-, -, hend, -⟩ := (checkVec_none_iff s).1 hc
    have hm := Memory.wf_writeBatch (readV s rs1) h.mem_wf hend
    exact ((h.noteReads [rs1]).setMem hm).complete he (hi nofun)
  | _ =>
    refine State.Inv.complete ?_ he (hi nofun)
    exact h.congr h.mem_wf h.status_legal rfl rfl ⟨rfl, rfl, rfl, rfl⟩ ⟨rfl, rfl⟩

/-! ### The Host -/

theorem State.Inv.dropWrite (h : s.Inv) : (dropWrite s).Inv :=
  h.congr h.mem_wf (Status.legal_dropped h.status_legal) rfl rfl ⟨rfl, rfl, rfl, rfl⟩ ⟨rfl, rfl⟩

/-- A command is accepted only where no block of a FILL is left to do, so it is not taken for a FILL
in its blocks (R27, R37). -/
theorem State.Inv.acceptCommand (h : s.Inv) (hb : s.ndb.status.busy = false)
    (he : s.ndb.status.err = false) (w : Word) : (acceptCommand s w).Inv := by
  have hi := h.fillIdx_eq he (by simp [State.inBlocks, hb])
  exact .of_not_inBlocks h.mem_wf (Status.legal_accepted h.status_legal he) h.idx_le
    (by simp [State.inBlocks, hi]) fun _ => hi

theorem State.Inv.windowWrite (h : s.Inv) (w : DWord) (r : WinReg) : (windowWrite s w r).Inv := by
  cases hb : s.ndb.status.busy with
  | true =>
    cases r with
    | cmd | addr | count | seed => rw [windowWrite_of_busy hb w (by simp)]; exact h.dropWrite
    | _ => rw [windowWrite_of_readOnly s w (by simp)]; exact h
  | false =>
    cases r with
    | cmd =>
      cases he : s.ndb.status.err with
      | false => rw [windowWrite_cmd_of_ready hb he]; exact h.acceptCommand hb he _
      | true => rw [windowWrite_cmd_of_err he]; exact h.dropWrite
    | addr => rw [windowWrite_addr hb]; exact h.of_idle hb rfl rfl ⟨rfl, rfl⟩
    | count => rw [windowWrite_count hb]; exact h.of_idle hb rfl rfl ⟨rfl, rfl⟩
    | seed => rw [windowWrite_seed hb]; exact h.of_idle hb rfl rfl ⟨rfl, rfl⟩
    | _ => rw [windowWrite_of_readOnly s w (by simp)]; exact h

theorem State.Inv.of_hostStep {m : HostMove} (h : s.Inv) (ht : hostStep m s = .next t) :
    t.Inv := by
  cases m with
  | readReg r => obtain rfl := Host.Outcome.next.inj ht; exact h.of_ndb_eq rfl h.mem_wf
  | writeReg r w => obtain rfl := Host.Outcome.next.inj ht; exact h.windowWrite w r
  | readMem a => obtain rfl := eq_of_hostMemory_eq_next ht; exact h.of_ndb_eq rfl h.mem_wf
  | writeMem a b =>
    obtain rfl := eq_of_hostMemory_eq_next ht
    exact h.setMem (Memory.wf_write b h.mem_wf a.isLt)
  | own rs =>
    simp only [hostStep] at ht
    split at ht
    · cases ht
    · obtain rfl := Host.Outcome.next.inj ht
      exact h.of_ndb_eq rfl h.mem_wf
  | reset => obtain rfl := Host.Outcome.next.inj ht; exact .of_reset rfl h.mem_wf

end

/-- Settles O60: the turn taken off the script is no part of the invariant, and what the turn does
keeps it. -/
theorem everyStepKeepsTheInvariant : Obligations.EveryStepKeepsTheInvariant := by
  unfold Obligations.EveryStepKeepsTheInvariant
  intro s t h ht
  have hrest : ∀ rest, ({ s with script := rest } : State).Inv := fun rest =>
    h.of_ndb_eq rfl h.mem_wf
  rcases step_cases s with ⟨u, hu, core⟩ | ⟨rest, -, -, e⟩ | ⟨m, rest, -, e⟩
  · have hndb : u.ndb = s.ndb := by rcases hu with rfl | ⟨rest, -, rfl⟩ <;> rfl
    have hinv : u.Inv := by rcases hu with rfl | ⟨rest, -, rfl⟩; exacts [h, hrest rest]
    rcases core with ⟨-, e⟩ | ⟨hb, i, hd, e⟩ | ⟨-, why, -, e⟩ <;> rw [e] at ht
    · exact Host.Outcome.next.inj ht ▸ hinv
    · exact hinv.of_effect (hndb ▸ hb) (hndb ▸ hd) (effect_of_exec ht)
    · exact Host.Outcome.next.inj ht ▸ hinv.raise _ _
  · exact Host.Outcome.next.inj (e.symm.trans ht) ▸ hrest rest
  · exact (hrest rest).of_hostStep (e.symm.trans ht)

/-- Settles O59. -/
theorem invariantHoldsAtReset : Obligations.InvariantHoldsAtReset :=
  .of_reset rfl reset_mem_wf

end Sys2Proof.Machine
end

section
/-! The register window as the Host uses it (spec/10_state.md section 3). -/

namespace Sys2Proof.Machine

/-- Settles O48: the write is one equation of the window in each case, and the accepted word is the
one that the next Core step decodes. -/
theorem cmdWriteIsAcceptedOrDropped : Obligations.CmdWriteIsAcceptedOrDropped := by
  unfold Obligations.CmdWriteIsAcceptedOrDropped
  intro s w rest hs
  have accept (hb : s.ndb.status.busy = false) (he : s.ndb.status.err = false) :
      step s = .next (acceptCommand { s with script := rest } (w.setWidth 32)) :=
    step_of_writeReg hs (windowWrite_cmd_of_ready hb he w)
  refine ⟨accept, fun hb he hrest i hi => ⟨_, accept hb he, ?_⟩, fun h => ?_, rfl⟩
  · exact step_of_command hrest rfl hi
  · rcases h with hb | he
    · exact step_of_writeReg hs (windowWrite_of_busy hb w (.inl rfl))
    · exact step_of_writeReg hs (windowWrite_cmd_of_err he w)

/-- Settles O49, write by write. -/
theorem hostWritesWhileBusyOrFaulted : Obligations.HostWritesWhileBusyOrFaulted := by
  unfold Obligations.HostWritesWhileBusyOrFaulted
  intro s w rest
  refine ⟨fun r hr hs hb => ?_, fun he hb => ⟨fun hs => ?_, fun hs => ?_, fun hs => ?_,
    fun hs => ?_⟩, fun r hr hs => ?_, fun r hs => step_of_host hs⟩
  · exact step_of_writeReg hs (windowWrite_of_busy hb w hr)
  · exact step_of_writeReg hs (windowWrite_cmd_of_err he w)
  · exact step_of_writeReg hs (windowWrite_addr hb w)
  · exact step_of_writeReg hs (windowWrite_count hb w)
  · exact step_of_writeReg hs (windowWrite_seed hb w)
  · exact step_of_writeReg hs (windowWrite_of_readOnly _ w hr)

/-! ### STATUS -/

theorem bitAt_eq (b : Bool) (k : Nat) : bitAt b k = b.toNat * 2 ^ k := by
  cases b <;> simp [bitAt]

/-- STATUS is the sum of its fields at their places: nothing carries and nothing wraps. -/
theorem Status.word_toNat (f : Status) :
    f.word.toNat = f.busy.toNat + f.done.toNat * 2 + f.err.toNat * 4 + f.ovr.toNat * 8 +
      f.code.toNat * 256 := by
  have hb := f.busy.toNat_le
  have hd := f.done.toNat_le
  have he := f.err.toNat_le
  have ho := f.ovr.toNat_le
  have hc := f.code.isLt
  simp only [Status.word, bitAt_eq, BitVec.toNat_ofNat]
  omega

theorem getLsbD_eq_of_div_mod {n : Nat} {w : BitVec n} {k : Nat} {b : Bool}
    (h : w.toNat / 2 ^ k % 2 = b.toNat) : w.getLsbD k = b := by
  rw [BitVec.getLsbD, Nat.testBit_eq_decide_div_mod_eq, h]
  cases b <;> rfl

/-- Settles O50: each bit is a digit of the sum. -/
theorem statusBits : Obligations.StatusBits := by
  unfold Obligations.StatusBits
  rintro s _ rfl
  have hw : (windowRead s .status).toNat = _ := s.ndb.status.word_toNat
  have hb := s.ndb.status.busy.toNat_le
  have hd := s.ndb.status.done.toNat_le
  have he := s.ndb.status.err.toNat_le
  have ho := s.ndb.status.ovr.toNat_le
  have hc := s.ndb.status.code.isLt
  refine ⟨getLsbD_eq_of_div_mod ?_, getLsbD_eq_of_div_mod ?_, getLsbD_eq_of_div_mod ?_,
    getLsbD_eq_of_div_mod ?_, ?_, ?_, ?_⟩ <;> omega

/-! ### The other registers -/

/-- Settles O51. -/
theorem constantRegisters : Obligations.ConstantRegisters := by
  unfold Obligations.ConstantRegisters
  intro s w
  exact ⟨by simp [windowRead, paramsWord], windowWrite_of_readOnly s w (by simp), rfl,
    windowWrite_of_readOnly s w (by simp)⟩

/-- R104: the seed of a lane, mod 2^32. -/
theorem seedSequence_toNat (seed : Word) (i : Lane) :
    (seedSequence Config.this seed)[i].toNat = (seed.toNat + i.val * 0x9E3779B9) % 2 ^ 32 := by
  have hi : i.val < 2 ^ 32 := i.isLt.trans (by decide)
  have hs : Config.this.stride.toNat = 0x9E3779B9 := rfl
  rw [seedSequence, Lanes.of_getElem, BitVec.toNat_add, BitVec.toNat_mul, BitVec.toNat_ofNat,
    Nat.mod_eq_of_lt hi, Nat.add_mod_mod, hs]

/-- Settles O52: a write of SEED touches SEED alone, and RESEED seeds the lanes from it. -/
theorem seedRegister : Obligations.SeedRegister := by
  unfold Obligations.SeedRegister
  refine ⟨fun s w hb => ?_, rfl⟩
  rw [windowWrite_seed hb]
  refine ⟨?_, rfl, _, rfl, fun i => ?_⟩
  · simp only [windowRead, BitVec.toNat_setWidth]
    omega
  · simp only [complete_ndb, setGen_ndb, seedSequence_toNat, BitVec.toNat_setWidth]

/-- Settles O53: the window gives both registers back as written, and they are in every command's
frame. -/
theorem addrAndCountBelongToTheHost : Obligations.AddrAndCountBelongToTheHost := by
  unfold Obligations.AddrAndCountBelongToTheHost
  refine ⟨fun s w hb => ?_, fun i s t h => ?_⟩
  · rw [windowWrite_addr hb, windowWrite_count hb]
    exact ⟨rfl, rfl⟩
  · obtain ⟨haddr, hcount, -, -⟩ := (effect_of_exec h).sameRegisters
    exact ⟨haddr, hcount⟩

end Sys2Proof.Machine
end

section
/-! Which words decode to a command (spec/30_encoding.md R74, R77, R78). -/

namespace Sys2Proof

/-- One inversion of `decode`: a legal word has no reserved bit set, an opcode of the map, and
register fields that pass its checks. -/
theorem decode_eq_instr_iff {w : Word} {i : Instr} :
    decode w = .instr i ↔
      rsvOf w = 0 ∧ ∃ o, opcodeOf (opOf w) = some o ∧ registerChecks o w = none ∧
        buildInstr o w = i := by
  unfold decode
  by_cases hr : rsvOf w = 0
  · rw [if_neg (not_not_intro hr)]
    cases opcodeOf (opOf w) with
    | none => simp
    | some o => cases hc : registerChecks o w <;> simp [hr, hc]
  · simp [hr]

@[simp] theorem buildInstr_opcode (o : Opcode) (w : Word) : (buildInstr o w).opcode = o := by
  cases o <;> rfl

theorem eq_value_of_opcodeOf {n : Nat} {o : Opcode} (h : opcodeOf n = some o) : n = o.value := by
  unfold opcodeOf at h
  split_ifs at h <;> cases h <;> assumption

/-- A word is its OP byte, four register fields and RSV (R70). -/
theorem Word.toNat_eq_fields (w : Word) :
    w.toNat = opOf w + rdOf w * 2 ^ 8 + rs1Of w * 2 ^ 12 + rs2Of w * 2 ^ 16 + rd2Of w * 2 ^ 20 +
      rsvOf w * 2 ^ 24 := by
  have hw := w.isLt
  simp only [opOf, rdOf, rs1Of, rs2Of, rd2Of, rsvOf, fieldOf]
  omega

theorem fieldCheck_unused_eq_none_iff {f : Nat} : fieldCheck false f = none ↔ f = 0 := by
  simp [fieldCheck]

/-- FILL has one word. -/
theorem decode_eq_fill_iff {w : Word} : decode w = .instr .fill ↔ w = 2 := by
  constructor
  · rw [decode_eq_instr_iff]
    rintro ⟨hrsv, o, ho, hc, hi⟩
    obtain rfl : o = .fill := (buildInstr_opcode o w).symm.trans (congrArg Instr.opcode hi)
    have hop : opOf w = 2 := eq_value_of_opcodeOf ho
    simp only [registerChecks, Opcode.used, Option.or_eq_none_iff,
      fieldCheck_unused_eq_none_iff] at hc
    obtain ⟨hrd, hrs1, hrs2, hrd2, -⟩ := hc
    apply BitVec.eq_of_toNat_eq
    rw [Word.toNat_eq_fields, hop, hrd, hrs1, hrs2, hrd2, hrsv]
    rfl
  · rintro rfl
    decide

end Sys2Proof
end

section
/-! Memory as the Host and the commands see it (spec/20_memory.md). -/

namespace Sys2Proof.Machine

/-! ### Byte order -/

theorem toNat_append_byte {n : Nat} (x : BitVec n) (b : Byte) :
    (x ++ b).toNat = x.toNat * 2 ^ 8 + b.toNat := by
  rw [BitVec.toNat_append, ← Nat.shiftLeft_add_eq_or_of_lt b.isLt, Nat.shiftLeft_eq]

/-- R52: an element's value, least significant byte at its address. -/
theorem Memory.readWord_toNat (m : Memory) (a : Nat) :
    (Memory.readWord m a).toNat = (Memory.read m a).toNat + 2 ^ 8 * (Memory.read m (a + 1)).toNat +
      2 ^ 16 * (Memory.read m (a + 2)).toNat + 2 ^ 24 * (Memory.read m (a + 3)).toNat := by
  rw [Memory.readWord, toNat_append_byte, toNat_append_byte, toNat_append_byte]
  omega

/-- A byte of memory is a digit, base 256, of any element read over it. -/
theorem Memory.read_toNat_eq_digit (m : Memory) (a : Nat) (k : Fin 4) :
    (Memory.read m (a + k.val)).toNat =
      (Memory.readWord m a).toNat / 2 ^ (8 * k.val) % 2 ^ 8 := by
  have h0 := (Memory.read m a).isLt
  have h1 := (Memory.read m (a + 1)).isLt
  have h2 := (Memory.read m (a + 2)).isLt
  have h3 := (Memory.read m (a + 3)).isLt
  rw [Memory.readWord_toNat]
  fin_cases k <;> simp only [Nat.add_zero, Nat.mul_zero, Nat.pow_zero] <;> omega

/-- Settles O44: every lane is read back as an element, and its bytes are the element's digits. -/
theorem memoryIsLittleEndian : Obligations.MemoryIsLittleEndian := by
  unfold Obligations.MemoryIsLittleEndian
  intro m a v hm ha
  have hword := Memory.readWord_writeBatch v hm ha
  refine ⟨fun i k => ?_, hword, Memory.readBatch_writeBatch v hm ha⟩
  rw [Memory.read_toNat_eq_digit, hword]

/-! ### The Host's memory writes -/

theorem inWindow_iff (s : State) (a : Nat) :
    s.inWindow a = true ↔ s.windowBase.toNat ≤ a ∧ a < s.windowBase.toNat + 64 := by
  simp [State.inWindow]

/-- R60, R250: FILL, VLD and VST are the commands with a memory operand. -/
theorem operandInUse_iff (s : State) (a : Nat) :
    operandInUse s a = true ↔ s.ndb.status.busy = true ∧ s.ndb.addr.toNat ≤ a ∧
      ((s.ndb.cur = 2 ∧ a < s.ndb.addr.toNat + 4 * s.ndb.count.toNat) ∨
        ((∃ r, decode s.ndb.cur = .instr (.vld r) ∨ decode s.ndb.cur = .instr (.vst r)) ∧
          a < s.ndb.addr.toNat + 32)) := by
  simp only [operandInUse, Bool.and_eq_true, decide_eq_true_eq, and_assoc]
  refine and_congr_right fun _ => and_congr_right fun (ha : s.ndb.addr.toNat ≤ a) => ?_
  rw [← decode_eq_fill_iff, runningSize, commandWord, address]
  cases decode s.ndb.cur with
  | illegal why => simpa using ha
  | instr i => cases i <;> simp [operandSize, ha]

section
variable {s : State} {a : DWord}

theorem hostMemory_of_inWindow (h : s.inWindow a.toNat = true) (t : State) :
    hostMemory s a t = .refused .windowAsMemory := by
  rw [hostMemory, if_pos h]

theorem hostMemory_of_operandInUse (hw : ¬s.inWindow a.toNat = true)
    (ho : operandInUse s a.toNat = true) (t : State) :
    hostMemory s a t = .refused .operandInUse := by
  rw [hostMemory, if_neg hw, if_pos ho]

theorem hostMemory_of_free (hw : ¬s.inWindow a.toNat = true)
    (ho : ¬operandInUse s a.toNat = true) (t : State) : hostMemory s a t = .next t := by
  rw [hostMemory, if_neg hw, if_neg ho]

end

/-- Settles O55: the two refusals are the two tests of a Host memory move, and a move that passes
both is one write of a byte. -/
theorem hostMemoryWrites : Obligations.HostMemoryWrites := by
  unfold Obligations.HostMemoryWrites
  intro s a b rest hs hm window operand hwindow hoperand
  rw [← inWindow_iff] at hwindow
  rw [← operandInUse_iff] at hoperand
  rw [hwindow, hoperand, step_of_host hs]
  exact ⟨fun hw => hostMemory_of_inWindow hw _, fun hw ho => hostMemory_of_operandInUse hw ho _,
    fun hw ho => ⟨_, hostMemory_of_free hw ho _, rfl, fun x => Memory.read_write hm a.toNat x b⟩⟩

end Sys2Proof.Machine
end

section
/-! The words of the commands (spec/30_encoding.md R70 to R78): a word is decoded and encoded field
by field. -/

namespace Sys2Proof

/-! ### The fields of a word -/

theorem Word.eq_iff_fields {v w : Word} :
    v = w ↔ opOf v = opOf w ∧ rdOf v = rdOf w ∧ rs1Of v = rs1Of w ∧ rs2Of v = rs2Of w ∧
      rd2Of v = rd2Of w ∧ rsvOf v = rsvOf w := by
  refine ⟨by rintro rfl; simp, fun ⟨hop, hrd, hrs1, hrs2, hrd2, hrsv⟩ => ?_⟩
  apply BitVec.eq_of_toNat_eq
  rw [Word.toNat_eq_fields v, Word.toNat_eq_fields w, hop, hrd, hrs1, hrs2, hrd2, hrsv]

theorem fieldOf_lt (w : Word) (lo len : Nat) : fieldOf w lo len < 2 ^ len :=
  Nat.mod_lt _ (Nat.two_pow_pos len)

theorem opOf_eq (w : Word) : opOf w = w.toNat % 256 := by
  simp [opOf, fieldOf]

theorem rsvOf_eq (w : Word) : rsvOf w = w.toNat / 2 ^ 24 :=
  Nat.mod_eq_of_lt (by omega)

theorem fieldOf_and (v w : Word) (lo len : Nat) :
    fieldOf (v &&& w) lo len = fieldOf v lo len &&& fieldOf w lo len := by
  simp only [fieldOf, BitVec.toNat_and, Nat.and_div_two_pow, Nat.and_mod_two_pow]

/-! ### The fields of a command -/

/-- The register fields of a command's word, 0 where the command uses none (R70). -/
structure RegFields where
  rd : VReg := 0
  rs1 : VReg := 0
  rs2 : VReg := 0
  rd2 : VReg := 0

/-- What a command puts in the register fields of its word. -/
def Instr.regFields : Instr → RegFields
  | .nop => {}
  | .reseed => {}
  | .fill => {}
  | .draw rd => { rd }
  | .vlog rd rs1 => { rd, rs1 }
  | .vsin rd rs1 => { rd, rs1 }
  | .vsincos rd rd2 rs1 => { rd, rs1, rd2 }
  | .combine rd rd2 rs1 rs2 => { rd, rs1, rs2, rd2 }
  | .vld rd => { rd }
  | .vst rs1 => { rs1 }

theorem encode_eq_wordOf (i : Instr) : encode i =
    wordOf i.opcode i.regFields.rd i.regFields.rs1 i.regFields.rs2 i.regFields.rd2 := by
  cases i <;> rfl

theorem Opcode.value_lt (o : Opcode) : o.value < 2 ^ 8 := by cases o <;> decide

/-- R70: each field of a command's word holds what the command puts there, and RSV is 0. -/
theorem fields_encode (i : Instr) :
    opOf (encode i) = i.opcode.value ∧ rdOf (encode i) = i.regFields.rd ∧
      rs1Of (encode i) = i.regFields.rs1 ∧ rs2Of (encode i) = i.regFields.rs2 ∧
      rd2Of (encode i) = i.regFields.rd2 ∧ rsvOf (encode i) = 0 := by
  have ho := i.opcode.value_lt
  simp only [encode_eq_wordOf, wordOf, opOf, rdOf, rs1Of, rs2Of, rd2Of, rsvOf, fieldOf,
    BitVec.toNat_ofNat]
  omega

/-! ### The checks -/

theorem opcodeOf_eq_some_iff {n : Nat} {o : Opcode} : opcodeOf n = some o ↔ n = o.value := by
  refine ⟨eq_value_of_opcodeOf, ?_⟩
  rintro rfl
  cases o <;> rfl

theorem fieldCheck_eq_none_iff {used : Bool} {f : Nat} :
    fieldCheck used f = none ↔ if used then f < 8 else f = 0 := by
  cases used <;> simp [fieldCheck]

theorem registerChecks_eq_none_iff {o : Opcode} {w : Word} :
    registerChecks o w = none ↔
      fieldCheck o.used.rd (rdOf w) = none ∧ fieldCheck o.used.rs1 (rs1Of w) = none ∧
      fieldCheck o.used.rs2 (rs2Of w) = none ∧ fieldCheck o.used.rd2 (rd2Of w) = none ∧
      ¬(o.twoDestinations = true ∧ rdOf w = rd2Of w) := by
  simp [registerChecks, Option.or_eq_none_iff]

/-- The command that a checked word decodes to has the word's register numbers. -/
theorem regFields_buildInstr {o : Opcode} {w : Word} (h : registerChecks o w = none) :
    (buildInstr o w).regFields.rd = rdOf w ∧ (buildInstr o w).regFields.rs1 = rs1Of w ∧
      (buildInstr o w).regFields.rs2 = rs2Of w ∧ (buildInstr o w).regFields.rd2 = rd2Of w := by
  simp only [registerChecks_eq_none_iff, fieldCheck_eq_none_iff] at h
  obtain ⟨hrd, hrs1, hrs2, hrd2, -⟩ := h
  cases o <;> simp_all [buildInstr, Instr.regFields, Opcode.used, Nat.mod_eq_of_lt]

theorem registerChecks_encode (i : Instr) :
    registerChecks i.opcode (encode i) = none ↔ i.WellFormed := by
  obtain ⟨-, hrd, hrs1, hrs2, hrd2, -⟩ := fields_encode i
  rw [registerChecks_eq_none_iff, hrd, hrs1, hrs2, hrd2]
  cases i <;> simp [fieldCheck_eq_none_iff, Instr.opcode, Opcode.used, Instr.regFields,
    Opcode.twoDestinations, Instr.WellFormed, Instr.wf, Fin.val_inj]

theorem buildInstr_encode (i : Instr) : buildInstr i.opcode (encode i) = i := by
  obtain ⟨-, hrd, hrs1, hrs2, hrd2, -⟩ := fields_encode i
  cases i <;> simp [buildInstr, Instr.opcode, Instr.regFields, hrd, hrs1, hrs2, hrd2]

/-! ### There and back -/

/-- Settles O2: the fields of the word are the command's, they pass the checks, and the command is
built from them. -/
theorem decodeOfEncode : Obligations.DecodeOfEncode := by
  unfold Obligations.DecodeOfEncode
  intro i hi
  obtain ⟨hop, -, -, -, -, hrsv⟩ := fields_encode i
  exact decode_eq_instr_iff.2 ⟨hrsv, i.opcode, opcodeOf_eq_some_iff.2 hop,
    (registerChecks_encode i).2 hi, buildInstr_encode i⟩

/-- Settles O3: the word and the word of its command agree in every field. -/
theorem encodeOfDecode : Obligations.EncodeOfDecode := by
  unfold Obligations.EncodeOfDecode
  intro w i hw
  obtain ⟨hrsv, o, hop, hchecks, rfl⟩ := decode_eq_instr_iff.1 hw
  obtain ⟨hop', hrd', hrs1', hrs2', hrd2', hrsv'⟩ := fields_encode (buildInstr o w)
  obtain ⟨hrd, hrs1, hrs2, hrd2⟩ := regFields_buildInstr hchecks
  have hword : encode (buildInstr o w) = w := by
    rw [buildInstr_opcode] at hop'
    exact Word.eq_iff_fields.2 ⟨hop'.trans (eq_value_of_opcodeOf hop).symm, hrd'.trans hrd,
      hrs1'.trans hrs1, hrs2'.trans hrs2, hrd2'.trans hrd2, hrsv'.trans hrsv.symm⟩
  refine ⟨?_, hword⟩
  rwa [← registerChecks_encode, hword, buildInstr_opcode]

/-! ### Match and mask -/

theorem fields_and (v w : Word) :
    opOf (v &&& w) = opOf v &&& opOf w ∧ rdOf (v &&& w) = rdOf v &&& rdOf w ∧
      rs1Of (v &&& w) = rs1Of v &&& rs1Of w ∧ rs2Of (v &&& w) = rs2Of v &&& rs2Of w ∧
      rd2Of (v &&& w) = rd2Of v &&& rd2Of w ∧ rsvOf (v &&& w) = rsvOf v &&& rsvOf w :=
  ⟨fieldOf_and .., fieldOf_and .., fieldOf_and .., fieldOf_and .., fieldOf_and .., fieldOf_and ..⟩

/-- The mask of a register field: the top bit where the command uses it, all bits where not. -/
def fieldMask (used : Bool) : Nat := if used then 0x8 else 0xF

theorem fields_mask (o : Opcode) :
    opOf o.mask = 0xFF ∧ rdOf o.mask = fieldMask o.used.rd ∧ rs1Of o.mask = fieldMask o.used.rs1 ∧
      rs2Of o.mask = fieldMask o.used.rs2 ∧ rd2Of o.mask = fieldMask o.used.rd2 ∧
      rsvOf o.mask = 0xFF := by
  cases o <;> decide

theorem fields_matchWord (o : Opcode) :
    opOf o.matchWord = o.value ∧ rdOf o.matchWord = 0 ∧ rs1Of o.matchWord = 0 ∧
      rs2Of o.matchWord = 0 ∧ rd2Of o.matchWord = 0 ∧ rsvOf o.matchWord = 0 := by
  cases o <;> decide

theorem and_fieldMask_eq_zero_iff (used : Bool) {f : Nat} (h : f < 16) :
    f &&& fieldMask used = 0 ↔ fieldCheck used f = none := by
  revert used f
  decide

theorem and_mask_eq_matchWord_iff {w : Word} {o : Opcode} :
    w &&& o.mask = o.matchWord ↔
      opOf w = o.value ∧ fieldCheck o.used.rd (rdOf w) = none ∧
      fieldCheck o.used.rs1 (rs1Of w) = none ∧ fieldCheck o.used.rs2 (rs2Of w) = none ∧
      fieldCheck o.used.rd2 (rd2Of w) = none ∧ rsvOf w = 0 := by
  have hbyte : ∀ lo, fieldOf w lo 8 &&& 0xFF = fieldOf w lo 8 := fun lo =>
    Nat.and_two_pow_sub_one_of_lt_two_pow (fieldOf_lt w lo 8)
  have hreg : ∀ used lo, fieldOf w lo 4 &&& fieldMask used = 0 ↔
      fieldCheck used (fieldOf w lo 4) = none := fun used lo =>
    and_fieldMask_eq_zero_iff used (fieldOf_lt w lo 4)
  obtain ⟨aop, ard, ars1, ars2, ard2, arsv⟩ := fields_and w o.mask
  obtain ⟨kop, krd, krs1, krs2, krd2, krsv⟩ := fields_mask o
  obtain ⟨mop, mrd, mrs1, mrs2, mrd2, mrsv⟩ := fields_matchWord o
  rw [Word.eq_iff_fields, aop, ard, ars1, ars2, ard2, arsv, kop, krd, krs1, krs2, krd2, krsv,
    mop, mrd, mrs1, mrs2, mrd2, mrsv]
  simp only [opOf, rdOf, rs1Of, rs2Of, rd2Of, rsvOf, hbyte, hreg]

theorem exists_decode_opcode_iff {w : Word} {o : Opcode} :
    (∃ i, decode w = .instr i ∧ i.opcode = o) ↔
      rsvOf w = 0 ∧ opOf w = o.value ∧ registerChecks o w = none := by
  simp only [decode_eq_instr_iff, opcodeOf_eq_some_iff]
  constructor
  · rintro ⟨_, ⟨hrsv, o', hop, hc, rfl⟩, ho⟩
    rw [buildInstr_opcode] at ho
    subst ho
    exact ⟨hrsv, hop, hc⟩
  · rintro ⟨hrsv, hop, hc⟩
    exact ⟨_, ⟨hrsv, o, hop, hc, rfl⟩, buildInstr_opcode o w⟩

theorem Opcode.twoDestinations_iff (o : Opcode) :
    o.twoDestinations = true ↔ o = .vsincos ∨ o = .combine := by
  cases o <;> decide

/-- Settles O4: the masked comparison makes every check of the fields but R76's, which the statement
adds. -/
theorem legalWordsMatchTheMap : Obligations.LegalWordsMatchTheMap := by
  unfold Obligations.LegalWordsMatchTheMap
  intro w row hrow
  obtain ⟨o, m, k⟩ := row
  obtain ⟨rfl, rfl⟩ : m = o.matchWord ∧ k = o.mask := by
    revert hrow
    cases o <;> simp [Opcode.matchWord, Opcode.mask, Opcode.value]
  have hdiffer : (o = .vsincos ∨ o = .combine → w.toNat / 2 ^ 8 % 16 ≠ w.toNat / 2 ^ 20 % 16) ↔
      ¬(o.twoDestinations = true ∧ rdOf w = rd2Of w) := by
    rw [not_and, Opcode.twoDestinations_iff]
    rfl
  rw [exists_decode_opcode_iff, and_mask_eq_matchWord_iff, registerChecks_eq_none_iff, hdiffer]
  tauto

end Sys2Proof
end

section
/-! What a step of the Core does with the word in CUR (spec/30_encoding.md R77, R80), and that a
command reads its sources before it writes (R83). -/

namespace Sys2Proof

/-! ### Illegal words -/

/-- Which fields a command uses (R78), as conditions on OP. -/
theorem Opcode.used_iff_value_mem (o : Opcode) :
    (o.used.rd = true ↔ o.value ∈ [0x10, 0x11, 0x12, 0x13, 0x14, 0x20]) ∧
      (o.used.rs1 = true ↔ o.value ∈ [0x11, 0x12, 0x13, 0x14, 0x21]) ∧
      (o.used.rs2 = true ↔ o.value ∈ [0x14]) ∧ (o.used.rd2 = true ↔ o.value ∈ [0x13, 0x14]) ∧
      o.twoDestinations = o.used.rd2 := by
  cases o <;> decide

theorem exists_value_eq_iff {n : Nat} :
    (∃ o : Opcode, n = o.value) ↔
      n ∈ [0x00, 0x01, 0x02, 0x10, 0x11, 0x12, 0x13, 0x14, 0x20, 0x21] := by
  constructor
  · rintro ⟨o, rfl⟩
    cases o <;> decide
  · simp only [List.mem_cons, List.not_mem_nil, or_false]
    rintro (rfl | rfl | rfl | rfl | rfl | rfl | rfl | rfl | rfl | rfl)
    exacts [⟨.nop, rfl⟩, ⟨.reseed, rfl⟩, ⟨.fill, rfl⟩, ⟨.draw, rfl⟩, ⟨.vlog, rfl⟩, ⟨.vsin, rfl⟩,
      ⟨.vsincos, rfl⟩, ⟨.combine, rfl⟩, ⟨.vld, rfl⟩, ⟨.vst, rfl⟩]

theorem fieldCheck_ne_none_iff {used : Bool} {f : Nat} :
    (if used = true then 8 ≤ f else f ≠ 0) ↔ fieldCheck used f ≠ none := by
  cases used <;> simp [fieldCheck]

theorem exists_decode_iff {w : Word} :
    (∃ i, decode w = .instr i) ↔
      ∃ o : Opcode, rsvOf w = 0 ∧ opOf w = o.value ∧ registerChecks o w = none := by
  simp only [← exists_decode_opcode_iff]
  exact ⟨fun ⟨i, h⟩ => ⟨i.opcode, i, h, rfl⟩, fun ⟨_, i, h, _⟩ => ⟨i, h⟩⟩

theorem Opcode.value_injective : Function.Injective Opcode.value := fun _ _ h =>
  Option.some.inj ((opcodeOf_eq_some_iff.2 rfl).symm.trans (opcodeOf_eq_some_iff.2 h))

theorem exists_decode_of_opOf {w : Word} {o : Opcode} (h : opOf w = o.value) :
    (∃ i, decode w = .instr i) ↔ rsvOf w = 0 ∧ registerChecks o w = none := by
  rw [exists_decode_iff]
  refine ⟨?_, fun ⟨hrsv, hc⟩ => ⟨o, hrsv, h, hc⟩⟩
  rintro ⟨o', hrsv, ho', hc⟩
  obtain rfl := Opcode.value_injective (h.symm.trans ho')
  exact ⟨hrsv, hc⟩

/-- The five conditions of R77, on the fields of the word. -/
theorem not_exists_decode_iff {w : Word} :
    (¬∃ i, decode w = .instr i) ↔
      rsvOf w ≠ 0 ∨ opOf w ∉ [0x00, 0x01, 0x02, 0x10, 0x11, 0x12, 0x13, 0x14, 0x20, 0x21] ∨
        (if opOf w ∈ [0x10, 0x11, 0x12, 0x13, 0x14, 0x20] then 8 ≤ rdOf w else rdOf w ≠ 0) ∨
        (if opOf w ∈ [0x11, 0x12, 0x13, 0x14, 0x21] then 8 ≤ rs1Of w else rs1Of w ≠ 0) ∨
        (if opOf w ∈ [0x14] then 8 ≤ rs2Of w else rs2Of w ≠ 0) ∨
        (if opOf w ∈ [0x13, 0x14] then 8 ≤ rd2Of w else rd2Of w ≠ 0) ∨
        (opOf w ∈ [0x13, 0x14] ∧ rdOf w = rd2Of w) := by
  by_cases hmap : ∃ o : Opcode, opOf w = o.value
  · have hmem := exists_value_eq_iff.1 hmap
    obtain ⟨o, ho⟩ := hmap
    obtain ⟨hrd, hrs1, hrs2, hrd2, htwo⟩ := o.used_iff_value_mem
    rw [exists_decode_of_opOf ho, registerChecks_eq_none_iff, htwo, not_and_or, not_and_or,
      not_and_or, not_and_or, not_and_or, not_not]
    rw [ho] at hmem ⊢
    simp only [← hrd, ← hrs1, ← hrs2, ← hrd2, fieldCheck_ne_none_iff, hmem, not_true, false_or,
      ne_eq]
  · have hillegal : ¬∃ i, decode w = .instr i := by
      rw [exists_decode_iff]
      exact fun ⟨o, _, ho, _⟩ => hmap ⟨o, ho⟩
    rw [exists_value_eq_iff] at hmap
    exact iff_of_true hillegal (.inr (.inl hmap))

namespace Machine

theorem step_of_illegal {s : State} (hs : s.script = []) (hb : s.ndb.status.busy = true)
    {why : Illegal} (hd : decode s.ndb.cur = .illegal why) :
    step s = .next (raise s .illegalCommand (s.ndb.cur.setWidth 64)) := by
  simp only [step, takeTurn, hs, coreStep, hb, if_true, runCommand, commandWord, hd]

theorem raised_raise (s : State) (c : FaultCode) (info : DWord) :
    Raised s (raise s c info) c.code info :=
  ⟨rfl, rfl, rfl, rfl, rfl, rfl, rfl, rfl⟩

/-- Settles O5: the conditions are the failures of `decode`, and the step raises. -/
theorem illegalWordRaises : Obligations.IllegalWordRaises := by
  unfold Obligations.IllegalWordRaises
  intro w op rd rs1 rs2 rd2 hop hrd hrs1 hrs2 hrd2
  rw [← opOf_eq] at hop
  obtain rfl : rd = rdOf w := hrd
  obtain rfl : rs1 = rs1Of w := hrs1
  obtain rfl : rs2 = rs2Of w := hrs2
  obtain rfl : rd2 = rd2Of w := hrd2
  rw [← rsvOf_eq, hop]
  refine ite_prop_iff_and.2 ⟨fun hbad s hb hs hcur => ?_,
    fun hgood => not_not.1 fun h => hgood (not_exists_decode_iff.1 h)⟩
  cases hd : decode w with
  | instr i => exact absurd ⟨i, hd⟩ (not_exists_decode_iff.2 hbad)
  | illegal why =>
    subst hcur
    exact ⟨_, step_of_illegal hs hb hd, raised_raise s .illegalCommand _, rfl⟩

/-! ### Legal words: whichever turn lets the Core step (R208) -/

theorem coreStep_of_command {s : State} (hb : s.ndb.status.busy = true) {i : Instr}
    (hd : decode s.ndb.cur = .instr i) : coreStep s = exec i s := by
  simp only [coreStep, hb, if_true, runCommand, commandWord, hd]

/-- Settles O6: each of the three turns is a Core step. -/
theorem stepRunsDecodedCommand : Obligations.StepRunsDecodedCommand := by
  unfold Obligations.StepRunsDecodedCommand
  intro s i hb hd
  refine ⟨fun hs => step_of_command hs hb hd, fun rest hs => ?_, fun rest hs => ?_⟩
  · have hstep : step s = coreStep { s with script := rest } := by simp only [step, takeTurn, hs]
    exact hstep.trans (coreStep_of_command (s := { s with script := rest }) hb hd)
  · have hstep : step s = coreStep s := by simp only [step, takeTurn, hs, hb, if_true]
    exact hstep.trans (coreStep_of_command hb hd)

/-! ### Sources and destinations -/

theorem Readable.subset {s : State} {rs rs' : List VReg} (h : Readable s rs) (hsub : rs' ⊆ rs) :
    Readable s rs' :=
  h.imp id fun hw n hn => hw n (hsub hn)

theorem complete_writeV_v (u : State) (d : VReg) (x : Batch) :
    (complete (writeV u d x)).ndb.v[d] = x :=
  vset_self u.ndb.v d x

theorem complete_writeV_writeV_v (u : State) {d d2 : VReg} (h : d ≠ d2) (x y : Batch) :
    (complete (writeV (writeV u d x) d2 y)).ndb.v[d] = x :=
  (vset_other _ y h).trans (vset_self u.ndb.v d x)

/-- Settles O26: each destination holds a value made of `readV s rs1` and `readV s rs2` alone. -/
theorem sourcesAreReadBeforeDestinations : Obligations.SourcesAreReadBeforeDestinations := by
  unfold Obligations.SourcesAreReadBeforeDestinations
  intro s rs1 rs2 rd rd2 rd' rd2' hne hne' hread
  have hread1 : Readable s [rs1] := hread.subset (by simp)
  refine ⟨⟨_, _, exec_vlog hread1 rd, exec_vlog hread1 rd', ?_⟩,
    ⟨_, _, exec_vsin hread1 rd, exec_vsin hread1 rd', ?_⟩,
    ⟨_, _, exec_vsincos hread1 rd rd2, exec_vsincos hread1 rd' rd2', ?_, ?_⟩,
    ⟨_, _, exec_combine hread rd rd2, exec_combine hread rd' rd2', ?_, ?_⟩⟩
  all_goals
    simp only [complete_writeV_v, complete_writeV_writeV_v, hne, hne', ne_eq, not_false_eq_true]

end Machine
end Sys2Proof
end

section
/-! The functions of the generator on lane states (spec/40_generator.md R100, R105, R106). -/

namespace Sys2Proof

/-! ### The lane step -/

theorem lcgStep_toNat (c : Config) (s : Word) :
    (lcgStep c s).toNat = (s.toNat * c.lcgA.toNat + c.lcgC.toNat) % 2 ^ 32 := by
  simp [lcgStep]

/-- Settles O8: word arithmetic is arithmetic on naturals reduced once; the constants and corner
cases compute. -/
theorem laneStepIsTheLcg : Obligations.LaneStepIsTheLcg := by
  unfold Obligations.LaneStepIsTheLcg
  exact ⟨lcgStep_toNat, by decide, by decide, by decide, by decide, by decide, by decide⟩

theorem lcgStep_iterate_toNat (c : Config) (n : ℕ) (s : Word) : ((lcgStep c)^[n] s).toNat =
    (c.lcgA.toNat ^ n * s.toNat + c.lcgC.toNat * ∑ k ∈ Finset.range n, c.lcgA.toNat ^ k) %
      2 ^ 32 := by
  induction n with
  | zero => simp [Nat.mod_eq_of_lt s.isLt]
  | succ n ih =>
    rw [Function.iterate_succ_apply', lcgStep_toNat, ih, geom_sum_succ]
    refine (((Nat.mod_modEq _ _).mul_right _).add_right _).trans (congrArg (· % 2 ^ 32) ?_)
    ring

theorem lcgStep_lcgStep (c : Config) (s : Word) :
    lcgStep c (lcgStep c s) = c.lcgA * c.lcgA * s + (c.lcgC * c.lcgA + c.lcgC) := by
  simp only [lcgStep]
  ring

theorem lcgStep_injective {c : Config} (hodd : c.lcgA.toNat % 2 = 1) :
    Function.Injective (lcgStep c) := by
  intro s s' h
  have hcoprime : Nat.gcd (2 ^ 32) c.lcgA.toNat = 1 :=
    Nat.Coprime.pow_left 32 (Nat.coprime_two_left.2 (Nat.odd_iff.2 hodd))
  have hmul : s.toNat * c.lcgA.toNat + c.lcgC.toNat ≡ s'.toNat * c.lcgA.toNat + c.lcgC.toNat
      [MOD 2 ^ 32] := by
    have := congrArg BitVec.toNat h
    rwa [lcgStep_toNat, lcgStep_toNat] at this
  have hmod := (hmul.add_right_cancel' _).cancel_right_of_coprime hcoprime
  exact BitVec.eq_of_toNat_eq (hmod.eq_of_lt_of_lt s.isLt s'.isLt)

/-- The step is one to one on finitely many words. -/
theorem lcgStep_bijective {c : Config} (hodd : c.lcgA.toNat % 2 = 1) :
    Function.Bijective (lcgStep c) :=
  have : Finite Word := .of_equiv _ BitVec.equivFin.toEquiv.symm
  (lcgStep_injective hodd).bijective_of_finite

/-- Settles O12: the n-step form by induction on n, the two-step map with its constants multiplied
out, and the multiplier cancels because it is coprime to 2^32. -/
theorem laneStepIterates : Obligations.LaneStepIterates := by
  unfold Obligations.LaneStepIterates
  refine ⟨lcgStep_iterate_toNat, fun s => ?_, fun c hodd =>
    ⟨lcgStep_bijective hodd, fun s s' hne n => ((lcgStep_injective hodd).iterate n).ne hne⟩⟩
  have hA : Config.this.lcgA * Config.this.lcgA = 0x17385CA9 := by decide
  have hC : Config.this.lcgC * Config.this.lcgA + Config.this.lcgC = 0x47502932 := by decide
  rw [← hA, ← hC]
  exact lcgStep_lcgStep Config.this s

/-! ### The lane seeds -/

theorem seedSequence_getElem (c : Config) (seed : Word) (i : Lane) :
    (seedSequence c seed)[i] = seed + BitVec.ofNat 32 i.val * c.stride := by
  rw [seedSequence, Lanes.of_getElem]

theorem seedSequence_getElem_toNat (c : Config) (seed : Word) (i : Lane) :
    (seedSequence c seed)[i].toNat = (seed.toNat + i.val * c.stride.toNat) % 2 ^ 32 := by
  have hi : i.val < 2 ^ 32 := by omega
  rw [seedSequence_getElem, BitVec.toNat_add, BitVec.toNat_mul, BitVec.toNat_ofNat,
    Nat.mod_eq_of_lt hi, Nat.add_mod_mod]

/-- No number from 1 to 7 has more than two factors of 2. -/
theorem gcd_two_pow_dvd_four : ∀ d < 8, 0 < d → Nat.gcd (2 ^ 32) d ∣ 2 ^ 2 := by decide

/-- Two lanes with one seed are at most 7 apart, so the stride has all but two of the 32 factors
of 2. -/
theorem two_pow_dvd_of_dvd_mul {d n : ℕ} (h0 : 0 < d) (h8 : d < 8) (h : 2 ^ 32 ∣ d * n) :
    2 ^ 30 ∣ n := by
  rw [← Nat.dvd_gcd_mul_iff_dvd_mul] at h
  have h4 : 2 ^ 2 * 2 ^ 30 ∣ 2 ^ 2 * n :=
    h.trans (Nat.mul_dvd_mul_right (gcd_two_pow_dvd_four d h8 h0) n)
  exact Nat.dvd_of_mul_dvd_mul_left (by decide) h4

theorem seedSequence_ne_of_lt {c : Config} (hc : c.stride.toNat % 2 ^ 30 ≠ 0) (seed : Word)
    {i j : Lane} (hij : i < j) : (seedSequence c seed)[i] ≠ (seedSequence c seed)[j] := by
  intro h
  have hlt : i.val < j.val := hij
  have hle : i.val * c.stride.toNat ≤ j.val * c.stride.toNat := Nat.mul_le_mul_right _ hlt.le
  have hmod : i.val * c.stride.toNat ≡ j.val * c.stride.toNat [MOD 2 ^ 32] := by
    have := congrArg BitVec.toNat h
    rw [seedSequence_getElem_toNat, seedSequence_getElem_toNat] at this
    exact Nat.ModEq.add_left_cancel' _ this
  have hdvd := (Nat.modEq_iff_dvd' hle).1 hmod
  rw [← Nat.sub_mul] at hdvd
  exact hc (Nat.mod_eq_zero_of_dvd (two_pow_dvd_of_dvd_mul (by omega) (by omega) hdvd))

theorem seedSequence_distinct_iff (c : Config) :
    (∀ (seed : Word) (i j : Lane), i ≠ j → (seedSequence c seed)[i] ≠ (seedSequence c seed)[j]) ↔
      c.stride.toNat % 2 ^ 30 ≠ 0 := by
  refine ⟨fun h h0 => ?_, fun hc seed i j hij => ?_⟩
  · have hmeet : 0 = 4 * c.stride.toNat % 2 ^ 32 := by omega
    refine h 0 0 4 (by decide) (BitVec.eq_of_toNat_eq ?_)
    rw [seedSequence_getElem_toNat, seedSequence_getElem_toNat]
    simpa using hmeet
  · rcases lt_or_gt_of_ne hij with hlt | hlt
    · exact seedSequence_ne_of_lt hc seed hlt
    · exact (seedSequence_ne_of_lt hc seed hlt).symm

/-- Settles O14: lanes 0 and 4 meet when 2^30 divides the stride, and no two lanes do otherwise. -/
theorem laneSeedsDistinct : Obligations.LaneSeedsDistinct := by
  unfold Obligations.LaneSeedsDistinct
  refine ⟨seedSequence_distinct_iff, fun c hc => ?_, Config.this_wellFormed⟩
  obtain ⟨hstride, -⟩ := hc
  exact (seedSequence_distinct_iff c).2 (by omega)

/-- Refutes O13: the stride 2^29 keeps the seeds distinct although it is 0 mod 2^29. -/
theorem not_laneSeedsDistinctAsStated : ¬ Obligations.LaneSeedsDistinctAsStated := by
  unfold Obligations.LaneSeedsDistinctAsStated
  intro h
  have hc := h { Config.this with stride := 0x20000000 }
  rw [seedSequence_distinct_iff] at hc
  exact hc.1 (by decide) (by decide)

end Sys2Proof
end

section
/-! The uniform conversion is exact (spec/40_generator.md R101). -/

namespace Sys2Proof

/-- The operand of the conversion has 1.0's exponent field and the top 23 bits of the state as its
fraction. -/
theorem one_or_shift_eq_pack (s : Word) :
    0x3F800000 ||| s >>> 9 = F32.pack false (127 * 2 ^ 23 + s.toNat / 2 ^ 9) := by
  have hk : s.toNat / 2 ^ 9 < 2 ^ 23 := by omega
  apply BitVec.eq_of_toNat_eq
  have hone : ((0x3F800000 : ℕ) : Word).toNat = 2 ^ 23 * 127 := by decide
  rw [F32.pack_toNat (by omega), BitVec.toNat_or, BitVec.toNat_ushiftRight,
    Nat.shiftRight_eq_div_pow, hone, ← Nat.two_pow_add_eq_or_of_lt hk]
  simp

/-- The binary32 values in [1, 2). -/
theorem F32.units_pack_one_add {k : ℕ} (hk : k < 2 ^ 23) :
    F32.units (F32.pack false (127 * 2 ^ 23 + k)) = (2 ^ 23 + k : ℕ) * 2 ^ 126 := by
  have hdiv : (127 * 2 ^ 23 + k) / 2 ^ 23 = 127 := by omega
  have hmod : (127 * 2 ^ 23 + k) % 2 ^ 23 = k := by omega
  rw [F32.units_pack (by omega), F32.unitsOfMag, hdiv, hmod]
  simp

theorem F32.isFinite_pack_one_add {k : ℕ} (hk : k < 2 ^ 23) :
    F32.isFinite (F32.pack false (127 * 2 ^ 23 + k)) = true := by
  rw [F32.isFinite_iff, F32.pack_mag (by omega), F32.infMag]
  omega

/-- Subtracting 1.0 leaves the fraction, rounded from whole units of 2^-23. -/
theorem F32.subFinite_one_add {k : ℕ} (hk : k < 2 ^ 23) :
    F32.subFinite (F32.pack false (127 * 2 ^ 23 + k)) (F32.pack false (127 * 2 ^ 23 + 0)) =
      F32.pack false (F32.roundMag (k * 2 ^ 126) 0) := by
  have hdiff : ((2 ^ 23 + k : ℕ) * 2 ^ 126 - (2 ^ 23 + 0 : ℕ) * 2 ^ 126 : ℤ) =
      (k * 2 ^ 126 : ℕ) := by
    push_cast
    ring
  have hsign : ¬((2 ^ 23 + k : ℕ) * 2 ^ 126 : ℤ) < (2 ^ 23 + 0 : ℕ) * 2 ^ 126 := by
    rw [not_lt, ← sub_nonneg, hdiff]
    positivity
  rw [F32.subFinite, F32.units_pack_one_add hk, F32.units_pack_one_add (by decide)]
  split
  · obtain rfl : k = 0 := by omega
    decide +kernel
  · rw [decide_eq_false hsign, hdiff, Int.natAbs_natCast]

/-- R101: the conversion on the top 23 bits of the state. -/
theorem toUniform_eq_pack (s : Word) :
    toUniform s = F32.pack false (F32.roundMag (s.toNat / 2 ^ 9 * 2 ^ 126) 0) := by
  have hk : s.toNat / 2 ^ 9 < 2 ^ 23 := by omega
  have hone : F32.one = F32.pack false (127 * 2 ^ 23 + 0) := by decide
  rw [toUniform, one_or_shift_eq_pack, hone, F32.fsub_of_finite (F32.isFinite_pack_one_add hk)
    (F32.isFinite_pack_one_add (by decide)), F32.subFinite_one_add hk]

theorem roundMag_uniform_lt_inf (s : Word) :
    F32.roundMag (s.toNat / 2 ^ 9 * 2 ^ 126) 0 < F32.infMag :=
  F32.roundMag_lt_inf (e := 149) (by decide) (by omega)

theorem toUniform_isFinite (s : Word) : F32.isFinite (toUniform s) = true := by
  rw [toUniform_eq_pack, F32.isFinite_iff, F32.pack_mag (F32.roundMag_lt ..)]
  exact roundMag_uniform_lt_inf s

theorem toUniform_isNeg (s : Word) : F32.isNeg (toUniform s) = false := by
  rw [toUniform_eq_pack, F32.pack_isNeg (F32.roundMag_lt ..)]

theorem toUniform_value (s : Word) :
    F32.value (toUniform s) = (s.toNat / 2 ^ 9 : ℕ) / (2 ^ 23 : ℚ) := by
  rw [toUniform_eq_pack, F32.value, F32.units_pack (F32.roundMag_lt ..),
    F32.unitsOfMag_roundMag_exact (by omega) (by decide)]
  generalize s.toNat / 2 ^ 9 = k
  push_cast
  ring

theorem toUniform_eq_iff (s s' : Word) :
    toUniform s = toUniform s' ↔ s.toNat / 2 ^ 9 = s'.toNat / 2 ^ 9 := by
  refine ⟨fun h => ?_, fun h => by rw [toUniform_eq_pack, toUniform_eq_pack, h]⟩
  have hv := congrArg F32.value h
  rw [toUniform_value, toUniform_value, div_left_inj' (by positivity)] at hv
  exact_mod_cast hv

theorem toUniform_eq_zero_iff (s : Word) : toUniform s = 0 ↔ s.toNat ≤ 0x1FF := by
  have hzero : toUniform 0 = 0 := by decide +kernel
  have h := toUniform_eq_iff s 0
  rw [hzero, show (0 : Word).toNat = 0 from rfl] at h
  rw [h]
  omega

/-- The uniform values lie in [0, 1 - 2^-23]. -/
theorem toUniform_range (s : Word) :
    0 ≤ F32.value (toUniform s) ∧ F32.value (toUniform s) ≤ 1 - 1 / 2 ^ 23 := by
  have hk : ((s.toNat / 2 ^ 9 : ℕ) : ℚ) ≤ (2 ^ 23 - 1 : ℕ) := by
    exact_mod_cast (by omega : s.toNat / 2 ^ 9 ≤ 2 ^ 23 - 1)
  rw [toUniform_value]
  refine ⟨by positivity, ?_⟩
  rw [div_le_iff₀ (by positivity)]
  norm_num at hk ⊢
  exact hk

theorem exists_toUniform_value {k : ℕ} (hk : k < 2 ^ 23) :
    ∃ s : Word, F32.value (toUniform s) = (k : ℕ) / (2 ^ 23 : ℚ) := by
  refine ⟨BitVec.ofNat 32 (k * 2 ^ 9), ?_⟩
  rw [toUniform_value, BitVec.toNat_ofNat, Nat.mod_eq_of_lt (by omega),
    Nat.mul_div_cancel _ (by decide)]

/-- Settles O9: the difference is a whole number below 2^23 of units of 2^-23, which binary32 holds
exactly. -/
theorem uniformConversionIsExact : Obligations.UniformConversionIsExact := by
  unfold Obligations.UniformConversionIsExact
  refine ⟨fun s => ⟨toUniform_isFinite s, toUniform_isNeg s, toUniform_value s⟩, toUniform_eq_iff,
    fun k hk => exists_toUniform_value hk, toUniform_eq_zero_iff, ?_⟩
  decide +kernel

end Sys2Proof
end

section
/-! DRAW and RESEED (spec/40_generator.md R102, R104, R107). -/

namespace Sys2Proof

/-! ### The words -/

theorem decode_eq_instr_iff_encode_eq {w : Word} {i : Instr} (hi : i.WellFormed) :
    decode w = .instr i ↔ encode i = w := by
  refine ⟨fun h => (encodeOfDecode w i h).2, ?_⟩
  rintro rfl
  exact decodeOfEncode i hi

theorem decode_eq_draw_iff (w : Word) (rd : VReg) :
    decode w = .instr (.draw rd) ↔ w.toNat = 0x10 + rd.val * 2 ^ 8 := by
  have henc : (encode (.draw rd)).toNat = 0x10 + rd.val * 2 ^ 8 := by
    simp only [encode, wordOf, Opcode.value, BitVec.toNat_ofNat]
    omega
  rw [decode_eq_instr_iff_encode_eq rfl, ← henc, eq_comm, BitVec.toNat_inj]

theorem decode_eq_reseed_iff (w : Word) : decode w = .instr .reseed ↔ w = 1 := by
  rw [decode_eq_instr_iff_encode_eq rfl, eq_comm]
  rfl

/-- Of the words with RESEED's OP, the others are illegal. -/
theorem exists_illegal_of_reseed_op {w : Word} (hop : w.toNat % 256 = 1) (hne : w ≠ 1) :
    ∃ why, decode w = .illegal why := by
  cases hd : decode w with
  | illegal why => exact ⟨why, rfl⟩
  | instr i =>
    obtain ⟨-, o, ho, -, hi⟩ := decode_eq_instr_iff.1 hd
    have hval : Opcode.reseed.value = o.value := by
      rw [← eq_value_of_opcodeOf ho, opOf_eq, hop]
      rfl
    obtain rfl := Opcode.value_injective hval
    exact absurd ((decode_eq_reseed_iff w).1 (hd.trans (congrArg Decoded.instr hi.symm))) hne

namespace Machine

/-! ### What the two commands leave -/

theorem stepLanes_getElem (c : Config) (g : Lanes Word) (i : Lane) :
    (stepLanes c g)[i] = lcgStep c g[i] := by
  rw [stepLanes, Lanes.of_getElem]

theorem uniforms_getElem (g : Lanes Word) (i : Lane) :
    (uniforms g)[i] = toUniform g[i] := by
  rw [uniforms, Lanes.of_getElem]

/-- What DRAW leaves in the generator and in its destination (R102). -/
theorem exec_draw (rd : VReg) (s : State) : ∃ t, exec (.draw rd) s = .next t ∧
    t.ndb.gen = stepLanes Config.this s.ndb.gen ∧ t.ndb.v[rd] = uniforms t.ndb.gen ∧
    t.ndb.wr[rd] = true ∧ Completed s t ∧ SameBatches s t [rd] ∧
    t.unwrittenRead = s.unwrittenRead := by
  refine ⟨_, rfl, rfl, complete_writeV_v .., vset_self .., ⟨rfl, rfl⟩, fun n hn => ?_, rfl⟩
  have hne : n ≠ rd := by simpa using hn
  exact ⟨vset_other _ _ hne, vset_other _ _ hne⟩

/-- What RESEED leaves in the generator and in the batch registers (R104). -/
theorem exec_reseed (s : State) : ∃ t, exec .reseed s = .next t ∧
    t.ndb.gen = seedSequence Config.this s.ndb.seed ∧ Completed s t ∧ SameBatches s t [] ∧
    t.unwrittenRead = s.unwrittenRead :=
  ⟨_, rfl, rfl, ⟨rfl, rfl⟩, fun _ _ => ⟨rfl, rfl⟩, rfl⟩

theorem stepLanes_this_toNat (g : Lanes Word) (i : Lane) :
    (stepLanes Config.this g)[i].toNat = (g[i].toNat * 1664525 + 1013904223) % 2 ^ 32 := by
  rw [stepLanes_getElem, lcgStep_toNat]
  rfl

/-- What both commands leave alone. -/
theorem Effect.generator_frame {s t : State} {i : Instr} (h : Effect s i t)
    (hi : i = .reseed ∨ ∃ rd, i = .draw rd) :
    SameRegisters s t ∧ SameFill s t ∧ SameMemory s t ∧ SameOutside s t := by
  have hfill : i ≠ .fill := by rintro rfl; simp at hi
  have hvst : ∀ r, i ≠ .vst r := by rintro r rfl; simp at hi
  exact ⟨h.sameRegisters, h.sameFill hfill, fun a => by rw [h.mem_eq hfill hvst], h.sameOutside⟩

/-- Settles O10: DRAW's destination holds the uniform values of the lane states it leaves. -/
theorem drawAdvancesAndReturns : Obligations.DrawAdvancesAndReturns := by
  unfold Obligations.DrawAdvancesAndReturns
  refine ⟨fun rd s => ?_, decode_eq_draw_iff, ?_⟩
  · obtain ⟨t, ht, hgen, hv, hwr, hcompleted, hbatches, hread⟩ := exec_draw rd s
    obtain ⟨hregs, hfill, hmem, hout⟩ :=
      (effect_of_exec ht).generator_frame (.inr ⟨rd, rfl⟩)
    refine ⟨t, ht, fun i => ?_, hwr, hcompleted, hbatches, hregs, hfill, hmem, hout, hread⟩
    have hlane : t.ndb.v[rd][i] = toUniform t.ndb.gen[i] := by rw [hv, uniforms_getElem]
    obtain ⟨hlo, hhi⟩ := toUniform_range t.ndb.gen[i]
    rw [hlane]
    exact ⟨hgen ▸ stepLanes_this_toNat s.ndb.gen i, rfl, toUniform_isFinite _, hlo, hhi,
      fun h => (toUniform_eq_zero_iff _).2 (by omega)⟩
  · intro t ht
    obtain rfl := Host.Outcome.next.inj ht
    decide +kernel

/-- Settles O11: the seed sequence of SEED, evaluated at 1 and at 0. -/
theorem reseedConstructsTheGenerator : Obligations.ReseedConstructsTheGenerator := by
  unfold Obligations.ReseedConstructsTheGenerator
  refine ⟨fun s => ?_, decode_eq_reseed_iff, fun w => exists_illegal_of_reseed_op⟩
  obtain ⟨t, ht, hgen, hcompleted, hbatches, hread⟩ := exec_reseed s
  obtain ⟨hregs, hfill, hmem, hout⟩ := (effect_of_exec ht).generator_frame (.inl rfl)
  refine ⟨t, ht, fun i => ?_, hcompleted, hbatches, hregs, hfill, hmem, hout, hread,
    fun h1 => ?_, fun h0 => ?_⟩
  · rw [hgen, seedSequence_toNat]
  · rw [hgen, h1]
    decide
  · have hzero : t.ndb.gen[(0 : Lane)] = 0 := by
      rw [hgen, h0]
      decide
    refine ⟨hzero, fun rd => ?_⟩
    obtain ⟨u, hu, hugen, huv, -⟩ := exec_draw rd t
    refine ⟨u, hu, ?_⟩
    rw [huv, uniforms_getElem, hugen, stepLanes_getElem, hzero]
    rfl

/-! ### Two machines with one stream -/

/-- One command keeps the agreement in `S`, SEED and the registers that agree, and brings its
destination in. -/
theorem exec_generator_agree {i : Instr} (hi : i = .reseed ∨ ∃ rd, i = .draw rd) {s s' : State}
    (hgen : s.ndb.gen = s'.ndb.gen) (hseed : s.ndb.seed = s'.ndb.seed) :
    ∃ t t', exec i s = .next t ∧ exec i s' = .next t' ∧ t.ndb.gen = t'.ndb.gen ∧
      t.ndb.seed = t'.ndb.seed ∧
      ∀ rd, s.ndb.v[rd] = s'.ndb.v[rd] ∨ i = .draw rd → t.ndb.v[rd] = t'.ndb.v[rd] := by
  rcases hi with rfl | ⟨d, rfl⟩
  · refine ⟨_, _, rfl, rfl, ?_, hseed, fun rd hrd => hrd.resolve_right (by simp)⟩
    exact congrArg (seedSequence Config.this) hseed
  · obtain ⟨t, ht, htgen, htv, -, -, htbatches, -⟩ := exec_draw d s
    obtain ⟨t', ht', htgen', htv', -, -, htbatches', -⟩ := exec_draw d s'
    obtain ⟨-, -, htseed, -⟩ := (effect_of_exec ht).sameRegisters
    obtain ⟨-, -, htseed', -⟩ := (effect_of_exec ht').sameRegisters
    have hgen' : t.ndb.gen = t'.ndb.gen := by rw [htgen, htgen', hgen]
    refine ⟨t, t', ht, ht', hgen', by rw [htseed, htseed', hseed], fun rd hrd => ?_⟩
    by_cases hd : rd = d
    · subst hd
      rw [htv, htv', hgen']
    · have hv := hrd.resolve_right fun h => hd (Instr.draw.inj h).symm
      rw [(htbatches rd (by simpa using hd)).1, (htbatches' rd (by simpa using hd)).1, hv]

theorem runCommands_cons {i : Instr} {s t : State} (h : exec i s = .next t) (rest : List Instr) :
    runCommands (i :: rest) s = runCommands rest t := by
  simp only [runCommands, h]

/-- The same for a sequence: registers that agree before it stay in agreement. -/
theorem runCommands_generator_agree {cs : List Instr}
    (hcs : ∀ i ∈ cs, i = .reseed ∨ ∃ rd, i = .draw rd) {s s' : State}
    (hgen : s.ndb.gen = s'.ndb.gen) (hseed : s.ndb.seed = s'.ndb.seed) :
    ∃ t t', runCommands cs s = .next t ∧ runCommands cs s' = .next t' ∧ t.ndb.gen = t'.ndb.gen ∧
      ∀ rd, s.ndb.v[rd] = s'.ndb.v[rd] ∨ .draw rd ∈ cs → t.ndb.v[rd] = t'.ndb.v[rd] := by
  induction cs generalizing s s' with
  | nil => exact ⟨s, s', rfl, rfl, hgen, fun rd hrd => hrd.resolve_right (by simp)⟩
  | cons i rest ih =>
    obtain ⟨hi, hrest⟩ := List.forall_mem_cons.1 hcs
    obtain ⟨u, u', hu, hu', hugen, huseed, huv⟩ := exec_generator_agree hi hgen hseed
    obtain ⟨t, t', ht, ht', htgen, htv⟩ := ih hrest hugen huseed
    refine ⟨t, t', (runCommands_cons hu rest).trans ht, (runCommands_cons hu' rest).trans ht',
      htgen, fun rd hrd => htv rd ?_⟩
    rw [List.mem_cons, ← or_assoc, eq_comm (a := Instr.draw rd)] at hrd
    exact hrd.imp_left (huv rd)

/-- Settles O15: by induction on the sequence, with the registers that agree already. -/
theorem streamDependsOnSeedAndStateOnly : Obligations.StreamDependsOnSeedAndStateOnly := by
  unfold Obligations.StreamDependsOnSeedAndStateOnly
  intro cs hcs s s' hgen hseed
  obtain ⟨t, t', ht, ht', htgen, htv⟩ := runCommands_generator_agree hcs hgen hseed
  exact ⟨t, t', ht, ht', htgen, fun rd hrd => htv rd (.inr hrd)⟩

end Machine
end Sys2Proof
end

section
/-! The special cases of the three fixed operations (spec/41_kernels.md R127). -/

namespace Sys2Proof

theorem F32.not_isNaN_of_isZero {x : F32} (h : F32.isZero x = true) : F32.isNaN x = false := by
  rw [Bool.eq_false_iff, ne_eq, F32.isNaN_iff, F32.isZero_iff.1 h]
  exact Nat.not_lt_zero _

/-- R127: x − x = +0. -/
theorem F32.fsub_self {x : F32} (h : F32.isFinite x = true) : F32.fsub x x = 0 := by
  rw [F32.fsub_of_finite h h, F32.subFinite, if_pos rfl, F32.zeroDifference, Bool.and_not_self]
  rfl

theorem F32.fsub_isNaN {a b : F32} (h : F32.isNaN a = true ∨ F32.isNaN b = true) :
    F32.isNaN (F32.fsub a b) = true := by
  rw [F32.fsub, if_pos (by simpa using h)]
  exact F32.nanResult_isNaN ..

/-- An infinite operand beside a zero one gives a NaN, on either side. -/
theorem F32.fmul_isNaN_of_isInf_of_isZero {a b : F32} (hinf : (F32.isInf a || F32.isInf b) = true)
    (hzero : (F32.isZero a || F32.isZero b) = true) : F32.isNaN (F32.fmul a b) = true := by
  rw [F32.fmul, if_pos hinf, if_pos hzero, ite_self]
  exact F32.nanResult_isNaN ..

/-- R127: fsqrt of a zero of either sign is the operand. -/
theorem F32.fsqrt_of_isZero {x : F32} (h : F32.isZero x = true) : F32.fsqrt x = x := by
  rw [F32.fsqrt, F32.not_isNaN_of_isZero h, if_neg Bool.false_ne_true, if_pos h]

theorem F32.fsqrt_posInf : F32.fsqrt 0x7F800000 = 0x7F800000 := by decide

theorem F32.fsqrt_isNaN_of_isNaN {x : F32} (h : F32.isNaN x = true) :
    F32.isNaN (F32.fsqrt x) = true := by
  rw [F32.fsqrt, if_pos h]
  exact F32.nanResult_isNaN ..

theorem F32.fsqrt_isNaN_of_isNeg {x : F32} (hneg : F32.isNeg x = true)
    (hzero : F32.isZero x = false) : F32.isNaN (F32.fsqrt x) = true := by
  rw [F32.fsqrt, hzero, if_neg Bool.false_ne_true, if_pos hneg, ite_self]
  exact F32.nanResult_isNaN ..

/-- Settles O19: each case is the branch of its operation, whatever NaN the build returns. -/
theorem floatSpecialCases : Obligations.FloatSpecialCases := by
  unfold Obligations.FloatSpecialCases
  refine ⟨fun x => F32.fsub_self, fun a b ha hb => ⟨?_, ?_⟩, F32.fsqrt_of_isZero (by decide),
    F32.fsqrt_of_isZero (by decide), F32.fsqrt_posInf, fun x => F32.fsqrt_isNaN_of_isNeg,
    fun a b h => ⟨F32.fsub_isNaN h, F32.fmul_isNaN h⟩, fun x => F32.fsqrt_isNaN_of_isNaN⟩
  · exact F32.fmul_isNaN_of_isInf_of_isZero (by simp [hb]) (by simp [ha])
  · exact F32.fmul_isNaN_of_isInf_of_isZero (by simp [hb]) (by simp [ha])

end Sys2Proof
end

section
/-! The kernels (spec/41_kernels.md R121 to R125): what their accuracy says of this hardware, what
follows of LOG for every build, and builds that differ in what the accuracy leaves open. -/

namespace Sys2Proof

/-! ### The accuracy in real numbers -/

theorem F32.logDomain_iff {x : F32} :
    F32.LogDomain x ↔ F32.isFinite x = true ∧ 0 < F32.real x ∧ F32.real x ≤ 1 := by
  have hle : F32.real x ≤ 1 ↔ F32.value x ≤ 1 := by
    rw [F32.real, ← Rat.cast_one, Rat.cast_le]
  rw [F32.LogDomain, hle, F32.real, Rat.cast_pos]

/-- Settles O20: this build's kernels are admissible. -/
theorem kernelsAreAccurate : Obligations.KernelsAreAccurate := by
  unfold Obligations.KernelsAreAccurate
  have hk := Config.this_kernels_admissible
  exact ⟨fun x hfin hpos hle => hk.log_accurate x (F32.logDomain_iff.2 ⟨hfin, hpos, hle⟩),
    fun x hneg hfin hlt => hk.sin_accurate x ⟨hneg, hfin, hlt⟩⟩

/-! ### Three arguments -/

theorem F32.real_one : F32.real F32.one = 1 := by
  rw [F32.real_eq_units_div, show F32.units F32.one = 2 ^ 149 by decide +kernel]
  norm_num

theorem F32.real_zero : F32.real 0 = 0 := F32.real_eq_zero_iff.2 (by decide)

theorem F32.real_smallest : F32.real 1 = 1 / 2 ^ 149 := by
  rw [F32.real_eq_units_div, show F32.units 1 = 1 by decide, Int.cast_one]

theorem F32.logDomain_one : F32.LogDomain F32.one :=
  F32.logDomain_iff.2 ⟨by decide, by rw [F32.real_one]; exact one_pos, F32.real_one.le⟩

theorem F32.trigDomain_zero : F32.TrigDomain 0 := by
  have hlt : F32.real 0 < 2 * Real.pi := by
    rw [F32.real_zero]
    positivity
  exact ⟨by decide, by decide, hlt⟩

/-! ### What follows of LOG (R122) -/

section
variable {k : KernelFns} {x : F32}

theorem F32.log_real_nonpos (h : F32.LogDomain x) : Real.log (F32.real x) ≤ 0 := by
  obtain ⟨-, hpos, hle⟩ := F32.logDomain_iff.1 h
  exact Real.log_nonpos hpos.le hle

/-- LOG lies between two multiples of the logarithm, which is not positive on the domain. -/
theorem KernelFns.Admissible.log_bounds (hk : k.Admissible) (h : F32.LogDomain x) :
    (1 + 1 / 10 ^ 6) * Real.log (F32.real x) ≤ F32.real (k.log x) ∧
      F32.real (k.log x) ≤ (1 - 1 / 10 ^ 6) * Real.log (F32.real x) := by
  have hacc : |F32.real (k.log x) - Real.log (F32.real x)| ≤
      1 / 10 ^ 6 * |Real.log (F32.real x)| := (hk.log_accurate x h).2
  rw [abs_of_nonpos (F32.log_real_nonpos h), abs_le] at hacc
  obtain ⟨hlow, hhigh⟩ := hacc
  constructor <;> linarith

/-- The bound is 0 where the logarithm is. -/
theorem KernelFns.Admissible.log_one_isZero (hk : k.Admissible) :
    F32.isZero (k.log F32.one) = true := by
  obtain ⟨hlow, hhigh⟩ := hk.log_bounds F32.logDomain_one
  rw [F32.real_one, Real.log_one, mul_zero] at hlow hhigh
  exact F32.isZero_iff.2 (F32.real_eq_zero_iff.1 (hhigh.antisymm hlow))

/-- ln(2^-23) = −23 ln 2 = −15.94238…, and LOG is below it by at most one part in 10^6. -/
theorem KernelFns.Admissible.log_gt (hk : k.Admissible) (h : F32.LogDomain x)
    (hx : 1 / 2 ^ 23 ≤ F32.real x) : -15.9425 < F32.real (k.log x) := by
  have hln : -(23 * Real.log 2) ≤ Real.log (F32.real x) := by
    calc -(23 * Real.log 2) = Real.log (1 / 2 ^ 23) := by
          rw [one_div, Real.log_inv, Real.log_pow, Nat.cast_ofNat]
      _ ≤ Real.log (F32.real x) := Real.log_le_log (by positivity) hx
  have hlow := (hk.log_bounds h).1
  have hln2 : Real.log 2 < 0.6931471808 := Real.log_two_lt_d9
  linarith

end

/-! ### Builds that differ in LOG(1.0) -/

/-- The build with another value of LOG(1.0). -/
def KernelFns.withLogOne (k : KernelFns) (y : F32) : KernelFns :=
  { k with log := fun x => if x = F32.one then y else k.log x }

theorem KernelFns.withLogOne_log_one (k : KernelFns) (y : F32) :
    (k.withLogOne y).log F32.one = y := by simp only [KernelFns.withLogOne, if_true]

/-- A zero of either sign is accurate at 1.0. -/
theorem KernelFns.Admissible.withLogOne {k : KernelFns} (hk : k.Admissible) {y : F32}
    (hfin : F32.isFinite y = true) (hy : F32.real y = 0) : (k.withLogOne y).Admissible := by
  have hone : F32.Within y (Real.log (F32.real F32.one))
      (1 / 10 ^ 6 * |Real.log (F32.real F32.one)|) := by
    have hacc : |F32.real y - Real.log (F32.real F32.one)| ≤
        1 / 10 ^ 6 * |Real.log (F32.real F32.one)| := by simp [hy, F32.real_one]
    exact ⟨hfin, hacc⟩
  exact { hk with
    log_accurate := fun x hx => by
      simp only [KernelFns.withLogOne]
      split
      · subst x
        exact hone
      · exact hk.log_accurate x hx }

theorem exists_admissible_log_one {y : F32} (hfin : F32.isFinite y = true) (hy : F32.real y = 0) :
    ∃ k : KernelFns, k.Admissible ∧ k.log F32.one = y :=
  ⟨_, Config.this_kernels_admissible.withLogOne hfin hy, KernelFns.withLogOne_log_one _ y⟩

/-- Settles O21: by the two bounds of LOG, and by giving LOG(1.0) either zero in this build. -/
theorem logConsequences : Obligations.LogConsequences := by
  unfold Obligations.LogConsequences
  refine ⟨fun k hk => ⟨hk.log_one_isZero, fun x hfin hpos hlt => ?_, fun x hfin hge hle => ?_⟩,
    exists_admissible_log_one (by decide) (F32.real_eq_zero_iff.2 (by decide)),
    exists_admissible_log_one (by decide) (F32.real_eq_zero_iff.2 (by decide))⟩
  · have hdom := F32.logDomain_iff.2 ⟨hfin, hpos, hlt.le⟩
    exact ⟨(hk.log_bounds hdom).2,
      mul_neg_of_pos_of_neg (by norm_num) (Real.log_neg hpos hlt)⟩
  · have hdom := F32.logDomain_iff.2 ⟨hfin, lt_of_lt_of_le (by positivity) hge, hle⟩
    exact ⟨hk.log_gt hdom hge, (hk.log_bounds hdom).2.trans
      (mul_nonpos_of_nonneg_of_nonpos (by norm_num) (F32.log_real_nonpos hdom))⟩

/-! ### Builds that differ in SIN(0) -/

/-- The build with another value of SIN(0). -/
def KernelFns.withSinZero (k : KernelFns) (y : F32) : KernelFns :=
  { k with sin := fun x => if x = 0 then y else k.sin x }

theorem KernelFns.withSinZero_sin_zero (k : KernelFns) (y : F32) :
    (k.withSinZero y).sin 0 = y := by simp only [KernelFns.withSinZero, if_true]

/-- Every value within the bound of 0 is accurate at 0. -/
theorem KernelFns.Admissible.withSinZero {k : KernelFns} (hk : k.Admissible) {y : F32}
    (hfin : F32.isFinite y = true) (hy : |F32.real y| ≤ 1 / 10 ^ 6) :
    (k.withSinZero y).Admissible := by
  have hzero : F32.Within y (Real.sin (F32.real 0)) (1 / 10 ^ 6) := by
    rw [F32.real_zero, Real.sin_zero]
    exact ⟨hfin, (sub_zero (F32.real y)).symm ▸ hy⟩
  exact { hk with
    sin_accurate := fun x hx => by
      simp only [KernelFns.withSinZero]
      split
      · subst x
        exact hzero
      · exact hk.sin_accurate x hx }

/-- Two values are accurate at 0, so one of them is not the sine of SINCOS there. -/
theorem KernelFns.Admissible.exists_sincos_ne_sin {k : KernelFns} (hk : k.Admissible) :
    ∃ y, (k.withSinZero y).Admissible ∧ (k.sincos 0).1 ≠ y := by
  by_cases h : (k.sincos 0).1 = 0
  · refine ⟨1, hk.withSinZero (by decide) ?_, by rw [h]; decide⟩
    rw [F32.real_smallest]
    norm_num
  · refine ⟨0, hk.withSinZero (by decide) ?_, h⟩
    rw [F32.real_zero]
    norm_num

/-- Settles O22: this build is admissible, and stays so with another accurate SIN(0). -/
theorem sincosAccurateAndUnrelatedToSin : Obligations.SincosAccurateAndUnrelatedToSin := by
  unfold Obligations.SincosAccurateAndUnrelatedToSin
  have hk := Config.this_kernels_admissible
  refine ⟨fun x hneg hfin hlt => ?_, ?_⟩
  · obtain ⟨hsinFin, hsin⟩ := hk.sincos_sin_accurate x ⟨hneg, hfin, hlt⟩
    obtain ⟨hcosFin, hcos⟩ := hk.sincos_cos_accurate x ⟨hneg, hfin, hlt⟩
    exact ⟨hsinFin, hcosFin, hsin, hcos⟩
  · obtain ⟨y, hy, hne⟩ := hk.exists_sincos_ne_sin
    exact ⟨_, hy, 0, F32.trigDomain_zero, by rwa [KernelFns.withSinZero_sin_zero]⟩

end Sys2Proof
end

section
/-! VLOG, VSIN and VSINCOS (spec/41_kernels.md R130 to R132). -/

namespace Sys2Proof.Machine

/-! ### The frame of a vector command -/

theorem recorded_noteReads (s : State) (rs : List VReg) : Recorded s (noteReads s rs) rs := by
  unfold Recorded
  rw [noteReads_unwrittenRead, firstUnwritten]
  cases s.unwrittenRead <;> simp

theorem SameBatches.writeV {s u : State} {ds : List VReg} (h : SameBatches s u ds) {d : VReg}
    (hd : d ∈ ds) (x : Batch) : SameBatches s (writeV u d x) ds := fun n hn => by
  have hne : n ≠ d := by rintro rfl; exact hn hd
  exact ⟨(vset_other _ _ hne).trans (h n hn).1, (vset_other _ _ hne).trans (h n hn).2⟩

/-- Completion after any change of the batch registers in `ds` alone. -/
theorem vectorFrame_complete {s : State} {rs ds : List VReg} {v : Vector Batch 8}
    {wr : Vector Bool 8}
    (h : SameBatches s { noteReads s rs with ndb := { s.ndb with v := v, wr := wr } } ds) :
    VectorFrame s
      (complete { noteReads s rs with ndb := { s.ndb with v := v, wr := wr } }) ds rs :=
  ⟨⟨rfl, rfl⟩, h, rfl, by simp [SameRegisters], ⟨rfl, rfl⟩, fun _ => rfl,
    by simp [SameOutside], recorded_noteReads s rs⟩

theorem vectorFrame_complete_writeV (s : State) (rs : List VReg) (d : VReg) (x : Batch) :
    VectorFrame s (complete (writeV (noteReads s rs) d x)) [d] rs :=
  vectorFrame_complete (SameBatches.writeV (u := noteReads s rs) (fun _ _ => ⟨rfl, rfl⟩)
    (by simp) x)

theorem vectorFrame_complete_writeV_writeV (s : State) (rs : List VReg) (d d2 : VReg)
    (x y : Batch) :
    VectorFrame s (complete (writeV (writeV (noteReads s rs) d x) d2 y)) [d, d2] rs :=
  vectorFrame_complete (SameBatches.writeV (SameBatches.writeV (u := noteReads s rs)
    (fun _ _ => ⟨rfl, rfl⟩) (by simp) x) (by simp) y)

/-! ### Destinations -/

theorem complete_writeV_wr (u : State) (d : VReg) (x : Batch) :
    (complete (writeV u d x)).ndb.wr[d] = true :=
  vset_self u.ndb.wr d true

/-- What a vector command with one destination leaves. -/
theorem complete_writeV_results (s : State) (rs : List VReg) (rd : VReg) (f : Lane → F32) :
    (∀ i : Lane, (complete (writeV (noteReads s rs) rd (Lanes.of f))).ndb.v[rd][i] = f i) ∧
      (complete (writeV (noteReads s rs) rd (Lanes.of f))).ndb.wr[rd] = true ∧
      VectorFrame s (complete (writeV (noteReads s rs) rd (Lanes.of f))) [rd] rs := by
  refine ⟨fun i => ?_, complete_writeV_wr .., vectorFrame_complete_writeV ..⟩
  rw [complete_writeV_v, Lanes.of_getElem]

/-- Settles O23: both are one write of a destination, with the read of the source on record. -/
theorem vlogVsinResults : Obligations.VlogVsinResults := by
  unfold Obligations.VlogVsinResults
  intro rd rs1 s hread
  exact ⟨⟨_, exec_vlog hread rd, complete_writeV_results ..⟩,
    ⟨_, exec_vsin hread rd, complete_writeV_results ..⟩, readV_written⟩

/-- Settles O24: the write of RD2 leaves RD as the write before left it. -/
theorem vsincosResults : Obligations.VsincosResults := by
  unfold Obligations.VsincosResults
  intro rd rd2 rs1 s hne hread
  refine ⟨_, exec_vsincos hread rd rd2, fun i => ⟨?_, ?_⟩, ?_, complete_writeV_wr ..,
    vectorFrame_complete_writeV_writeV ..⟩
  · rw [complete_writeV_writeV_v _ hne, Lanes.of_getElem]
  · rw [complete_writeV_v, Lanes.of_getElem]
  · exact writeV_wr_of_wr (complete_writeV_wr _ rd _) rd2 _

end Sys2Proof.Machine
end

section
/-! COMBINE (spec/42_combiner.md R140, R141). -/

namespace Sys2Proof.Machine

theorem complete_writeV_writeV_wr (u : State) (d d2 : VReg) (x y : Batch) :
    (complete (writeV (writeV u d x) d2 y)).ndb.wr[d] = true :=
  writeV_wr_of_wr (complete_writeV_wr u d x) d2 y

/-- Settles O25: the two destinations hold the two results of the lane function, whose operations
are those of R140. -/
theorem combineResults : Obligations.CombineResults := by
  unfold Obligations.CombineResults
  intro rd rd2 rs1 rs2 s hne hread
  refine ⟨_, exec_combine hread rd rd2, ?_, complete_writeV_writeV_wr ..,
    complete_writeV_wr .., vectorFrame_complete_writeV_writeV ..⟩
  rintro i _ _ _ _ _ sinT cosT rfl rfl rfl rfl rfl hsc
  rw [complete_writeV_writeV_v _ hne, complete_writeV_v, combineZ0, combineZ1, Lanes.of_getElem,
    Lanes.of_getElem, combineLane, combineRadius, combineTheta, Config.this_twoPi, ← hsc,
    F32.negTwo, F32.one]
  exact ⟨rfl, rfl⟩

end Sys2Proof.Machine
end

section
/-! Bounds of rounded results: binary32 magnitudes are in the order of their bits, and a real number
below the middle between two neighbours rounds to the lower one or below it (spec/00_scope.md
R15). -/

namespace Sys2Proof

/-! ### The order of magnitudes -/

theorem F32.unitsOfMag_strictMono : StrictMono F32.unitsOfMag := by
  refine strictMono_nat_of_lt_succ fun m => ?_
  have hnext : ((m + 1) / 2 ^ 23 = m / 2 ^ 23 ∧ (m + 1) % 2 ^ 23 = m % 2 ^ 23 + 1) ∨
      ((m + 1) / 2 ^ 23 = m / 2 ^ 23 + 1 ∧ (m + 1) % 2 ^ 23 = 0) := by omega
  have hfrac : m % 2 ^ 23 < 2 ^ 23 := Nat.mod_lt _ (by decide)
  unfold F32.unitsOfMag
  rcases hnext with ⟨hdiv, hmod⟩ | ⟨hdiv, hmod⟩ <;> rw [hdiv, hmod]
  · split
    · exact m.lt_succ_self
    · gcongr
      exact Nat.lt_succ_self _
  · rw [if_neg (Nat.succ_ne_zero _), Nat.add_sub_cancel]
    split
    · rw [‹m / 2 ^ 23 = 0›]
      omega
    · obtain ⟨q, hq⟩ := Nat.exists_eq_add_one_of_ne_zero ‹m / 2 ^ 23 ≠ 0›
      calc (2 ^ 23 + m % 2 ^ 23) * 2 ^ (m / 2 ^ 23 - 1)
          < 2 ^ 24 * 2 ^ (m / 2 ^ 23 - 1) := by gcongr; omega
        _ = (2 ^ 23 + 0) * 2 ^ (m / 2 ^ 23) := by rw [hq, Nat.add_sub_cancel]; ring

theorem F32.abs_real (x : F32) : |F32.real x| = F32.unitsOfMag (F32.mag x) / 2 ^ 149 := by
  rw [F32.real_eq_units_div, abs_div, ← Int.cast_abs, Int.abs_eq_natAbs, F32.natAbs_units,
    abs_of_pos (a := (2 : ℝ) ^ 149) (by positivity), Int.cast_natCast]

theorem F32.abs_real_le_iff {x y : F32} : |F32.real x| ≤ |F32.real y| ↔ F32.mag x ≤ F32.mag y := by
  rw [F32.abs_real, F32.abs_real, div_le_div_iff_of_pos_right (by positivity), Nat.cast_le,
    F32.unitsOfMag_strictMono.le_iff_le]

theorem F32.abs_real_lt_iff {x y : F32} : |F32.real x| < |F32.real y| ↔ F32.mag x < F32.mag y :=
  lt_iff_lt_of_le_iff_le F32.abs_real_le_iff

/-- Below a magnitude means at most the one before it. -/
theorem F32.abs_real_le_of_lt {x y z : F32} (hxy : F32.mag y = F32.mag x + 1)
    (h : |F32.real z| < |F32.real y|) : |F32.real z| ≤ |F32.real x| := by
  rw [F32.abs_real_lt_iff] at h
  exact F32.abs_real_le_iff.2 (by omega)

theorem F32.toNat_eq_mag {x : F32} (h : F32.isNeg x = false) : x.toNat = F32.mag x := by
  have hlt : x.toNat < 2 ^ 31 := not_le.1 (of_decide_eq_false h)
  exact (Nat.mod_eq_of_lt hlt).symm

/-! ### Exact values -/

/-- A binary32 in binary digits after the point. -/
theorem F32.real_eq_div {x : F32} {z : ℤ} (d : ℕ) (h : F32.units x * 2 ^ d = z * 2 ^ 149) :
    F32.real x = z / 2 ^ d := by
  rw [F32.real_eq_units_div, div_eq_div_iff (by positivity) (by positivity)]
  exact_mod_cast h

theorem F32.value_le_iff {x : F32} {q : ℚ} : F32.value x ≤ q ↔ F32.real x ≤ q :=
  Rat.cast_le.symm

theorem F32.le_value_iff {x : F32} {q : ℚ} : q ≤ F32.value x ↔ q ≤ F32.real x :=
  Rat.cast_le.symm

theorem F32.value_nonneg_iff {x : F32} : 0 ≤ F32.value x ↔ 0 ≤ F32.real x :=
  Rat.cast_nonneg.symm

theorem F32.value_eq_iff {x : F32} {q : ℚ} : F32.value x = q ↔ F32.real x = q :=
  Rat.cast_inj.symm

theorem F32.abs_value_le_iff {x : F32} {q : ℚ} : |F32.value x| ≤ q ↔ |F32.real x| ≤ q := by
  rw [F32.real, ← Rat.cast_abs, Rat.cast_le]

/-- Every whole number of 24 bits is the significand of a binary32. -/
theorem F32.exists_real_eq {m e : ℕ} (hm : m < 2 ^ 24) (he : e ≤ 252) :
    ∃ x, F32.isFinite x = true ∧ F32.real x = m * 2 ^ e / 2 ^ 149 := by
  refine ⟨F32.pack false (F32.roundMag (m * 2 ^ e) 0), ?_, ?_⟩
  · rw [F32.isFinite_iff, F32.pack_mag (F32.roundMag_lt ..)]
    refine F32.roundMag_lt_inf (e := 24 + e) (by omega) ?_
    rw [pow_add]
    gcongr
  · rw [F32.real_eq_units_div, F32.units_pack (F32.roundMag_lt ..),
      F32.unitsOfMag_roundMag_exact hm he]
    push_cast
    rfl

theorem F32.abs_real_lt_of_isFinite {x : F32} (h : F32.isFinite x = true) :
    |F32.real x| < (2 ^ 25 - 1) * 2 ^ 103 := by
  have hmax : F32.real 0x7F7FFFFF = ((2 ^ 24 - 1) * 2 ^ 104 : ℤ) / 2 ^ 0 :=
    F32.real_eq_div 0 (by decide +kernel)
  have hle : |F32.real x| ≤ |F32.real 0x7F7FFFFF| := by
    rw [F32.abs_real_le_iff]
    exact Nat.le_of_lt_succ ((F32.isFinite_iff x).1 h)
  rw [hmax] at hle
  norm_num at hle ⊢
  linarith

/-! ### Rounding -/

section
variable {r x y : F32} {v : ℝ}

/-- The distance to a number of the same sign, measured on magnitudes. -/
theorem F32.abs_real_sub (hpos : 0 < v → F32.isNeg x = false) (hneg : v < 0 → F32.isNeg x = true) :
    |F32.real x - v| = |(|F32.real x| - |v|)| := by
  cases hs : F32.isNeg x with
  | false =>
    have hv : 0 ≤ v := not_lt.1 fun h => Bool.false_ne_true (hs.symm.trans (hneg h))
    rw [abs_of_nonneg (F32.real_nonneg hs), abs_of_nonneg hv]
  | true =>
    have hv : v ≤ 0 := not_lt.1 fun h => Bool.false_ne_true ((hpos h).symm.trans hs)
    rw [abs_of_nonpos (F32.real_nonpos hs), abs_of_nonpos hv, neg_sub_neg, abs_sub_comm]

/-- A number that binary32 holds is rounded to itself. -/
theorem F32.RoundsTo.real_eq (h : F32.RoundsTo r (F32.real x)) (hx : F32.isFinite x = true) :
    F32.isFinite r = true ∧ F32.real r = F32.real x := by
  obtain ⟨-, hnear, -⟩ := h
  obtain ⟨hfin, hbest⟩ := hnear (F32.abs_real_lt_of_isFinite hx)
  have hdist := (hbest x hx).1
  rw [sub_self, abs_zero, abs_nonpos_iff, sub_eq_zero] at hdist
  exact ⟨hfin, hdist⟩

theorem F32.roundsTo_real (hx : F32.isFinite x = true) : F32.RoundsTo x (F32.real x) := by
  refine ⟨fun hv => absurd hv (F32.abs_real_lt_of_isFinite hx).not_ge,
    fun _ => ⟨hx, fun y _ => ?_⟩,
    fun hv => Bool.eq_false_iff.2 fun hn => (F32.real_nonpos hn).not_gt hv,
    fun hv => Bool.not_eq_false _ ▸ fun hn => (F32.real_nonneg hn).not_gt hv⟩
  rw [sub_self, abs_zero]
  exact ⟨abs_nonneg _, fun he hne => absurd (sub_eq_zero.1 (abs_eq_zero.1 he.symm)) hne⟩

theorem F32.RoundsTo.real_nonneg (h : F32.RoundsTo r v) (hv : 0 ≤ v) : 0 ≤ F32.real r := by
  rcases hv.eq_or_lt with rfl | hv
  · rw [← F32.real_zero] at h
    exact ((h.real_eq (by decide)).2.trans F32.real_zero).ge
  · obtain ⟨-, -, hpos, -⟩ := h
    exact F32.real_nonneg (hpos hv)

/-- A number below the middle between a magnitude and the next one is not rounded past the lower
one: that one, with the sign of the result, would be nearer. -/
theorem F32.RoundsTo.abs_real_le (h : F32.RoundsTo r v) (hy : F32.isFinite y = true)
    (hxy : F32.mag y = F32.mag x + 1) (hv : 2 * |v| < |F32.real x| + |F32.real y|) :
    F32.isFinite r = true ∧ |F32.real r| ≤ |F32.real x| := by
  have hlt : |F32.real x| < |F32.real y| := F32.abs_real_lt_iff.2 (by omega)
  obtain ⟨-, hnear, hpos, hneg⟩ := h
  obtain ⟨hfin, hbest⟩ := hnear (by linarith [F32.abs_real_lt_of_isFinite hy])
  refine ⟨hfin, F32.abs_real_le_of_lt hxy (not_le.1 fun hyr => ?_)⟩
  obtain ⟨z, hz, hzneg⟩ : ∃ z, F32.mag z = F32.mag x ∧ F32.isNeg z = F32.isNeg r :=
    ⟨_, F32.pack_mag (F32.mag_lt x), F32.pack_isNeg (F32.mag_lt x)⟩
  have hzfin : F32.isFinite z = true := by
    rw [F32.isFinite_iff] at hy ⊢
    omega
  have hzx : |F32.real z| = |F32.real x| := by rw [F32.abs_real, F32.abs_real, hz]
  have hnearer := (hbest z hzfin).1
  rw [F32.abs_real_sub hpos hneg, F32.abs_real_sub (hzneg ▸ hpos) (hzneg ▸ hneg), hzx] at hnearer
  refine hnearer.not_gt ((abs_lt.2 ⟨?_, ?_⟩).trans_le (le_abs_self _)) <;> linarith

end

/-! ### The operations -/

theorem F32.fmul_roundsTo {a b : F32} (ha : F32.isFinite a = true) (hb : F32.isFinite b = true) :
    F32.RoundsTo (F32.fmul a b) (F32.real a * F32.real b) :=
  (multiplicationIsCorrectlyRounded a b ha hb).1

theorem F32.fmul_isNeg {a b : F32} (ha : F32.isFinite a = true) (hb : F32.isFinite b = true) :
    F32.isNeg (F32.fmul a b) = (F32.isNeg a != F32.isNeg b) :=
  (multiplicationIsCorrectlyRounded a b ha hb).2.1

theorem F32.fmul_isZero {a b : F32} (ha : F32.isFinite a = true) (hb : F32.isFinite b = true)
    (h : F32.isZero a = true ∨ F32.isZero b = true) : F32.isZero (F32.fmul a b) = true :=
  (multiplicationIsCorrectlyRounded a b ha hb).2.2 h

theorem F32.isFinite_of_isZero {x : F32} (h : F32.isZero x = true) : F32.isFinite x = true := by
  rw [F32.isFinite_iff, F32.isZero_iff.1 h]
  decide

/-- The root of a zero is that zero, so it is rounded correctly as the root of a positive value
is. -/
theorem F32.fsqrt_roundsTo {x : F32} (hx : F32.isFinite x = true) (h : 0 ≤ F32.real x) :
    F32.RoundsTo (F32.fsqrt x) (√(F32.real x)) := by
  rcases h.eq_or_lt with h0 | hpos
  · have hzero := F32.isZero_iff.2 (F32.real_eq_zero_iff.1 h0.symm)
    have hself := F32.roundsTo_real hx
    rwa [F32.fsqrt_of_isZero hzero, ← h0, Real.sqrt_zero, h0]
  · exact squareRootIsCorrectlyRounded x hx hpos

end Sys2Proof
end

section
/-! The combiner on generator outputs (spec/42_combiner.md R142 to R146). -/

namespace Sys2Proof

/-! ### The remap (R142) -/

theorem toUniform_real (s : Word) :
    F32.real (toUniform s) = (s.toNat / 2 ^ 9 : ℕ) / (2 ^ 23 : ℝ) := by
  rw [F32.real, toUniform_value]
  push_cast
  rfl

/-- The exact difference is a whole number of at most 24 bits of units of 2^-23. -/
theorem remap_exact (s : Word) :
    F32.isFinite (F32.fsub F32.one (toUniform s)) = true ∧
      F32.real (F32.fsub F32.one (toUniform s)) =
        ((2 ^ 23 - s.toNat / 2 ^ 9 : ℕ) : ℝ) / 2 ^ 23 := by
  have hk : s.toNat / 2 ^ 9 ≤ 2 ^ 23 := by omega
  obtain ⟨x, hx, hreal⟩ := F32.exists_real_eq (m := 2 ^ 23 - s.toNat / 2 ^ 9) (e := 126)
    (by omega) (by decide)
  have hscale : F32.real x = ((2 ^ 23 - s.toNat / 2 ^ 9 : ℕ) : ℝ) / 2 ^ 23 := by
    rw [hreal]
    ring
  have hround := (subtractionIsCorrectlyRounded F32.one _ (by decide) (toUniform_isFinite s)).1
  have hdiff : F32.real F32.one - F32.real (toUniform s) = F32.real x := by
    rw [F32.real_one, toUniform_real, hscale, Nat.cast_sub hk]
    push_cast
    generalize ((s.toNat / 2 ^ 9 : ℕ) : ℝ) = k
    ring
  rw [hdiff] at hround
  rw [← hscale]
  exact hround.real_eq hx

theorem remap_range (s : Word) :
    1 / 2 ^ 23 ≤ F32.real (F32.fsub F32.one (toUniform s)) ∧
      F32.real (F32.fsub F32.one (toUniform s)) ≤ 1 := by
  have hlow : 1 ≤ ((2 ^ 23 - s.toNat / 2 ^ 9 : ℕ) : ℝ) := by
    exact_mod_cast (by omega : 1 ≤ 2 ^ 23 - s.toNat / 2 ^ 9)
  have hhigh : ((2 ^ 23 - s.toNat / 2 ^ 9 : ℕ) : ℝ) ≤ 2 ^ 23 := by
    exact_mod_cast Nat.sub_le _ _
  rw [(remap_exact s).2]
  exact ⟨by gcongr, (div_le_one (by positivity)).2 hhigh⟩

theorem remap_logDomain (s : Word) : F32.LogDomain (F32.fsub F32.one (toUniform s)) := by
  obtain ⟨hlow, hhigh⟩ := remap_range s
  exact F32.logDomain_iff.2 ⟨(remap_exact s).1, lt_of_lt_of_le (by positivity) hlow, hhigh⟩

/-- Settles O28: the difference is rounded from a number that binary32 holds. -/
theorem remapIsExact : Obligations.RemapIsExact := by
  unfold Obligations.RemapIsExact
  intro s
  obtain ⟨hfin, hreal⟩ := remap_exact s
  obtain ⟨hlow, hhigh⟩ := remap_range s
  rw [show (0x3F800000 : F32) = F32.one from rfl]
  refine ⟨hfin, F32.value_eq_iff.2 ?_, F32.le_value_iff.2 ?_, F32.value_le_iff.2 ?_⟩
  · rw [hreal]
    push_cast
    rfl
  · push_cast
    exact hlow
  · push_cast
    exact hhigh

/-! ### The radius (R144) -/

theorem Config.WellFormed.admissible {c : Config} (hc : c.WellFormed) : c.kernels.Admissible := hc.2

section
variable {k : KernelFns} {x : F32}

theorem KernelFns.Admissible.log_isFinite (hk : k.Admissible) (h : F32.LogDomain x) :
    F32.isFinite (k.log x) = true :=
  (hk.log_accurate x h).1

theorem KernelFns.Admissible.log_nonpos (hk : k.Admissible) (h : F32.LogDomain x) :
    F32.real (k.log x) ≤ 0 := by
  linarith [(hk.log_bounds h).2, F32.log_real_nonpos h]

/-- The bound of LOG at 2^-23 lies between 0xC17F1413 and the next binary32. -/
theorem KernelFns.Admissible.abs_log_le (hk : k.Admissible) (h : F32.LogDomain x)
    (hx : 1 / 2 ^ 23 ≤ F32.real x) : |F32.real (k.log x)| ≤ |F32.real 0x417F1413| := by
  have hln : -(23 * Real.log 2) ≤ Real.log (F32.real x) := by
    calc -(23 * Real.log 2) = Real.log (1 / 2 ^ 23) := by
          rw [one_div, Real.log_inv, Real.log_pow, Nat.cast_ofNat]
      _ ≤ Real.log (F32.real x) := Real.log_le_log (by positivity) hx
  have hln2 : Real.log 2 < 0.6931471808 := Real.log_two_lt_d9
  have hlow := (hk.log_bounds h).1
  have hnext : F32.real 0x417F1414 = (4179205 : ℤ) / 2 ^ 18 :=
    F32.real_eq_div 18 (by decide +kernel)
  refine F32.abs_real_le_of_lt (y := 0x417F1414) (by decide) ?_
  rw [abs_of_nonpos (hk.log_nonpos h), hnext]
  norm_num
  linarith

theorem F32.real_negTwo : F32.real F32.negTwo = -2 := by
  rw [F32.real_eq_div (z := -2) 0 (by decide +kernel)]
  norm_num

theorem F32.real_tMax : F32.real 0x41FF1413 = 16716819 / 2 ^ 19 :=
  F32.real_eq_div (z := 16716819) 19 (by decide +kernel)

theorem F32.abs_real_tMax : |F32.real 0x41FF1413| = F32.real 0x41FF1413 :=
  abs_of_nonneg (F32.real_nonneg (by decide))

/-- Doubling is exact, and LOG is not positive. -/
theorem KernelFns.Admissible.negTwo_mul_log_range (hk : k.Admissible) (h : F32.LogDomain x)
    (hx : 1 / 2 ^ 23 ≤ F32.real x) :
    F32.isFinite (F32.fmul F32.negTwo (k.log x)) = true ∧
      0 ≤ F32.real (F32.fmul F32.negTwo (k.log x)) ∧
      F32.real (F32.fmul F32.negTwo (k.log x)) ≤ F32.real 0x41FF1413 := by
  have hmax : F32.real 0x417F1413 = (16716819 : ℤ) / 2 ^ 20 :=
    F32.real_eq_div 20 (by decide +kernel)
  have hnext : F32.real 0x41FF1414 = (4179205 : ℤ) / 2 ^ 17 :=
    F32.real_eq_div 17 (by decide +kernel)
  have hround := F32.fmul_roundsTo (a := F32.negTwo) (by decide) (hk.log_isFinite h)
  rw [F32.real_negTwo] at hround
  have hnonneg := hround.real_nonneg (by linarith [hk.log_nonpos h])
  have hmid : 2 * |-2 * F32.real (k.log x)| < |F32.real 0x41FF1413| + |F32.real 0x41FF1414| := by
    have hlog := hk.abs_log_le h hx
    rw [hmax] at hlog
    rw [abs_mul, F32.real_tMax, hnext]
    norm_num at hlog ⊢
    linarith
  obtain ⟨hfin, hle⟩ := hround.abs_real_le (by decide) (by decide) hmid
  rw [abs_of_nonneg hnonneg, F32.abs_real_tMax] at hle
  exact ⟨hfin, hnonneg, hle⟩

end

theorem F32.real_radiusMax : F32.real 0x40B4B176 = 5920955 / 2 ^ 20 :=
  F32.real_eq_div (z := 5920955) 20 (by decide +kernel)

/-- The root of the largest t lies below the middle between 0x40B4B176 and the next binary32. -/
theorem F32.fsqrt_range {t : F32} (hfin : F32.isFinite t = true) (hnonneg : 0 ≤ F32.real t)
    (hle : F32.real t ≤ F32.real 0x41FF1413) :
    F32.isFinite (F32.fsqrt t) = true ∧ 0 ≤ F32.real (F32.fsqrt t) ∧
      |F32.real (F32.fsqrt t)| ≤ |F32.real 0x40B4B176| := by
  have hnext : F32.real 0x40B4B177 = (11841911 : ℤ) / 2 ^ 21 :=
    F32.real_eq_div 21 (by decide +kernel)
  have hroot : √(F32.real t) < 5.64666295 := by
    rw [Real.sqrt_lt' (by norm_num)]
    rw [F32.real_tMax] at hle
    norm_num at hle ⊢
    linarith
  have hmid : 2 * |√(F32.real t)| < |F32.real 0x40B4B176| + |F32.real 0x40B4B177| := by
    rw [abs_of_nonneg (Real.sqrt_nonneg _), F32.real_radiusMax, hnext]
    norm_num at hroot ⊢
    linarith
  have hround := F32.fsqrt_roundsTo hfin hnonneg
  obtain ⟨hrfin, hrle⟩ := hround.abs_real_le (by decide) (by decide) hmid
  exact ⟨hrfin, hround.real_nonneg (Real.sqrt_nonneg _), hrle⟩

namespace Machine

theorem combineRadius_range {c : Config} (hc : c.WellFormed) (s : Word) :
    F32.isFinite (combineRadius c (toUniform s)) = true ∧
      0 ≤ F32.real (combineRadius c (toUniform s)) ∧
      |F32.real (combineRadius c (toUniform s))| ≤ |F32.real 0x40B4B176| := by
  obtain ⟨hfin, hnonneg, hle⟩ :=
    hc.admissible.negTwo_mul_log_range (remap_logDomain s) (remap_range s).1
  exact F32.fsqrt_range hfin hnonneg hle

/-- Settles O30: LOG is bounded at 2^-23, doubling is exact, and the root is rounded below the
middle between two neighbours. -/
theorem radiusRange : Obligations.RadiusRange := by
  unfold Obligations.RadiusRange
  rintro c hc s _ rfl
  obtain ⟨htfin, htnonneg, htle⟩ :=
    hc.admissible.negTwo_mul_log_range (remap_logDomain s) (remap_range s).1
  obtain ⟨hfin, hnonneg, hle⟩ := combineRadius_range hc s
  refine ⟨htfin, F32.value_nonneg_iff.2 htnonneg, F32.value_le_iff.2 (htle.trans ?_),
    F32.not_isNaN_of_isFinite hfin, F32.value_nonneg_iff.2 hnonneg,
    F32.value_le_iff.2 ((le_abs_self _).trans (hle.trans ?_)), F32.abs_real_le_iff.1 hle⟩
  · rw [F32.real_tMax]
    norm_num
  · rw [F32.real_radiusMax]
    norm_num

end Machine

/-! ### The angle (R145) -/

theorem F32.real_thetaMax : F32.real 0x40C90FD9 = 13176793 / 2 ^ 21 :=
  F32.real_eq_div (z := 13176793) 21 (by decide +kernel)

/-- The exact product at the largest u2 lies below the middle between 0x40C90FD9 and the next
binary32. -/
theorem theta_range (s : Word) :
    F32.isFinite (F32.fmul 0x40C90FDB (toUniform s)) = true ∧
      |F32.real (F32.fmul 0x40C90FDB (toUniform s))| ≤ |F32.real 0x40C90FD9| := by
  have htwoPi : F32.real 0x40C90FDB = (13176795 : ℤ) / 2 ^ 21 :=
    F32.real_eq_div 21 (by decide +kernel)
  have hnext : F32.real 0x40C90FDA = (6588397 : ℤ) / 2 ^ 20 :=
    F32.real_eq_div 20 (by decide +kernel)
  have hk : ((s.toNat / 2 ^ 9 : ℕ) : ℝ) ≤ 2 ^ 23 - 1 := by
    rw [le_sub_iff_add_le]
    exact_mod_cast (by omega : s.toNat / 2 ^ 9 + 1 ≤ 2 ^ 23)
  refine (F32.fmul_roundsTo (by decide) (toUniform_isFinite s)).abs_real_le (y := 0x40C90FDA)
    (by decide) (by decide) ?_
  rw [toUniform_real, htwoPi, F32.real_thetaMax, hnext, abs_of_nonneg (by positivity)]
  generalize ((s.toNat / 2 ^ 9 : ℕ) : ℝ) = k at hk ⊢
  norm_num at hk ⊢
  linarith

theorem theta_isNeg (s : Word) : F32.isNeg (F32.fmul 0x40C90FDB (toUniform s)) = false := by
  rw [F32.fmul_isNeg (by decide) (toUniform_isFinite s), toUniform_isNeg]
  decide

theorem F32.real_thetaMax_lt : F32.real 0x40C90FD9 < 2 * Real.pi := by
  have hpi := Real.pi_gt_d20
  rw [F32.real_thetaMax]
  norm_num at hpi ⊢
  linarith

theorem theta_trigDomain (s : Word) : F32.TrigDomain (F32.fmul 0x40C90FDB (toUniform s)) := by
  obtain ⟨hfin, hle⟩ := theta_range s
  have hlt : F32.real (F32.fmul 0x40C90FDB (toUniform s)) < 2 * Real.pi := by
    rw [abs_of_nonneg (a := F32.real 0x40C90FD9) (F32.real_nonneg (by decide))] at hle
    exact ((le_abs_self _).trans hle).trans_lt F32.real_thetaMax_lt
  exact ⟨theta_isNeg s, hfin, hlt⟩

/-- Settles O31: the product is rounded below the middle between two neighbours, and π is known to
20 digits. -/
theorem thetaIsInTheDomain : Obligations.ThetaIsInTheDomain := by
  unfold Obligations.ThetaIsInTheDomain
  refine ⟨fun s => ⟨(theta_range s).1, theta_isNeg s, ?_, theta_trigDomain s⟩, by decide +kernel,
    F32.real_thetaMax_lt, ?_⟩
  · rw [F32.toNat_eq_mag (theta_isNeg s)]
    exact F32.abs_real_le_iff.1 (theta_range s).2
  · have hlow := Real.pi_gt_d20
    have hhigh := Real.pi_lt_d20
    rw [F32.real_thetaMax, abs_le]
    norm_num at hlow hhigh ⊢
    constructor <;> linarith

/-! ### The results (R143, R146) -/

theorem F32.Within.abs_real_le {y : F32} {r eps : ℝ} (h : F32.Within y r eps) (hr : |r| ≤ 1) :
    |F32.real y| ≤ 1 + eps := by
  have hacc : |F32.real y - r| ≤ eps := h.2
  linarith [abs_sub_abs_le_abs_sub (F32.real y) r]

/-- A sine or a cosine is at most 1 + 10^-6, hence at most the binary32 1 + 2^-20. -/
theorem F32.Within.abs_real_le_unit {y : F32} {r : ℝ} (h : F32.Within y r (1 / 10 ^ 6))
    (hr : |r| ≤ 1) : |F32.real y| ≤ |F32.real 0x3F800008| := by
  have hnext : F32.real 0x3F800009 = (8388617 : ℤ) / 2 ^ 23 :=
    F32.real_eq_div 23 (by decide +kernel)
  refine F32.abs_real_le_of_lt (y := 0x3F800009) (by decide)
    ((h.abs_real_le hr).trans_lt ?_)
  rw [hnext]
  norm_num

theorem F32.real_resultMax : F32.real 0x40B4B181 = 11841921 / 2 ^ 21 :=
  F32.real_eq_div (z := 11841921) 21 (by decide +kernel)

/-- The product of the largest radius and 1 + 2^-20 lies below the middle between 0x40B4B181 and
the next binary32. -/
theorem F32.fmul_radius_range {a b : F32} (ha : F32.isFinite a = true) (hb : F32.isFinite b = true)
    (hale : |F32.real a| ≤ |F32.real 0x40B4B176|) (hble : |F32.real b| ≤ |F32.real 0x3F800008|) :
    F32.isFinite (F32.fmul a b) = true ∧ |F32.real (F32.fmul a b)| ≤ |F32.real 0x40B4B181| := by
  have hunit : F32.real 0x3F800008 = (1048577 : ℤ) / 2 ^ 20 :=
    F32.real_eq_div 20 (by decide +kernel)
  have hnext : F32.real 0x40B4B182 = (5920961 : ℤ) / 2 ^ 20 :=
    F32.real_eq_div 20 (by decide +kernel)
  refine (F32.fmul_roundsTo ha hb).abs_real_le (y := 0x40B4B182) (by decide) (by decide) ?_
  have hprod : |F32.real a| * |F32.real b| ≤ |F32.real 0x40B4B176| * |F32.real 0x3F800008| := by
    gcongr
  rw [F32.real_radiusMax, hunit] at hprod
  rw [abs_mul, F32.real_resultMax, hnext]
  norm_num at hprod ⊢
  linarith

namespace Machine

theorem sincos_theta_within {c : Config} (hc : c.WellFormed) (s : Word) :
    ∃ v : ℝ, F32.Within (c.kernels.sincos (F32.fmul 0x40C90FDB (toUniform s))).1 (Real.sin v)
        (1 / 10 ^ 6) ∧
      F32.Within (c.kernels.sincos (F32.fmul 0x40C90FDB (toUniform s))).2 (Real.cos v)
        (1 / 10 ^ 6) :=
  ⟨_, hc.admissible.sincos_sin_accurate _ (theta_trigDomain s),
    hc.admissible.sincos_cos_accurate _ (theta_trigDomain s)⟩

/-- Settles O32: the radius and the two results of SINCOS are bounded, and the product is rounded
below the middle between two neighbours. -/
theorem combinerOutputsAreFinite : Obligations.CombinerOutputsAreFinite := by
  unfold Obligations.CombinerOutputsAreFinite
  intro c hc hpi s1 s2 z hz
  obtain ⟨hrfin, -, hrle⟩ := combineRadius_range hc s1
  obtain ⟨v, hsin, hcos⟩ := sincos_theta_within hc s2
  have hrange : F32.isFinite z = true ∧ |F32.real z| ≤ |F32.real 0x40B4B181| := by
    rw [combineLane, combineTheta, hpi] at hz
    rcases hz with rfl | rfl
    · exact F32.fmul_radius_range hrfin hcos.1 hrle (hcos.abs_real_le_unit (Real.abs_cos_le_one v))
    · exact F32.fmul_radius_range hrfin hsin.1 hrle (hsin.abs_real_le_unit (Real.abs_sin_le_one v))
  obtain ⟨hfin, hle⟩ := hrange
  refine ⟨hfin, F32.abs_value_le_iff.2 (hle.trans ?_), F32.abs_real_le_iff.1 hle⟩
  rw [F32.real_resultMax]
  norm_num

theorem fsub_one_zero : F32.fsub F32.one 0 = F32.one := by decide +kernel

/-- A zero stays the same under the root. -/
theorem combineRadius_zero {c : Config} (h : F32.isZero (c.kernels.log F32.one) = true) :
    combineRadius c 0 = F32.fmul F32.negTwo (c.kernels.log F32.one) ∧
      F32.isZero (combineRadius c 0) = true := by
  have hzero : F32.isZero (F32.fmul F32.negTwo (c.kernels.log F32.one)) = true :=
    F32.fmul_isZero (by decide) (F32.isFinite_of_isZero h) (.inr h)
  rw [combineRadius, fsub_one_zero, F32.fsqrt_of_isZero hzero]
  exact ⟨rfl, hzero⟩

theorem combineRadius_zero_of_posZero {c : Config} (h : c.kernels.log F32.one = 0) :
    F32.fmul F32.negTwo (c.kernels.log F32.one) = 0x80000000 ∧ combineRadius c 0 = 0x80000000 := by
  rw [(combineRadius_zero (by rw [h]; decide)).1, h]
  decide +kernel

theorem combineRadius_zero_of_negZero {c : Config} (h : c.kernels.log F32.one = 0x80000000) :
    F32.fmul F32.negTwo (c.kernels.log F32.one) = 0 ∧ combineRadius c 0 = 0 := by
  rw [(combineRadius_zero (by rw [h]; decide)).1, h]
  decide +kernel

/-- Settles O29: the radius is the zero that −2 * LOG(1.0) is, and the sine and the cosine are
finite, so their products with it are zeros. -/
theorem poleGivesZeros : Obligations.PoleGivesZeros := by
  unfold Obligations.PoleGivesZeros
  refine ⟨fun c hc hpi => ⟨fsub_one_zero, hc.admissible.log_one_isZero,
    combineRadius_zero_of_posZero, combineRadius_zero_of_negZero, fun s sinT cosT hsc => ?_⟩,
    fun c hlog hsincos hpi => ?_⟩
  · obtain ⟨-, hzero⟩ := combineRadius_zero hc.admissible.log_one_isZero
    have hrfin := F32.isFinite_of_isZero hzero
    obtain ⟨v, ⟨hsin, -⟩, ⟨hcos, -⟩⟩ := sincos_theta_within hc s
    rw [← hsc] at hsin hcos
    rw [combineLane, combineTheta, hpi, ← hsc]
    exact ⟨F32.fmul_isZero hrfin hcos (.inl hzero), F32.fmul_isNeg hrfin hcos,
      F32.fmul_isZero hrfin hsin (.inl hzero), F32.fmul_isNeg hrfin hsin⟩
  · have htheta : F32.fmul 0x40C90FDB 0 = 0 := by decide +kernel
    rw [combineLane, combineTheta, hpi, htheta, hsincos, (combineRadius_zero_of_posZero hlog).2]
    decide +kernel

end Machine
end Sys2Proof
end

section
/-! A Core step of FILL (spec/43_batch_driver.md R160 to R168): its first step, and a block. -/

namespace Sys2Proof.Machine

section
variable {s t : State}

/-! ### The first step -/

theorem exec_fill_of_outside (h : ¬s.ndb.fillIdx < s.ndb.fillNb) :
    exec .fill s = .next (fillStart s) :=
  if_neg h

theorem exec_fill_of_inside (h : s.ndb.fillIdx < s.ndb.fillNb) :
    exec .fill s = .next (fillBlock s) :=
  if_pos h

theorem finishFill_of_done (h : s.ndb.fillIdx = s.ndb.fillNb) : finishFill s = complete s :=
  if_pos h

theorem finishFill_of_left (h : s.ndb.fillIdx ≠ s.ndb.fillNb) : finishFill s = s :=
  if_neg h

theorem fillStart_of_checkFill_some {c : FaultCode} {info : DWord}
    (h : checkFill s = some (c, info)) : fillStart s = raise s c info := by
  rw [fillStart, h]

theorem fillStart_of_checkFill_none (h : checkFill s = none) :
    fillStart s = finishFill (setFill s (s.ndb.count / 16) 0) := by
  rw [fillStart, h]
  rfl

theorem address_eq_zero_iff (s : State) : address s = 0 ↔ s.ndb.addr = 0 :=
  BitVec.toNat_inj (y := 0)

/-- R161, on the fields themselves. -/
theorem checkFill_eq (s : State) : checkFill s =
    if s.ndb.addr = 0 then some (.nullBuffer, s.ndb.addr)
    else if s.ndb.addr.toNat % 32 ≠ 0 then some (.misaligned, s.ndb.addr)
    else if s.ndb.count.toNat % 16 ≠ 0 then some (.badCount, s.ndb.count)
    else if s.ndb.addr.toNat + 4 * s.ndb.count.toNat > 2 ^ 64 then some (.range, s.ndb.addr)
    else none := by
  simp only [checkFill, address_eq_zero_iff, Config.this_align, Config.this_block]
  rfl

theorem checkFill_eq_none (hnull : s.ndb.addr ≠ 0) (halign : s.ndb.addr.toNat % 32 = 0)
    (hcount : s.ndb.count.toNat % 16 = 0)
    (hrange : s.ndb.addr.toNat + 4 * s.ndb.count.toNat ≤ 2 ^ 64) : checkFill s = none :=
  (checkFill_none_iff s).2 ⟨mt (address_eq_zero_iff s).1 hnull, halign, hcount, hrange⟩

/-! ### The frame of every step -/

theorem finishFill_unwrittenRead (s : State) : (finishFill s).unwrittenRead = s.unwrittenRead := by
  obtain ⟨f, e⟩ := finishFill_eq_setStatus s
  rw [e, setStatus_unwrittenRead]

theorem finishFill_flags (s : State) :
    (finishFill s).ndb.status.ovr = s.ndb.status.ovr ∧
      (finishFill s).ndb.status.err = s.ndb.status.err ∧
      (finishFill s).ndb.faultInfo = s.ndb.faultInfo := by
  rcases finishFill_cases s with ⟨-, e⟩ | ⟨-, e⟩ <;> rw [e] <;> exact ⟨rfl, rfl, rfl⟩

theorem storeBlock_unwrittenRead (s : State) :
    (storeBlock s).unwrittenRead = s.unwrittenRead := by
  simp only [storeBlock, setFill_unwrittenRead, setGen_unwrittenRead, setMem_unwrittenRead]

theorem Effect.fill_unwrittenRead (h : Effect s .fill t) : t.unwrittenRead = s.unwrittenRead := by
  cases h with
  | fillStart => rw [finishFill_unwrittenRead, setFill_unwrittenRead]
  | fillBlock => rw [finishFill_unwrittenRead, storeBlock_unwrittenRead]
  | fillFault | fillRefused => rfl

/-- R166: the first step stores nothing and draws nothing. -/
theorem Effect.fill_first_step (h : Effect s .fill t) (hout : ¬s.ndb.fillIdx < s.ndb.fillNb) :
    t.mem = s.mem ∧ t.ndb.gen = s.ndb.gen := by
  cases h with
  | fillFault => exact ⟨rfl, rfl⟩
  | fillStart => exact ⟨finishFill_mem (setFill s _ _), finishFill_gen (setFill s _ _)⟩
  | fillRefused hin | fillBlock hin => exact absurd hin hout

/-- R165: a block step writes its own 64 bytes at most. -/
theorem Effect.fill_block_memory (h : Effect s .fill t) (hm : Memory.wf s.mem = true)
    (hin : s.ndb.fillIdx < s.ndb.fillNb) : SameMemoryOutside s t (blockAddr s) 64 := by
  cases h with
  | fillFault hout | fillStart hout => exact absurd hin hout
  | fillRefused => exact fun _ _ => rfl
  | fillBlock _ _ hsecond =>
    obtain ⟨hend, -, -⟩ := (admits_iff s _).1 hsecond
    intro a ha
    rw [finishFill_mem, storeBlock_read_outside hm hend ha]

/-- R168: OVR stays, and FAULTINFO changes with a fault only. -/
theorem Effect.fill_flags (h : Effect s .fill t) :
    t.ndb.status.ovr = s.ndb.status.ovr ∧
      (t.ndb.status.err = false → t.ndb.faultInfo = s.ndb.faultInfo) := by
  cases h with
  | fillFault | fillRefused => exact ⟨rfl, nofun⟩
  | fillStart =>
    obtain ⟨hovr, -, hinfo⟩ := finishFill_flags (setFill s (s.ndb.count / 16) 0)
    exact ⟨hovr, fun _ => hinfo⟩
  | fillBlock =>
    obtain ⟨hovr, -, hinfo⟩ := finishFill_flags (storeBlock s)
    exact ⟨hovr, fun _ => hinfo⟩

end

/-- Settles O33: the checks are those of `checkFill`, and FILL's end raises nothing. -/
theorem fillChecksInOrder : Obligations.FillChecksInOrder := by
  unfold Obligations.FillChecksInOrder
  intro s hout
  have hexec := exec_fill_of_outside hout
  refine ⟨_, hexec, (effect_of_exec hexec).fill_unwrittenRead, ?_⟩
  have hcheck := checkFill_eq s
  split_ifs at hcheck ⊢
  case neg =>
    rw [fillStart_of_checkFill_none hcheck]
    obtain ⟨-, herr, -⟩ := finishFill_flags (setFill s (s.ndb.count / 16) 0)
    exact herr
  all_goals
    rw [fillStart_of_checkFill_some hcheck]
    exact raised_raise s _ _

/-- Settles O34: with no block to write, FILL's first step is its end. -/
theorem fillOfNothingCompletes : Obligations.FillOfNothingCompletes := by
  unfold Obligations.FillOfNothingCompletes
  intro s hout hcount
  have hexec := exec_fill_of_outside hout
  refine ⟨fun hnull halign => ?_, fun hnull => ⟨_, hexec, ?_⟩,
    fun hnull halign => ⟨_, hexec, ?_⟩⟩
  · have hcheck : checkFill s = none := checkFill_eq_none hnull halign (by rw [hcount]; rfl)
      (by rw [hcount]; exact s.ndb.addr.isLt.le)
    rw [fillStart_of_checkFill_none hcheck, hcount, show (0 : DWord) / 16 = 0 from rfl,
      finishFill_of_done rfl] at hexec
    have e := effect_of_exec hexec
    exact ⟨_, hexec, ⟨rfl, rfl⟩, rfl, fun _ => rfl, fun _ _ => ⟨rfl, rfl⟩, e.sameRegisters,
      e.sameOutside, rfl, rfl, rfl⟩
  · rw [fillStart_of_checkFill_some ((checkFill_eq s).trans (if_pos hnull)), hnull]
    exact raised_raise s .nullBuffer 0
  · rw [fillStart_of_checkFill_some
      ((checkFill_eq s).trans ((if_neg hnull).trans (if_pos halign)))]
    exact raised_raise s .misaligned s.ndb.addr

theorem count_div_block_toNat (s : State) :
    (s.ndb.count / 16).toNat = s.ndb.count.toNat / 16 :=
  BitVec.toNat_udiv

/-- Settles O35: a COUNT of at least one block leaves FILL_IDX below FILL_NB. -/
theorem fillStartCountsBlocks : Obligations.FillStartCountsBlocks := by
  unfold Obligations.FillStartCountsBlocks
  intro s hout hnull halign hmod hrange hcount
  have hexec := exec_fill_of_outside hout
  have hnb := count_div_block_toNat s
  have hpos : s.ndb.count.toNat ≠ 0 := mt (BitVec.toNat_inj (y := 0)).1 hcount
  have hleft : (0 : DWord) ≠ s.ndb.count / 16 := by
    intro h
    have hzero : s.ndb.count.toNat / 16 = 0 := hnb.symm.trans (congrArg BitVec.toNat h.symm)
    omega
  rw [fillStart_of_checkFill_none (checkFill_eq_none hnull halign hmod hrange),
    finishFill_of_left hleft] at hexec
  have e := effect_of_exec hexec
  refine ⟨_, hexec, ?_, ?_, rfl, rfl, rfl, rfl, fun _ => rfl, fun _ _ => ⟨rfl, rfl⟩,
    e.sameRegisters, e.sameOutside, rfl⟩ <;> rw [setFill_ndb, hnb] <;> omega

/-- Settles O37, effect by effect. -/
theorem fillTouchesNothingElse : Obligations.FillTouchesNothingElse := by
  unfold Obligations.FillTouchesNothingElse
  intro s t hm h
  have e := effect_of_exec h
  obtain ⟨hv, hwr⟩ := e.v_wr_eq (by simp)
  obtain ⟨hovr, hinfo⟩ := e.fill_flags
  exact ⟨hv, hwr, e.sameRegisters, e.sameOutside, e.fill_unwrittenRead, e.fill_first_step,
    e.fill_block_memory hm, hovr, fun _ => hinfo⟩

end Sys2Proof.Machine
end

section
/-! A block of FILL (spec/43_batch_driver.md R164, R165): its values, its places in memory, and the
commands that compute the same. -/

namespace Sys2Proof.Machine

/-! ### The values of a block -/

/-- R164, R165: the lane results of block `b` of a FILL that begins with lane states `g`. -/
def fillLane (g : Lanes Word) (b : Nat) (i : Lane) : F32 × F32 :=
  combineLane Config.this (toUniform ((lcgStep Config.this)^[2 * b + 1] g[i]))
    (toUniform ((lcgStep Config.this)^[2 * b + 2] g[i]))

/-- A block draws twice. -/
theorem fillLane_of_iterate {g g' : Lanes Word} {b : Nat} {i : Lane}
    (h : g'[i] = (lcgStep Config.this)^[2 * b] g[i]) : fillLane g' 0 i = fillLane g b i := by
  rw [fillLane, fillLane, h, ← Function.iterate_add_apply, ← Function.iterate_add_apply,
    Nat.mul_zero, Nat.add_comm _ (2 * b), Nat.add_comm _ (2 * b), Nat.zero_add, Nat.zero_add]

theorem secondDraw_getElem (s : State) (i : Lane) :
    (secondDraw s)[i] = (lcgStep Config.this)^[2] s.ndb.gen[i] := by
  rw [secondDraw, firstDraw, stepLanes_getElem, stepLanes_getElem]
  rfl

theorem blockZ_getElem (s : State) (i : Lane) :
    (blockZ0 s)[i] = (fillLane s.ndb.gen 0 i).1 ∧ (blockZ1 s)[i] = (fillLane s.ndb.gen 0 i).2 := by
  rw [blockZ0, blockZ1, combineZ0, combineZ1, Lanes.of_getElem, Lanes.of_getElem,
    uniforms_getElem, uniforms_getElem, secondDraw_getElem, firstDraw, stepLanes_getElem]
  exact ⟨rfl, rfl⟩

/-! ### The places of a block -/

theorem Memory.readWord_congr {m m' : Memory} {a : Nat}
    (h : ∀ k < 4, Memory.read m (a + k) = Memory.read m' (a + k)) :
    Memory.readWord m a = Memory.readWord m' a := by
  have h0 : Memory.read m a = Memory.read m' a := h 0 (by decide)
  rw [Memory.readWord, Memory.readWord, h 3 (by decide), h 2 (by decide), h 1 (by decide), h0]

theorem SameMemoryOutside.readWord {s t : State} {a n x : Nat} (h : SameMemoryOutside s t a n)
    (hx : x + 4 ≤ a ∨ a + n ≤ x) : Memory.readWord t.mem x = Memory.readWord s.mem x :=
  Memory.readWord_congr fun k hk => h (x + k) (by omega)

section
variable {s : State} (hm : Memory.wf s.mem = true) (hend : blockAddr s + 64 ≤ 2 ^ 64)
include hm hend

theorem storeBlock_mem_wf : Memory.wf (storeBlock s).mem = true := by
  rw [storeBlock_mem]
  exact Memory.wf_writeBatch _ (Memory.wf_writeBatch _ hm (by omega)) (by omega)

/-- The second half leaves the first as it was written. -/
theorem storeBlock_readWord (i : Lane) :
    Memory.readWord (storeBlock s).mem (blockAddr s + 4 * i.val) = (fillLane s.ndb.gen 0 i).1 ∧
      Memory.readWord (storeBlock s).mem (blockAddr s + 32 + 4 * i.val) =
        (fillLane s.ndb.gen 0 i).2 := by
  have hw0 := Memory.wf_writeBatch (blockZ0 s) hm (a := blockAddr s) (by omega)
  have hi := i.isLt
  obtain ⟨hz0, hz1⟩ := blockZ_getElem s i
  rw [storeBlock_mem, ← hz0, ← hz1]
  constructor
  · rw [← Memory.readWord_writeBatch (blockZ0 s) hm (a := blockAddr s) (by omega)]
    exact Memory.readWord_congr fun k hk =>
      Memory.read_writeBatch_outside _ hw0 (by omega) (by omega)
  · exact Memory.readWord_writeBatch _ hw0 (by omega) i

end

/-! ### A block step -/

section
variable {s : State}

theorem fillBlock_of_admitted (hfirst : s.admits (blockAddr s) = true)
    (hsecond : s.admits (blockAddr s + 32) = true) :
    fillBlock s = finishFill (storeBlock s) := by
  simp [fillBlock, hfirst, hsecond]

theorem fillBlock_of_first_refused (hfirst : s.admits (blockAddr s) = false) :
    fillBlock s = raise s .memAccess (BitVec.ofNat 64 (blockAddr s)) :=
  if_pos hfirst

theorem fillBlock_of_second_refused (hfirst : s.admits (blockAddr s) = true)
    (hsecond : s.admits (blockAddr s + 32) = false) :
    fillBlock s = raise s .memAccess (BitVec.ofNat 64 (blockAddr s + 32)) := by
  simp [fillBlock, hfirst, hsecond]

end

/-- R165: DRAW, DRAW and COMBINE leave the two batches that a block stores, and the same `S`. -/
theorem runCommands_draw_draw_combine (s : State) {va vb vc vd : VReg} (hab : va ≠ vb)
    (hcd : vc ≠ vd) :
    ∃ t, runCommands [.draw va, .draw vb, .combine vc vd va vb] s = .next t ∧
      t.ndb.gen = secondDraw s ∧ t.ndb.v[vc] = blockZ0 s ∧ t.ndb.v[vd] = blockZ1 s := by
  obtain ⟨u1, hu1, hgen1, hv1, hwr1, -⟩ := exec_draw va s
  obtain ⟨u2, hu2, hgen2, hv2, hwr2, -, hbatches, -⟩ := exec_draw vb u1
  obtain ⟨hva, hwra⟩ := hbatches va (by simpa using hab)
  have hwritten : ∀ n ∈ [va, vb], u2.ndb.wr[n] = true := by
    simpa using ⟨hwra.trans hwr1, hwr2⟩
  have hu3 := exec_combine (.inr hwritten) vc vd
  have hu : readV u2 va = uniforms (firstDraw s) := by
    rw [readV_written (hwritten va (by simp)), hva, hv1, hgen1, firstDraw]
  have hgen : u2.ndb.gen = secondDraw s := by rw [hgen2, hgen1, secondDraw, firstDraw]
  have hu' : readV u2 vb = uniforms (secondDraw s) := by
    rw [readV_written (hwritten vb (by simp)), hv2, hgen]
  refine ⟨_, (runCommands_cons hu1 _).trans ((runCommands_cons hu2 _).trans
    (runCommands_cons hu3 [])), hgen, ?_, ?_⟩
  · rw [complete_writeV_writeV_v _ hcd, hu, hu', blockZ0]
  · rw [complete_writeV_v, hu, hu', blockZ1]

/-- Settles O36: each case of the step, and the commands, in the lane results of `fillLane`. -/
theorem fillBlockStoresTwoBatches : Obligations.FillBlockStoresTwoBatches := by
  unfold Obligations.FillBlockStoresTwoBatches
  intro s S1 S2 hS1 hS2
  obtain rfl : S1 = fun i => lcgStep Config.this s.ndb.gen[i] := funext hS1
  obtain rfl : S2 = fun i => lcgStep Config.this (lcgStep Config.this s.ndb.gen[i]) := funext hS2
  refine ⟨?_, fun va vb vc vd hab hcd => ?_⟩
  · rintro _ hin hm rfl
    have hexec := exec_fill_of_inside hin
    refine ⟨fun hfirst hsecond => ?_, fun hfirst => ⟨_, hexec, ?_⟩,
      fun hfirst hsecond => ⟨_, hexec, ?_⟩⟩
    · have e := effect_of_exec hexec
      obtain ⟨hv, hwr⟩ := e.v_wr_eq (by simp)
      obtain ⟨hend, -, -⟩ := (admits_iff s _).1 hsecond
      have hmem := e.fill_block_memory hm hin
      refine ⟨_, hexec, fun i => ?_, hmem, fun n _ => ?_, e.sameRegisters, e.sameOutside,
        e.fill_unwrittenRead, ?_⟩
      · rw [fillBlock_of_admitted hfirst hsecond, finishFill_gen, finishFill_mem]
        exact ⟨secondDraw_getElem s i, storeBlock_readWord hm hend i⟩
      · rw [hv, hwr]
        exact ⟨rfl, rfl⟩
      · rw [fillBlock_of_admitted hfirst hsecond]
        rcases finishFill_cases (storeBlock s) with ⟨hlast, hfinish⟩ | ⟨hlast, hfinish⟩ <;>
            rw [hfinish]
        · exact ⟨rfl, rfl, (if_pos hlast).mpr ⟨rfl, rfl⟩⟩
        · exact ⟨rfl, rfl, (if_neg hlast).mpr ⟨rfl, rfl⟩⟩
    · rw [fillBlock_of_first_refused hfirst]
      exact raised_raise s .memAccess _
    · rw [fillBlock_of_second_refused hfirst hsecond]
      exact raised_raise s .memAccess _
  · obtain ⟨t, ht, hgen, hz0, hz1⟩ := runCommands_draw_draw_combine s hab hcd
    refine ⟨t, ht, fun i => ?_⟩
    rw [hgen, hz0, hz1]
    exact ⟨secondDraw_getElem s i, blockZ_getElem s i⟩

end Sys2Proof.Machine
end

section
/-! The run of a FILL (spec/43_batch_driver.md R166, R167, R169, R170): one step for the checks, one
for each block, and a fault at the first refused access. -/

namespace Sys2Proof

/-- `run` takes its last step as it takes its first. -/
theorem run_add_one {M : Host.Core} {k : Nat} {s t : M.State} (h : M.run k s = .next t) :
    M.run (k + 1) s = M.step t := by
  induction k generalizing s with
  | zero =>
    obtain rfl := Host.Outcome.next.inj h
    rw [Host.Core.run]
    cases M.step s <;> rfl
  | succ k ih =>
    rw [Host.Core.run] at h ⊢
    cases hs : M.step s with
    | next u =>
      rw [hs] at h
      exact ih h
    | fault r => rw [hs] at h; cases h
    | refused r => rw [hs] at h; cases h

namespace Machine

/-! ### The states of a run -/

/-- FILL stands before its first step, with operands that pass its checks. -/
structure FillReady (s : State) : Prop where
  script : s.script = []
  busy : s.ndb.status.busy = true
  cur : s.ndb.cur = 2
  idx_eq : s.ndb.fillIdx = s.ndb.fillNb
  mem_wf : Memory.wf s.mem = true
  checked : checkFill s = none

/-- Both accesses of block `b` of a FILL that begins in `s` are admitted (R164, R165). -/
def BlockAdmitted (s : State) (b : Nat) : Prop :=
  s.admits (s.ndb.addr.toNat + 64 * b) = true ∧ s.admits (s.ndb.addr.toNat + 64 * b + 32) = true

/-- The state in which a FILL that began in `s` has stored `b` blocks, before it notes that it is
done: what it changed, and everything that it did not. -/
structure FillProgress (s : State) (b : Nat) (t : State) : Prop where
  gen : ∀ i : Lane, t.ndb.gen[i] = (lcgStep Config.this)^[2 * b] s.ndb.gen[i]
  stored : ∀ b' < b, ∀ i : Lane,
    Memory.readWord t.mem (s.ndb.addr.toNat + 64 * b' + 4 * i.val) =
        (fillLane s.ndb.gen b' i).1 ∧
      Memory.readWord t.mem (s.ndb.addr.toNat + 64 * b' + 32 + 4 * i.val) =
        (fillLane s.ndb.gen b' i).2
  outside : SameMemoryOutside s t s.ndb.addr.toNat (64 * b)
  mem_wf : Memory.wf t.mem = true
  fillNb : t.ndb.fillNb.toNat = s.ndb.count.toNat / 16
  fillIdx : t.ndb.fillIdx.toNat = b
  status : t.ndb.status = s.ndb.status
  faultInfo : t.ndb.faultInfo = s.ndb.faultInfo
  v : t.ndb.v = s.ndb.v
  wr : t.ndb.wr = s.ndb.wr
  registers : SameRegisters s t
  platform : SameOutside s t
  unwrittenRead : t.unwrittenRead = s.unwrittenRead

section
variable {s t : State} {b : Nat}

theorem FillProgress.start (hm : Memory.wf s.mem = true) :
    FillProgress s 0 (setFill s (s.ndb.count / 16) 0) where
  gen _ := rfl
  stored _ h := absurd h (Nat.not_lt_zero _)
  outside _ _ := rfl
  mem_wf := hm
  fillNb := count_div_block_toNat s
  fillIdx := rfl
  status := rfl
  faultInfo := rfl
  v := rfl
  wr := rfl
  registers := ⟨rfl, rfl, rfl, rfl⟩
  platform := ⟨rfl, rfl, rfl, rfl, rfl, rfl⟩
  unwrittenRead := rfl

theorem FillProgress.blockAddr_eq (h : FillProgress s b t) :
    blockAddr t = s.ndb.addr.toNat + 64 * b := by
  rw [blockAddr, address, h.registers.1, h.fillIdx]

theorem FillProgress.admits_eq (h : FillProgress s b t) (a : Nat) : t.admits a = s.admits a := by
  obtain ⟨hbase, hregions, -⟩ := h.platform
  exact admits_congr hbase hregions a

/-- What a block adds: its 64 bytes stand past those of the blocks before it. -/
theorem FillProgress.next_block (h : FillProgress s b t)
    (hend : s.ndb.addr.toNat + 64 * b + 64 ≤ 2 ^ 64) : FillProgress s (b + 1) (storeBlock t) := by
  have haddr := h.blockAddr_eq
  rw [← haddr] at hend
  have hnew : SameMemoryOutside t (storeBlock t) (blockAddr t) 64 :=
    fun _ ha => storeBlock_read_outside h.mem_wf hend ha
  exact {
    gen := fun i => by
      rw [storeBlock_ndb, secondDraw_getElem, h.gen, ← Function.iterate_add_apply]
      congr 1
      omega
    stored := fun b' hb' i => by
      have hi := i.isLt
      rcases Nat.lt_succ_iff_lt_or_eq.1 hb' with hlt | rfl
      · rw [hnew.readWord (by omega), hnew.readWord (by omega)]
        exact h.stored b' hlt i
      · rw [← haddr, ← fillLane_of_iterate (h.gen i)]
        exact storeBlock_readWord h.mem_wf hend i
    outside := fun a ha => (hnew a (by omega)).trans (h.outside a (by omega))
    mem_wf := storeBlock_mem_wf h.mem_wf hend
    fillNb := h.fillNb
    fillIdx := by
      have hidx := h.fillIdx
      rw [storeBlock_ndb]
      bv_omega
    status := h.status
    faultInfo := h.faultInfo
    v := h.v
    wr := h.wr
    registers := by simpa only [SameRegisters, storeBlock_ndb] using h.registers
    platform := by simpa [SameOutside, storeBlock] using h.platform
    unwrittenRead := (storeBlock_unwrittenRead t).trans h.unwrittenRead }

/-- Any element of the blocks stored is a lane result of some block. -/
theorem FillProgress.element (h : FillProgress s b t) {e : Nat} (he : e < 16 * b) :
    ∃ (b' : Nat) (i : Lane),
      Memory.readWord t.mem (s.ndb.addr.toNat + 4 * e) = (fillLane s.ndb.gen b' i).1 ∨
        Memory.readWord t.mem (s.ndb.addr.toNat + 4 * e) = (fillLane s.ndb.gen b' i).2 := by
  have hb : e / 16 < b := by omega
  rcases Nat.lt_or_ge (e % 16) 8 with hlt | hge
  · obtain ⟨hz0, -⟩ := h.stored (e / 16) hb ⟨e % 16, hlt⟩
    refine ⟨_, _, .inl (Eq.trans (congrArg _ ?_) hz0)⟩
    simp only
    omega
  · obtain ⟨-, hz1⟩ := h.stored (e / 16) hb ⟨e % 16 - 8, by omega⟩
    refine ⟨_, _, .inr (Eq.trans (congrArg _ ?_) hz1)⟩
    simp only
    omega

/-! ### The steps of a run -/

theorem FillReady.step_start (h : FillReady s) :
    step s = .next (finishFill (setFill s (s.ndb.count / 16) 0)) := by
  have hout : ¬s.ndb.fillIdx < s.ndb.fillNb := by
    rw [h.idx_eq]
    exact BitVec.lt_irrefl _
  rw [step_of_command h.script h.busy (decode_eq_fill_iff.2 h.cur), exec_fill_of_outside hout,
    fillStart_of_checkFill_none h.checked]

theorem FillReady.operands (h : FillReady s) : s.ndb.count.toNat % 16 = 0 ∧
    s.ndb.addr.toNat + 4 * s.ndb.count.toNat ≤ 2 ^ 64 := by
  obtain ⟨-, -, hcount, hrange⟩ := (checkFill_none_iff s).1 h.checked
  exact ⟨hcount, hrange⟩

/-- While blocks are left, FILL is not done, and its next step is a block. -/
theorem FillProgress.step_block (h : FillProgress s b t) (hs : FillReady s)
    (hb : b < s.ndb.count.toNat / 16) :
    finishFill t = t ∧ step t = .next (fillBlock t) := by
  have hin : t.ndb.fillIdx < t.ndb.fillNb := by
    rw [BitVec.lt_def, h.fillIdx, h.fillNb]
    exact hb
  obtain ⟨-, -, -, hcur⟩ := h.registers
  obtain ⟨-, -, hscript, -⟩ := h.platform
  refine ⟨finishFill_of_left (BitVec.ne_of_lt hin), ?_⟩
  rw [step_of_command (hscript.trans hs.script) (by rw [h.status, hs.busy])
    (decode_eq_fill_iff.2 (hcur.trans hs.cur)), exec_fill_of_inside hin]

theorem FillProgress.fillBlock_admitted (h : FillProgress s b t) (ha : BlockAdmitted s b) :
    fillBlock t = finishFill (storeBlock t) := by
  obtain ⟨hfirst, hsecond⟩ := ha
  rw [← h.blockAddr_eq, ← h.admits_eq] at hfirst hsecond
  exact fillBlock_of_admitted hfirst hsecond

/-- The fault names the first access of the block that is refused. -/
theorem FillProgress.fillBlock_refused (h : FillProgress s b t) (ha : ¬BlockAdmitted s b) :
    fillBlock t = raise t .memAccess (BitVec.ofNat 64
      (if s.admits (s.ndb.addr.toNat + 64 * b) = false then s.ndb.addr.toNat + 64 * b
        else s.ndb.addr.toNat + 64 * b + 32)) := by
  rw [BlockAdmitted, ← h.blockAddr_eq, ← h.admits_eq, ← h.admits_eq] at ha
  rw [← h.blockAddr_eq, ← h.admits_eq]
  cases hfirst : t.admits (blockAddr t) with
  | false => exact fillBlock_of_first_refused hfirst
  | true =>
    have hsecond : t.admits (blockAddr t + 32) = false := by simpa [hfirst] using ha
    exact fillBlock_of_second_refused hfirst hsecond

/-- R166: after the checks and `b` blocks. -/
theorem FillReady.run_blocks (hs : FillReady s) (b : Nat) (hb : b ≤ s.ndb.count.toNat / 16)
    (ha : ∀ b' < b, BlockAdmitted s b') :
    ∃ t, FillProgress s b t ∧ Host.Core.run Sys2Proof.core (1 + b) s = .next (finishFill t) := by
  induction b with
  | zero => exact ⟨_, .start hs.mem_wf, (run_add_one rfl).trans hs.step_start⟩
  | succ b ih =>
    obtain ⟨t, ht, hrun⟩ := ih (by omega) fun b' hb' => ha b' (by omega)
    obtain ⟨hleft, hstep⟩ := ht.step_block hs (by omega)
    obtain ⟨hcount, hrange⟩ := hs.operands
    refine ⟨_, ht.next_block (by omega), ?_⟩
    rw [hleft] at hrun
    rw [← ht.fillBlock_admitted (ha b (by omega))]
    exact (run_add_one hrun).trans hstep

end

/-! ### Completion and fault -/

/-- R146, for the lanes of a block. -/
theorem fillLane_bounded {g : Lanes Word} {b : Nat} {i : Lane} {z : F32}
    (hz : z = (fillLane g b i).1 ∨ z = (fillLane g b i).2) :
    F32.isFinite z = true ∧ |F32.value z| ≤ 5.646668 := by
  have hbounds := combinerOutputsAreFinite
  unfold Obligations.CombinerOutputsAreFinite at hbounds
  obtain ⟨hfin, hle, -⟩ := hbounds _ Config.this_wellFormed Config.this_twoPi _ _ z hz
  exact ⟨hfin, hle⟩

/-- Settles O38: all blocks are stored, and FILL is done. -/
theorem fillRunsToCompletion : Obligations.FillRunsToCompletion := by
  unfold Obligations.FillRunsToCompletion
  intro s hscript hbusy hcur hidx hm hnull halign hmod hrange hadmitted
  have hs : FillReady s :=
    ⟨hscript, hbusy, hcur, hidx, hm, checkFill_eq_none hnull halign hmod hrange⟩
  obtain ⟨t, ht, hrun⟩ := hs.run_blocks _ le_rfl hadmitted
  have hdone : t.ndb.fillIdx = t.ndb.fillNb :=
    BitVec.eq_of_toNat_eq (ht.fillIdx.trans ht.fillNb.symm)
  have hlen : 16 * (s.ndb.count.toNat / 16) = s.ndb.count.toNat := by omega
  have hbytes : 64 * (s.ndb.count.toNat / 16) = 4 * s.ndb.count.toNat := by omega
  rw [finishFill_of_done hdone] at hrun
  refine ⟨_, hrun, ⟨?_, ht.faultInfo⟩, ht.gen, ?_, ?_, hbytes ▸ ht.outside, ht.v, ht.wr,
    ht.registers, ht.platform, ht.unwrittenRead⟩
  · rw [complete_ndb, ht.status]
    rfl
  · rintro b hb i _ rfl
    exact ht.stored b hb i
  · rintro e he _ rfl
    obtain ⟨b, i, hz⟩ := ht.element (hlen.symm ▸ he)
    exact fillLane_bounded hz

/-- Settles O39: the blocks before the refused one are stored, and the next step raises. -/
theorem fillFaultsAtTheRefusedBlock : Obligations.FillFaultsAtTheRefusedBlock := by
  unfold Obligations.FillFaultsAtTheRefusedBlock
  intro s b hscript hbusy hcur hidx hm hnull halign hmod hrange hb hadmitted hrefused
  have hs : FillReady s :=
    ⟨hscript, hbusy, hcur, hidx, hm, checkFill_eq_none hnull halign hmod hrange⟩
  obtain ⟨t, ht, hrun⟩ := hs.run_blocks b hb.le hadmitted
  obtain ⟨hleft, hstep⟩ := ht.step_block hs hb
  rw [hleft] at hrun
  rw [ht.fillBlock_refused hrefused] at hstep
  have hrun' := (run_add_one hrun).trans hstep
  rw [show 1 + b + 1 = 2 + b by omega] at hrun'
  refine ⟨_, hrun', ?_, ?_, ht.gen, ?_, ht.outside, ht.v, ht.wr, ht.registers, ht.platform⟩
  · rw [raise_ndb, ht.status]
    rfl
  · rw [raise_ndb, BitVec.toNat_ofNat, Nat.mod_eq_of_lt (by split <;> omega)]
  · rintro b' hb' i _ rfl
    exact ht.stored b' hb' i

end Machine
end Sys2Proof
end

section
/-! NOP (spec/44_transfer_and_control.md R180). -/

namespace Sys2Proof

theorem opcode_of_decode {w : Word} {i : Instr} {o : Opcode} (hd : decode w = .instr i)
    (hop : opOf w = o.value) : i.opcode = o := by
  obtain ⟨hvalue, -⟩ := fields_encode i
  obtain ⟨-, hword⟩ := encodeOfDecode w i hd
  rw [hword, hop] at hvalue
  exact Opcode.value_injective hvalue.symm

theorem decode_eq_nop_iff (w : Word) : decode w = .instr .nop ↔ w = 0 := by
  rw [decode_eq_instr_iff_encode_eq rfl, eq_comm]
  rfl

/-- Of the words with OP 0, all but 0 itself are illegal. -/
theorem exists_illegal_of_nop_op {w : Word} (hop : opOf w = Opcode.nop.value) (hne : w ≠ 0) :
    ∃ why, decode w = .illegal why := by
  cases hd : decode w with
  | illegal why => exact ⟨why, rfl⟩
  | instr i =>
    have ho := opcode_of_decode hd hop
    have hi : i = .nop := by
      cases i with
      | nop => rfl
      | _ => cases ho
    exact absurd ((decode_eq_nop_iff w).1 (hd.trans (congrArg Decoded.instr hi))) hne

namespace Machine

/-- A Host that is ready for a command writes 0 to CMD, and the Core takes its step. -/
theorem run_nop {s : State} (hs : s.script = [.host (.writeReg .cmd 0)])
    (hb : s.ndb.status.busy = false) (he : s.ndb.status.err = false) :
    Host.Core.run Sys2Proof.core 2 s =
      .next (complete { acceptCommand s 0 with script := [] }) := by
  have hwrite : Host.Core.run Sys2Proof.core 1 s =
      .next { acceptCommand s 0 with script := [] } :=
    (run_add_one rfl).trans (step_of_writeReg hs (windowWrite_cmd_of_ready hb he 0))
  have hnop : step { acceptCommand s 0 with script := [] } =
      exec .nop { acceptCommand s 0 with script := [] } :=
    step_of_command rfl rfl ((decode_eq_nop_iff 0).2 rfl)
  exact (run_add_one hwrite).trans hnop

/-- Settles O40: NOP is `complete`, and 0 is the only word that decodes to it. -/
theorem nopOnlyCompletes : Obligations.NopOnlyCompletes := by
  unfold Obligations.NopOnlyCompletes
  refine ⟨fun _ => rfl, fun w hop => ?_, fun s he => windowWrite_cmd_of_err he 0,
    _, run_nop rfl rfl rfl, by decide⟩
  split
  case isTrue hw => exact (decode_eq_nop_iff w).2 hw
  case isFalse hw => exact exists_illegal_of_nop_op ((opOf_eq w).trans hop) hw

end Machine
end Sys2Proof
end

section
/-! VLD and VST (spec/44_transfer_and_control.md R181 to R183). -/

namespace Sys2Proof

theorem decode_eq_vld_iff (w : Word) (rd : VReg) :
    decode w = .instr (.vld rd) ↔ w.toNat = 0x20 + rd.val * 2 ^ 8 := by
  have henc : (encode (.vld rd)).toNat = 0x20 + rd.val * 2 ^ 8 := by
    simp only [encode, wordOf, Opcode.value, BitVec.toNat_ofNat]
    omega
  rw [decode_eq_instr_iff_encode_eq rfl, ← henc, eq_comm, BitVec.toNat_inj]

namespace Machine

/-! ### The checks -/

/-- R181: ALIGN divides the size of the address space. -/
theorem add_32_le_of_aligned {a : DWord} (h : a.toNat % 32 = 0) : a.toNat + 32 ≤ 2 ^ 64 := by
  have := a.isLt
  omega

/-- R181, R200: the code that a failing check of VLD or VST raises. -/
def vecCode (s : State) : BitVec 4 :=
  if s.ndb.addr = 0 then 2 else if s.ndb.addr.toNat % 32 ≠ 0 then 3
  else if s.ndb.addr.toNat + 32 > 2 ^ 64 then 5 else 6

theorem vecCode_mem (s : State) : vecCode s ∈ [(2 : BitVec 4), 3, 5, 6] := by
  unfold vecCode
  split_ifs <;> decide

/-- An access that is refused at an address without another fault. -/
theorem vecCode_of_aligned {s : State} (hnull : s.ndb.addr ≠ 0)
    (halign : s.ndb.addr.toNat % 32 = 0) : vecCode s = 6 := by
  have hend := add_32_le_of_aligned halign
  rw [vecCode, if_neg hnull, if_neg (not_not_intro halign), if_neg (by omega)]

/-- R181, on the fields themselves. -/
theorem checkVec_eq (s : State) : checkVec s =
    if s.ndb.addr = 0 then some (.nullBuffer, s.ndb.addr)
    else if s.ndb.addr.toNat % 32 ≠ 0 then some (.misaligned, s.ndb.addr)
    else if s.ndb.addr.toNat + 32 > 2 ^ 64 then some (.range, s.ndb.addr)
    else if s.admits s.ndb.addr.toNat = false then some (.memAccess, s.ndb.addr)
    else none := by
  simp only [checkVec, address_eq_zero_iff, Config.this_align]
  rfl

/-- A failing check raises `vecCode`, with ADDR as its information. -/
theorem checkVec_eq_some {s : State} {c : FaultCode} {info : DWord}
    (h : checkVec s = some (c, info)) : c.code = vecCode s ∧ info = s.ndb.addr := by
  rw [checkVec_eq] at h
  unfold vecCode
  split_ifs at h ⊢ <;> cases h <;> exact ⟨rfl, rfl⟩

theorem checkVec_eq_none {s : State} (hnull : s.ndb.addr ≠ 0) (halign : s.ndb.addr.toNat % 32 = 0)
    (hadmits : s.admits s.ndb.addr.toNat = true) : checkVec s = none :=
  (checkVec_none_iff s).2
    ⟨mt (address_eq_zero_iff s).1 hnull, halign, add_32_le_of_aligned halign, hadmits⟩

/-- R56: no access that touches the register window passes the checks. -/
theorem checkVec_ne_none_of_window {s : State}
    (hlt : s.ndb.addr.toNat < s.windowBase.toNat + 64)
    (hgt : s.windowBase.toNat < s.ndb.addr.toNat + 32) : checkVec s ≠ none := by
  intro h
  obtain ⟨-, -, -, hadmits⟩ := (checkVec_none_iff s).1 h
  obtain ⟨-, hwindow, -⟩ := (admits_iff s (address s)).1 hadmits
  rw [address] at hwindow
  omega

/-! ### What the two commands answer -/

theorem exec_vld_pass {s : State} (hc : checkVec s = none) (rd : VReg) :
    exec (.vld rd) s = .next (complete (writeV s rd (Memory.readBatch s.mem (address s)))) := by
  rw [exec, execVld, hc]

theorem exec_vld_fault {s : State} {c : FaultCode} {info : DWord}
    (hc : checkVec s = some (c, info)) (rd : VReg) :
    exec (.vld rd) s = .next (raise s c info) := by
  rw [exec, execVld, hc]

/-- R181: what a failing check makes of VLD and of VST. -/
theorem exec_vec_raises {s : State} (hc : checkVec s ≠ none) (r : VReg) :
    (∃ t, exec (.vld r) s = .next t ∧ Raised s t (vecCode s) s.ndb.addr ∧
      t.unwrittenRead = s.unwrittenRead) ∧
    (Readable s [r] → ∃ t, exec (.vst r) s = .next t ∧ Raised s t (vecCode s) s.ndb.addr ∧
      Recorded s t [r]) := by
  obtain ⟨⟨c, info⟩, hsome⟩ := Option.ne_none_iff_exists'.1 hc
  obtain ⟨hcode, rfl⟩ := checkVec_eq_some hsome
  rw [← hcode]
  exact ⟨⟨_, exec_vld_fault hsome r, raised_raise s c _, rfl⟩,
    fun hread => ⟨_, exec_vst_fault hread hsome, raised_raise (noteReads s [r]) c _,
      recorded_noteReads s [r]⟩⟩

/-- Settles O41: the faults are those of `checkVec`, and the window's overlap is one of them. -/
theorem vectorMemoryChecksInOrder : Obligations.VectorMemoryChecksInOrder := by
  unfold Obligations.VectorMemoryChecksInOrder
  refine ⟨fun s r hc => ⟨vecCode s, rfl, exec_vec_raises hc r⟩, fun s => ?_,
    fun a => add_32_le_of_aligned, fun s a => ?_, fun s r hnull halign hlt hgt => ?_⟩
  · rw [checkVec_none_iff, ne_eq, address_eq_zero_iff]
    rfl
  · rw [admits_iff, or_comm (a := a + 32 ≤ _)]
  · obtain ⟨⟨t, ht, hraised, -⟩, hvst⟩ :=
      exec_vec_raises (checkVec_ne_none_of_window hlt hgt) r
    rw [vecCode_of_aligned hnull halign] at hraised hvst
    refine ⟨⟨t, ht, hraised⟩, fun hread => ?_⟩
    obtain ⟨u, hu, huraised, -⟩ := hvst hread
    exact ⟨u, hu, huraised⟩

/-! ### The transfers -/

theorem noteReads_nil (s : State) : noteReads s [] = s :=
  noteReads_written fun _ h => absurd h List.not_mem_nil

/-- R182: a fault of VLD leaves the batch registers alone. -/
theorem Effect.vld_fault {s t : State} {rd : VReg} (h : Effect s (.vld rd) t)
    (hs : s.ndb.status.err = false) (ht : t.ndb.status.err = true) :
    t.ndb.v = s.ndb.v ∧ t.ndb.wr = s.ndb.wr ∧ t.ndb.status.code ∈ [(2 : BitVec 4), 3, 5, 6] := by
  cases h with
  | vldFault _ hc =>
    obtain ⟨hcode, -⟩ := checkVec_eq_some hc
    refine ⟨rfl, rfl, ?_⟩
    rw [raise_ndb, Status.faulted_code, hcode]
    exact vecCode_mem s
  | vld => exact absurd (hs.symm.trans ht) Bool.false_ne_true

/-- Settles O42: VLD is one write of its destination, with the elements of `Memory.readBatch`. -/
theorem vldLoadsABatch : Obligations.VldLoadsABatch := by
  unfold Obligations.VldLoadsABatch
  refine ⟨fun s rd hnull halign hadmits => ?_, decode_eq_vld_iff,
    fun s t rd h => (effect_of_exec h).vld_fault⟩
  have hexec := exec_vld_pass (checkVec_eq_none hnull halign hadmits) rd
  obtain ⟨hv, hwr, hframe⟩ := complete_writeV_results s [] rd
    fun i => Memory.readWord s.mem (address s + 4 * i.val)
  rw [noteReads_nil, ← Memory.readBatch] at hv hwr hframe
  refine ⟨_, hexec, ?_, hwr, hframe⟩
  rintro i _ rfl
  rw [hv, Memory.readWord_toNat]
  rfl

/-- Settles O43: VST is one write of memory, which leaves the other bytes as they were. -/
theorem vstStoresABatch : Obligations.VstStoresABatch := by
  unfold Obligations.VstStoresABatch
  intro s rs1 hm hnull halign hadmits hread
  have hend := add_32_le_of_aligned halign
  have hexec := exec_vst_pass hread (checkVec_eq_none hnull halign hadmits)
  have e := effect_of_exec hexec
  refine ⟨_, hexec, fun i => ?_, fun x hx => ?_, ⟨rfl, rfl⟩, fun _ _ => ⟨rfl, rfl⟩, rfl,
    e.sameRegisters, e.sameFill (by simp), e.sameOutside, recorded_noteReads s [rs1]⟩ <;>
    rw [complete_mem, setMem_mem, address]
  · exact Memory.readWord_writeBatch _ hm hend i
  · exact Memory.read_writeBatch_outside _ hm hend hx

end Machine
end Sys2Proof
end

section
/-! What raises a fault of the hardware, and what its entry leaves (spec/60_exceptions.md R200,
R201). -/

namespace Sys2Proof.Machine

section
variable {s t : State} {i : Instr}

/-- `Raises s i c info`: from `s`, a check of command `i` fails that raises `c` with `info` (R161,
R165, R181). -/
inductive Raises (s : State) : Instr → FaultCode → DWord → Prop where
  | fillCheck {c : FaultCode} {info : DWord} (check : checkFill s = some (c, info)) :
      Raises s .fill c info
  | fillBlock {a : Nat} (half : a = blockAddr s ∨ a = blockAddr s + 32)
      (refused : s.admits a = false) : Raises s .fill .memAccess (BitVec.ofNat 64 a)
  | vecCheck {i : Instr} {c : FaultCode} {info : DWord}
      (hi : (∃ r, i = .vld r) ∨ ∃ r, i = .vst r) (check : checkVec s = some (c, info)) :
      Raises s i c info

/-- A command that sets ERR took one of its faults, and did nothing else. -/
theorem Effect.raises (h : Effect s i t) (hs : s.ndb.status.err = false)
    (ht : t.ndb.status.err = true) : ∃ c info, Raises s i c info ∧ Raised s t c.code info := by
  have noFault (e : t.ndb.status.err = s.ndb.status.err) : False := by simp [ht, hs] at e
  cases h with
  | fillFault _ hc => exact ⟨_, _, .fillCheck hc, raised_raise s _ _⟩
  | fillRefused _ half hr =>
    exact ⟨_, _, .fillBlock (half.imp_right And.right) hr, raised_raise s _ _⟩
  | vldFault rd hc => exact ⟨_, _, .vecCheck (.inl ⟨rd, rfl⟩) hc, raised_raise s _ _⟩
  | vstFault rs1 hc =>
    exact ⟨_, _, .vecCheck (.inr ⟨rs1, rfl⟩) hc, raised_raise (noteReads s [rs1]) _ _⟩
  | fillStart =>
    obtain ⟨-, herr, -⟩ := finishFill_flags (setFill s (s.ndb.count / 16) 0)
    exact (noFault herr).elim
  | fillBlock =>
    obtain ⟨-, herr, -⟩ := finishFill_flags (storeBlock s)
    exact (noFault herr).elim
  | _ => exact (noFault rfl).elim

/-- Everything that can set ERR in a Core step: an illegal word, or a check of the command. -/
theorem step_raises (hs : s.script = []) (hb : s.ndb.status.busy = true)
    (he : s.ndb.status.err = false) (h : step s = .next t) (ht : t.ndb.status.err = true) :
    (∃ why, decode s.ndb.cur = .illegal why ∧ Raised s t 1 (s.ndb.cur.setWidth 64)) ∨
      ∃ i c info, decode s.ndb.cur = .instr i ∧ Raises s i c info ∧ Raised s t c.code info := by
  cases hd : decode s.ndb.cur with
  | illegal why =>
    obtain rfl := Host.Outcome.next.inj ((step_of_illegal hs hb hd).symm.trans h)
    exact .inl ⟨why, rfl, raised_raise s .illegalCommand _⟩
  | instr i =>
    obtain ⟨c, info, hr, hraised⟩ :=
      (effect_of_exec ((step_of_command hs hb hd).symm.trans h)).raises he ht
    exact .inr ⟨i, c, info, rfl, hr, hraised⟩

/-- Three commands can fault. -/
theorem Raises.memory_command {c : FaultCode} {info : DWord} (h : Raises s i c info) :
    i = .fill ∨ (∃ r, i = .vld r) ∨ ∃ r, i = .vst r := by
  cases h with
  | fillCheck | fillBlock => exact .inl rfl
  | vecCheck hi => exact .inr hi

end

/-- Settles O45: whatever sets ERR is a `raise`. -/
theorem faultEntry : Obligations.FaultEntry := by
  unfold Obligations.FaultEntry
  intro s t hs hb he h ht
  obtain ⟨why, -, hraised⟩ | ⟨i, c, info, -, -, hraised⟩ := step_raises hs hb he h ht
  · exact ⟨1, _, hraised, by decide, by decide⟩
  · exact ⟨c.code, info, hraised, c.code_range⟩

/-- Settles O46: the rows are the branches of `checkFill` and `checkVec`, and the two halves of a
block. -/
theorem faultCodesByCommand : Obligations.FaultCodesByCommand := by
  unfold Obligations.FaultCodesByCommand
  intro s t hs hb he h ht
  obtain ⟨why, hd, hndb, -⟩ | ⟨i, c, info, hd, hr, hndb, -⟩ := step_raises hs hb he h ht
  · exact .inl ⟨⟨why, hd⟩, by rw [hndb], by rw [hndb]⟩
  refine .inr ⟨i, hd, hr.memory_command, ?_⟩
  rw [hndb]
  cases hr with
  | fillCheck hc =>
    rw [checkFill_eq] at hc
    split_ifs at hc with hnull halign hcount hrange <;> cases hc
    · exact .inl ⟨rfl, hnull, hnull⟩
    · exact .inr (.inl ⟨rfl, halign, rfl⟩)
    · exact .inr (.inr (.inl ⟨rfl, rfl, hcount, rfl⟩))
    · exact .inr (.inr (.inr (.inl ⟨rfl, rfl, hrange, rfl⟩)))
  | @fillBlock a half hrefused =>
    exact .inr (.inr (.inr (.inr ⟨rfl, a, hrefused, rfl, half⟩)))
  | vecCheck hi hc =>
    have hne : i ≠ .fill := by rintro rfl; simp at hi
    rw [checkVec_eq] at hc
    split_ifs at hc with hnull halign hrange hadmits <;> cases hc
    · exact .inl ⟨rfl, hnull, hnull⟩
    · exact .inr (.inl ⟨rfl, halign, rfl⟩)
    · exact absurd (add_32_le_of_aligned (not_not.1 halign)) (not_le.2 hrange)
    · refine .inr (.inr (.inr (.inr ⟨rfl, s.ndb.addr.toNat, hadmits, ?_, ?_⟩)))
      · exact (BitVec.ofNat_toNat 64 s.ndb.addr).symm
      · rw [if_neg hne]

end Sys2Proof.Machine
end

section
/-! The idle core (spec/60_exceptions.md R215), and the core that a fault halted (R203). -/

namespace Sys2Proof.Machine

section
variable {s t : State}

theorem coreStep_of_idle (hb : s.ndb.status.busy = false) : coreStep s = .next s := by
  simp [coreStep, hb]

/-- What R203 keeps of a halted core: of STATUS only OVR may change, and it is not cleared. -/
structure StaysHalted (s t : State) : Prop where
  status : t.ndb.status = { s.ndb.status with ovr := t.ndb.status.ovr }
  ovr : s.ndb.status.ovr = true → t.ndb.status.ovr = true
  faultInfo : t.ndb.faultInfo = s.ndb.faultInfo
  gen : t.ndb.gen = s.ndb.gen
  v : t.ndb.v = s.ndb.v
  wr : t.ndb.wr = s.ndb.wr
  cur : t.ndb.cur = s.ndb.cur

theorem StaysHalted.of_ndb_eq (h : t.ndb = s.ndb) : StaysHalted s t := by
  constructor <;> simp [h]

/-- No write of the window clears a fault. -/
theorem staysHalted_windowWrite (he : s.ndb.status.err = true) (hb : s.ndb.status.busy = false)
    (w : DWord) (r : WinReg) : StaysHalted s (windowWrite s w r) := by
  cases r with
  | cmd => rw [windowWrite_cmd_of_err he]; exact ⟨rfl, fun _ => rfl, rfl, rfl, rfl, rfl, rfl⟩
  | addr => rw [windowWrite_addr hb]; exact ⟨rfl, id, rfl, rfl, rfl, rfl, rfl⟩
  | count => rw [windowWrite_count hb]; exact ⟨rfl, id, rfl, rfl, rfl, rfl, rfl⟩
  | seed => rw [windowWrite_seed hb]; exact ⟨rfl, id, rfl, rfl, rfl, rfl, rfl⟩
  | status | faultInfo | params | reserved =>
    rw [windowWrite_of_readOnly s w (by simp)]
    exact .of_ndb_eq rfl

theorem staysHalted_hostStep {m : HostMove} (he : s.ndb.status.err = true)
    (hb : s.ndb.status.busy = false) (hm : m ≠ .reset) (h : hostStep m s = .next t) :
    StaysHalted s t := by
  cases m with
  | readReg r => obtain rfl := Host.Outcome.next.inj h; exact .of_ndb_eq rfl
  | writeReg r w => obtain rfl := Host.Outcome.next.inj h; exact staysHalted_windowWrite he hb w r
  | readMem a => obtain rfl := eq_of_hostMemory_eq_next h; exact .of_ndb_eq rfl
  | writeMem a b => obtain rfl := eq_of_hostMemory_eq_next h; exact .of_ndb_eq rfl
  | own rs =>
    simp only [hostStep, hb, Bool.false_eq_true, if_false] at h
    obtain rfl := Host.Outcome.next.inj h
    exact .of_ndb_eq rfl
  | reset => exact absurd rfl hm

/-- R203: a fault is left by reset alone. -/
theorem staysHalted_step (he : s.ndb.status.err = true) (hb : s.ndb.status.busy = false)
    (hreset : ∀ rest, s.script ≠ .host .reset :: rest) (h : step s = .next t) :
    StaysHalted s t := by
  obtain ⟨u, hu, core⟩ | ⟨rest, -, -, e⟩ | ⟨m, rest, hs, e⟩ := step_cases s
  · have hndb : u.ndb = s.ndb := by rcases hu with rfl | ⟨rest, -, rfl⟩ <;> rfl
    rcases core with ⟨-, e⟩ | ⟨hbusy, -⟩ | ⟨hbusy, -⟩
    · exact .of_ndb_eq (Host.Outcome.next.inj (h.symm.trans e) ▸ hndb)
    all_goals simp [hb] at hbusy
  · obtain rfl := Host.Outcome.next.inj (e.symm.trans h)
    exact .of_ndb_eq rfl
  · have hm : m ≠ .reset := by rintro rfl; exact hreset rest hs
    have hkept := staysHalted_hostStep (s := { s with script := rest }) he hb hm (e.symm.trans h)
    exact ⟨hkept.status, hkept.ovr, hkept.faultInfo, hkept.gen, hkept.v, hkept.wr, hkept.cur⟩

end

/-- Settles O7. -/
theorem idleCoreHoldsItsState : Obligations.IdleCoreHoldsItsState := by
  unfold Obligations.IdleCoreHoldsItsState
  intro s hb
  refine ⟨fun hs => ?_, fun rest hs => ?_⟩
  · rw [step, takeTurn, hs]
    exact coreStep_of_idle hb
  · rcases hs with hs | hs <;> rw [step, takeTurn, hs]
    · exact coreStep_of_idle (s := { s with script := rest }) hb
    · exact if_neg (by simp [hb])

/-- Settles O47: the frame of a halted core, and the equation of each register access. -/
theorem coreIsHaltedAfterAFault : Obligations.CoreIsHaltedAfterAFault := by
  unfold Obligations.CoreIsHaltedAfterAFault
  intro s t he hb h hreset
  have hkept := staysHalted_step he hb hreset h
  have eq_of_step {u : State} (e : step s = .next u) : u = t :=
    Host.Outcome.next.inj (e.symm.trans h)
  refine ⟨by rw [hkept.status, he], by rw [hkept.status], by rw [hkept.status, hb],
    hkept.faultInfo, hkept.ovr, hkept.gen, hkept.v, hkept.wr, hkept.cur, fun w rest hs => ?_,
    fun w rest hs => ?_, fun w rest hs => ?_, fun w rest hs => ?_, fun r rest hs => ?_⟩
  · rw [← eq_of_step (step_of_writeReg hs (windowWrite_cmd_of_err he w))]
    rfl
  · rw [← eq_of_step (step_of_writeReg hs (windowWrite_addr hb w))]
  · rw [← eq_of_step (step_of_writeReg hs (windowWrite_count hb w))]
  · rw [← eq_of_step (step_of_writeReg hs (windowWrite_seed hb w))]
  · rw [← eq_of_step (step_of_host hs)]
    rfl

end Sys2Proof.Machine
end

section
/-! A read of an unwritten batch register (spec/60_exceptions.md R204, R205). -/

namespace Sys2Proof.Machine

section
variable {s t : State}

/-- No move of the Host changes which of R204's answers the machine gives. -/
theorem hostStep_unwrittenRule {m : HostMove} (h : hostStep m s = .next t) :
    t.unwrittenRule = s.unwrittenRule := by
  cases m with
  | readReg r => obtain rfl := Host.Outcome.next.inj h; rfl
  | writeReg r w =>
    obtain rfl := Host.Outcome.next.inj h
    cases r <;> simp only [windowWrite] <;> split <;> rfl
  | readMem a => obtain rfl := eq_of_hostMemory_eq_next h; rfl
  | writeMem a b => obtain rfl := eq_of_hostMemory_eq_next h; rfl
  | own rs =>
    simp only [hostStep] at h
    split at h
    · cases h
    · obtain rfl := Host.Outcome.next.inj h; rfl
  | reset => obtain rfl := Host.Outcome.next.inj h; rfl

theorem step_unwrittenRule (h : step s = .next t) : t.unwrittenRule = s.unwrittenRule := by
  obtain ⟨u, hu, core⟩ | ⟨rest, -, -, e⟩ | ⟨m, rest, -, e⟩ := step_cases s
  · have hrule : u.unwrittenRule = s.unwrittenRule := by
      rcases hu with rfl | ⟨rest, -, rfl⟩ <;> rfl
    rw [← hrule]
    rcases core with ⟨-, e⟩ | ⟨-, i, -, e⟩ | ⟨-, why, -, e⟩
    · obtain rfl := Host.Outcome.next.inj (e.symm.trans h); rfl
    · obtain ⟨-, -, -, -, -, hsame⟩ := (effect_of_exec (e.symm.trans h)).sameOutside
      exact hsame
    · obtain rfl := Host.Outcome.next.inj (e.symm.trans h); rfl
  · obtain rfl := Host.Outcome.next.inj (e.symm.trans h); rfl
  · exact hostStep_unwrittenRule (s := { s with script := rest }) (e.symm.trans h)

/-- What a command puts on record is the first unwritten one of its sources. -/
theorem Effect.unwrittenRead_eq {i : Instr} (h : Effect s i t) :
    t.unwrittenRead = s.unwrittenRead.or (firstUnwritten s (sourcesOf i)) := by
  have noSource : s.unwrittenRead = s.unwrittenRead.or (firstUnwritten s []) := by
    simp [firstUnwritten]
  cases h with
  | fillStart => rw [finishFill_unwrittenRead]; exact noSource
  | fillBlock => rw [finishFill_unwrittenRead, storeBlock_unwrittenRead]; exact noSource
  | nop | reseed | fillFault | fillRefused | draw | vldFault | vld => exact noSource
  | vlog | vsin | vsincos | combine | vstFault | vst => rfl

/-- R205: the sources are looked at in their order, RS1 before RS2. -/
theorem firstUnwritten_cons_of_unwritten {n : VReg} (hn : s.ndb.wr[n] = false) (rs : List VReg) :
    firstUnwritten s (n :: rs) = some n :=
  List.find?_cons_of_pos (by simpa using hn)

theorem firstUnwritten_cons_of_written {n : VReg} (hn : s.ndb.wr[n] = true) (rs : List VReg) :
    firstUnwritten s (n :: rs) = firstUnwritten s rs :=
  List.find?_cons_of_neg (by simpa using hn)

end

/-- Settles O27: a command stops exactly at its first unwritten source, where the rule is to stop,
and puts it on record where it is to run on. -/
theorem unwrittenReadStopsOrRunsOn : Obligations.UnwrittenReadStopsOrRunsOn := by
  unfold Obligations.UnwrittenReadStopsOrRunsOn
  refine ⟨rfl, fun s t => step_unwrittenRule, fun i s => ⟨fun n hn hi => ?_, fun f hf => ?_⟩⟩
  · have hfirst : firstUnwritten s (sourcesOf i) = some n := by
      rcases hi with ⟨rd, rfl | rfl⟩ | ⟨rd, rd2, rfl⟩ | ⟨rd, rd2, rs2, rfl⟩ |
        ⟨rd, rd2, rs1, rfl, hw⟩ | rfl
      case inr.inr.inr.inl =>
        exact (firstUnwritten_cons_of_written hw [n]).trans (firstUnwritten_cons_of_unwritten hn [])
      all_goals exact firstUnwritten_cons_of_unwritten hn _
    refine ⟨fun hstop => ?_, fun hrun => ?_⟩
    · obtain ⟨m, hm, -, he⟩ | ⟨hread, -⟩ := exec_cases i s
      · rw [he, Option.some.inj (hm.symm.trans hfirst)]
      · have hwritten := hread.resolve_left (by simp [hstop])
        simp [firstUnwritten_none_iff.2 hwritten] at hfirst
    · obtain ⟨t, ht⟩ := exists_exec_eq_next_iff.2 (.inl hrun : Readable s (sourcesOf i))
      have hrecord := (effect_of_exec ht).unwrittenRead_eq
      rw [hfirst] at hrecord
      exact ⟨t, ht, fun hnone => by rw [hrecord, hnone]; rfl, fun m hm => by rw [hrecord, hm]; rfl⟩
  · obtain ⟨n, hn, hstop, he⟩ | ⟨-, t, ht⟩ := exec_cases i s
    · obtain rfl := Host.Outcome.fault.inj (he.symm.trans hf)
      obtain ⟨hmem, hw⟩ := firstUnwritten_some hn
      exact ⟨hstop, n, hmem, rfl, hw⟩
    · cases ht.symm.trans hf

end Sys2Proof.Machine
end

section
/-! A CMD write that races the completion of a command (spec/60_exceptions.md R208). -/

namespace Sys2Proof.Machine

section
variable {s t : State} {i : Instr}

/-- R81: a command but FILL whose checks pass completes in its one step. -/
theorem Effect.completes (h : Effect s i t) (hf : i ≠ .fill)
    (hc : (∃ r, i = .vld r ∨ i = .vst r) → checkVec s = none) :
    t.ndb.status = s.ndb.status.completed := by
  cases h with
  | fillFault | fillStart | fillRefused | fillBlock => exact absurd rfl hf
  | vldFault rd hfail => simp [hc ⟨rd, .inl rfl⟩] at hfail
  | vstFault rs1 hfail => simp [hc ⟨rs1, .inr rfl⟩] at hfail
  | _ => rfl

theorem step_of_coreTurn {rest : List Turn} (hs : s.script = .core :: rest)
    (hb : s.ndb.status.busy = true) (hd : decode s.ndb.cur = .instr i) :
    step s = exec i { s with script := rest } := by
  obtain ⟨-, hcore, -⟩ := stepRunsDecodedCommand s i hb hd
  exact hcore rest hs

theorem run_two {u : State} (h : step s = .next t) (h' : step t = .next u) :
    Host.Core.run Sys2Proof.core 2 s = .next u :=
  (run_add_one ((run_add_one rfl).trans h)).trans h'

variable (hf : i ≠ .fill) (hread : Readable s (sourcesOf i))
  (hc : (∃ r, i = .vld r ∨ i = .vst r) → checkVec s = none)
include hf hread hc

theorem exec_completes :
    ∃ t, exec i s = .next t ∧ t.ndb.status = s.ndb.status.completed ∧ t.ndb.cur = s.ndb.cur ∧
      t.script = s.script := by
  obtain ⟨t, ht⟩ := exists_exec_eq_next_iff.2 hread
  have e := effect_of_exec ht
  obtain ⟨-, -, -, hcur⟩ := e.sameRegisters
  obtain ⟨-, -, hscript, -⟩ := e.sameOutside
  exact ⟨t, ht, e.completes hf hc, hcur, hscript⟩

/-- The write comes first: it is dropped, and the command completes. -/
theorem run_cmdWrite_core {w : DWord} (hs : s.script = [.host (.writeReg .cmd w), .core])
    (hb : s.ndb.status.busy = true) (hd : decode s.ndb.cur = .instr i) :
    ∃ t, Host.Core.run Sys2Proof.core 2 s = .next t ∧
      t.ndb.status = s.ndb.status.dropped.completed ∧ t.ndb.cur = s.ndb.cur := by
  have hdrop : step s = .next { dropWrite s with script := [.core] } :=
    step_of_writeReg hs (windowWrite_of_busy hb w (.inl rfl))
  obtain ⟨t, ht, hstatus, hcur, -⟩ :=
    exec_completes (s := { dropWrite s with script := [] }) hf hread hc
  have hcore : step { dropWrite s with script := [.core] } = .next t :=
    (step_of_coreTurn (s := { dropWrite s with script := [.core] }) rfl hb hd).trans ht
  exact ⟨t, run_two hdrop hcore, hstatus, hcur⟩

/-- The Core comes first: the command completes, and the write is accepted. -/
theorem run_core_cmdWrite {w : DWord} (hs : s.script = [.core, .host (.writeReg .cmd w)])
    (hb : s.ndb.status.busy = true) (he : s.ndb.status.err = false)
    (hd : decode s.ndb.cur = .instr i) :
    ∃ t, Host.Core.run Sys2Proof.core 2 s = .next t ∧
      t.ndb.status = s.ndb.status.completed.accepted ∧ t.ndb.cur = w.setWidth 32 := by
  obtain ⟨t, ht, hstatus, -, hscript⟩ :=
    exec_completes (s := { s with script := [.host (.writeReg .cmd w)] }) hf hread hc
  have haccept : step t = .next { acceptCommand t (w.setWidth 32) with script := [] } :=
    step_of_writeReg hscript
      (windowWrite_cmd_of_ready (by rw [hstatus]; rfl) (by rw [hstatus]; exact he) w)
  exact ⟨_, run_two ((step_of_coreTurn hs hb hd).trans ht) haccept,
    congrArg Status.accepted hstatus, rfl⟩

end

/-- Settles O56: a dropped write takes nothing from the command, and a completed command leaves the
core ready for the next. -/
theorem racingCmdWrite : Obligations.RacingCmdWrite := by
  unfold Obligations.RacingCmdWrite
  intro s w i hb he hd hf hread hc
  constructor
  · obtain ⟨t, hrun, hstatus, hcur⟩ := run_cmdWrite_core
      (s := { s with script := [.host (.writeReg .cmd w), .core] }) hf hread hc rfl hb hd
    refine ⟨t, hrun, ?_, ?_, ?_, hcur⟩ <;> rw [hstatus] <;> rfl
  · obtain ⟨t, hrun, hstatus, hcur⟩ := run_core_cmdWrite
      (s := { s with script := [.core, .host (.writeReg .cmd w)] }) hf hread hc rfl hb he hd
    refine ⟨t, hrun, ?_, ?_, ?_, hcur⟩ <;> rw [hstatus] <;> rfl

end Sys2Proof.Machine
end

section
/-! Reset (spec/70_reset_and_hazards.md R240 to R242): the values it leaves, and the command it
abandons. -/

namespace Sys2Proof.Machine

theorem Status.reset_word : Status.reset.word = 0 := by decide

theorem Ndb.reset_wr : ∀ n : VReg, Ndb.reset.wr[n] = false := by decide

section
variable {s : State}

/-- R241: reset runs in every state, also while a command runs. -/
theorem step_of_reset {rest : List Turn} (hs : s.script = .host .reset :: rest) :
    step s = .next (resetCore { s with script := rest }) :=
  step_of_host hs

/-- R215, over any number of steps. -/
theorem run_of_idle (hs : s.script = []) (hb : s.ndb.status.busy = false) (n : Nat) :
    Host.Core.run Sys2Proof.core n s = .next s := by
  obtain ⟨hidle, -⟩ := idleCoreHoldsItsState s hb
  induction n with
  | zero => rfl
  | succ n ih => exact (run_add_one ih).trans (hidle hs)

end

/-- Settles O57: the generator reset constructs is the one RESEED constructs from SEED0. -/
theorem resetValues : Obligations.ResetValues := by
  unfold Obligations.ResetValues
  intro s rest hs
  have hgen (i : Lane) : Ndb.reset.gen[i].toNat = (1 + i.val * 0x9E3779B9) % 2 ^ 32 :=
    seedSequence_toNat Config.this.seed0 i
  obtain ⟨hparams, -⟩ := constantRegisters (resetCore { s with script := rest }) 0
  obtain ⟨u, hu, hreseed, -⟩ := exec_reseed { resetCore { s with script := rest } with script := [] }
  exact ⟨_, step_of_reset hs, hgen, rfl, Ndb.reset_wr, rfl, rfl, Status.reset_word, rfl, rfl, rfl,
    rfl, hparams, rfl, u, hu, hreseed⟩

/-- Settles O58: BUSY = 0 leaves nothing to run, and with ERR = 0 the next CMD write is accepted. -/
theorem resetAbandonsTheCommand : Obligations.ResetAbandonsTheCommand := by
  unfold Obligations.ResetAbandonsTheCommand
  intro s hs
  refine ⟨_, step_of_reset hs, rfl, rfl, rfl, rfl, run_of_idle rfl rfl, fun w => ?_⟩
  exact ⟨_, step_of_writeReg rfl (windowWrite_cmd_of_ready rfl rfl w), rfl, rfl, rfl⟩

end Sys2Proof.Machine
end

section
/-! The words of the test vectors (spec/95_test_vectors.md V-ENC-1 and V-ENC-2). -/

namespace Sys2Proof

/-- Settles O1: each legal word is the encoding of its well-formed command, which fixes what it
decodes to; the two illegal words are evaluated to the check they fail. -/
theorem knownWordsDecode : Obligations.KnownWordsDecode := by
  unfold Obligations.KnownWordsDecode
  have legal {w : Word} {i : Instr} (hi : i.WellFormed) (hw : encode i = w) :
      decode w = .instr i := (decode_eq_instr_iff_encode_eq hi).2 hw
  exact ⟨legal rfl rfl, legal rfl rfl, legal rfl rfl, legal rfl rfl, legal rfl rfl, legal rfl rfl,
    legal rfl rfl, legal rfl rfl, legal rfl rfl, legal rfl rfl, by decide, by decide⟩

end Sys2Proof
end
